-- ==== Sys2Proof/Word.lean ====
section
/-! DEFINITION. The word types of RLEC: what spec/ treats as bits. Bit 0 is the least significant bit
(00_scope.md R10); every field is read as an unsigned integer. -/

namespace Sys2Proof

/-- One byte of the aperture. -/
abbrev Byte := BitVec 8

/-- A u16 field: codes, runs, used-lengths, LEN, SLOT, POS (92_eei_decisions.md D8). -/
abbrev Half := BitVec 16

/-- One 32-bit register, command word or bus word (20_memory.md R60). -/
abbrev Word := BitVec 32

/-- A coefficient pattern (00_scope.md R11). COEF_W is 32 or 64 (R6); a 32-bit pattern stands in the low half
and the high half is 0, so equality of `Coef` is equality of all COEF_W bits. -/
abbrev Coef := BitVec 64

/-- `a ++ b` of two halves, `a` in the high bits (R10). -/
def halves (hi lo : Half) : Word := hi ++ lo

end Sys2Proof
end

