-- ==== Sys2Proof/Syntax.lean ====
section
/-! DEFINITION. The commands of RLEC: one constructor per row of spec/opcode_table.json (30_encoding.md R101),
and the three channels. -/

namespace Sys2Proof

/-- The channels Y, Cr and Cb, in the order of the Pixel triple (00_scope.md R13). -/
inductive Chan where
  | y
  | cr
  | cb
  deriving DecidableEq, Repr

/-- A command. `ch` is the 2-bit channel selector, of which 3 names no channel (R102); `tag` and `slot` are the
SLOT field: a context tag, or the transport slot of PACK and UNPACK (R103). -/
inductive Instr where
  /-- NOP (46_housekeeping.md R190). -/
  | nop (tag : Half)
  /-- EXTRACT (40_extract.md R121). -/
  | extract (ch : BitVec 2) (tag : Half)
  /-- BUILD_TABLE (41_freq_table.md R133). -/
  | buildTable (ch : BitVec 2) (tag : Half)
  /-- RLE_ENCODE (42_rle_encode.md R141). -/
  | rleEncode (ch : BitVec 2) (tag : Half)
  /-- RLE_DECODE (43_rle_decode.md R150). -/
  | rleDecode (ch : BitVec 2) (tag : Half)
  /-- ENCODE_BLOCK (44_block_codec.md R160). -/
  | encodeBlock (tag : Half)
  /-- DECODE_BLOCK (44_block_codec.md R161). -/
  | decodeBlock (tag : Half)
  /-- PACK (45_marshaller.md R170). -/
  | pack (slot : Half) (ch : BitVec 2)
  /-- UNPACK (45_marshaller.md R171). -/
  | unpack (slot : Half)
  deriving DecidableEq, Repr

end Sys2Proof
end

