-- ==== Sys2Proof/WellFormed.lean ====
section
/-! DEFINITION. Well-formed commands: the channel selector of a channel command names a channel. Every command,
ill-formed ones too, has an encoding and a meaning: CH = 3 raises BAD_CHANNEL and is never undefined
(30_encoding.md R102, 90_conflicts.md C6). -/

namespace Sys2Proof

/-- 0 = Y, 1 = Cr, 2 = Cb; 3 is not a channel (00_scope.md R13, 30_encoding.md R102). -/
def namesChannel (ch : BitVec 2) : Bool := ch != 3

/-- The channel operand, where the command has one, names a channel (R102). -/
def Instr.wf : Instr → Bool
  | .nop _ => true
  | .extract ch _ => namesChannel ch
  | .buildTable ch _ => namesChannel ch
  | .rleEncode ch _ => namesChannel ch
  | .rleDecode ch _ => namesChannel ch
  | .encodeBlock _ => true
  | .decodeBlock _ => true
  | .pack _ ch => namesChannel ch
  | .unpack _ => true

end Sys2Proof
end

