-- ==== Sys2Proof/Decode.lean ====
section
/-! DEFINITION. The command word: decoding, total on all 2^32 words (30_encoding.md R108), and the encoder. -/

namespace Sys2Proof

/-- The fields of a command word (30_encoding.md R100): OP. -/
def opField (w : Word) : BitVec 4 := w.extractLsb' 0 4
/-- CH, bits [5:4] (R100). -/
def chField (w : Word) : BitVec 2 := w.extractLsb' 4 2
/-- RSV, bits [15:6] (R100). -/
def rsvField (w : Word) : BitVec 10 := w.extractLsb' 6 10
/-- SLOT, bits [31:16] (R100). -/
def slotField (w : Word) : Half := w.extractLsb' 16 16

/-- `w = (SLOT << 16) | (RSV << 6) | (CH << 4) | OP` (R100). -/
def assemble (slot : Half) (rsv : BitVec 10) (ch : BitVec 2) (op : BitVec 4) : Word :=
  slot ++ (rsv ++ (ch ++ op))

/-- Why a word spells no operation (R105): the three ways of `illegal`. All of them raise BAD_CMD. -/
inductive DecodeError where
  /-- OP is 0x9 to 0xF (R106). -/
  | reservedOp (op : BitVec 4)
  /-- RSV is not 0 (R104). -/
  | reservedBits (rsv : BitVec 10)
  /-- CH is not 0 on a non-channel command (R105). -/
  | channelNotZero (ch : BitVec 2)
  deriving DecidableEq, Repr

/-- The complete set of encodings that spell no operation (R105). -/
def illegal (w : Word) : Bool :=
  decide (9 ≤ (opField w).toNat) || rsvField w != 0 ||
    ((opField w == 0 || opField w == 5 || opField w == 6 || opField w == 8) && chField w != 0)

/-- A non-channel command takes CH = 0 only (R102, R105). -/
def withoutChannel (ch : BitVec 2) (i : Instr) : Except DecodeError Instr :=
  if ch = 0 then .ok i else .error (.channelNotZero ch)

/-- The operation of a word whose RSV is 0 (R101). -/
def decodeOp (op : BitVec 4) (ch : BitVec 2) (slot : Half) : Except DecodeError Instr :=
  match op.toNat with
  | 0 => withoutChannel ch (.nop slot)
  | 1 => .ok (.extract ch slot)
  | 2 => .ok (.buildTable ch slot)
  | 3 => .ok (.rleEncode ch slot)
  | 4 => .ok (.rleDecode ch slot)
  | 5 => withoutChannel ch (.encodeBlock slot)
  | 6 => withoutChannel ch (.decodeBlock slot)
  | 7 => .ok (.pack slot ch)
  | 8 => withoutChannel ch (.unpack slot)
  | _ => .error (.reservedOp op)

/-- Decoding a command word (R108). CH = 3 on a channel command is no decoding error: it decodes, and the command
raises BAD_CHANNEL. -/
def decode (w : Word) : Except DecodeError Instr :=
  if rsvField w = 0 then decodeOp (opField w) (chField w) (slotField w)
  else .error (.reservedBits (rsvField w))

/-- The word of a command (R101, R109). -/
def encode : Instr → Word
  | .nop tag => assemble tag 0 0 0x0
  | .extract ch tag => assemble tag 0 ch 0x1
  | .buildTable ch tag => assemble tag 0 ch 0x2
  | .rleEncode ch tag => assemble tag 0 ch 0x3
  | .rleDecode ch tag => assemble tag 0 ch 0x4
  | .encodeBlock tag => assemble tag 0 0 0x5
  | .decodeBlock tag => assemble tag 0 0 0x6
  | .pack slot ch => assemble slot 0 ch 0x7
  | .unpack slot => assemble slot 0 0 0x8

/-- The command word whose low `nbits` bits are those of `w`, the bits above being 0. -/
def tableWord (nbits w : Nat) : Word := BitVec.ofNat 32 (w % 2 ^ nbits)

/-- What the decoder reads from a word numbered as spec/opcode_table.json numbers it. A command is one 32-bit
word written to CMD (R100), bit 0 its least significant bit. -/
def decodeTableWord (nbits w : Nat) : Option Instr := (decode (tableWord nbits w)).toOption

end Sys2Proof
end

