-- ==== Sys2Proof/Config.lean ====
section
/-! DEFINITION. What an implementation of RLEC fixes: the build parameters (00_scope.md R6 to R8), and the
free values the spec leaves open. -/

namespace Sys2Proof

/-- The build parameters of one instance. They are fixed for a run and stand in the state as plain data, so
that a statement about every state speaks of every build (93_implementation_defined.md U4, U5: `parameter`). -/
structure Params where
  /-- COEF_W = 64 (R6; PARAM.COEF64 of R24). COEF_W = 32 where false. -/
  coef64 : Bool
  /-- N_MAX (R7), 2..1024. -/
  nMax : Nat
  /-- NSLOT (R8), 1..65535. -/
  nSlot : Nat
  deriving DecidableEq, Repr

/-- The default build: COEF_W = 32, N_MAX = 64, NSLOT = 64 (R7, R8, and R24's "default parameters"). -/
def Params.default : Params := { coef64 := false, nMax := 64, nSlot := 64 }

/-- FREE VALUE. What a byte of the data memories reads as while nothing has written it since hard reset: an
unspecified value, one fixed value per element, not re-drawn on each read and never assumed to be 0
(70_reset_and_hazards.md R232, 93_implementation_defined.md U1). The first argument counts the hard resets, the
second is the byte's aperture address. It has no body: nothing can be proved of it. -/
opaque Config.powerUpByte : Nat → Nat → Byte

end Sys2Proof
end

