-- ==== Sys2Proof/Machine/State.lean ====
section
/-! DEFINITION. The state of one RLEC instance: all of 10_state.md, the pins and the slave port; the reasons a
step can stop; and the state after reset. -/

namespace Sys2Proof.Machine
open Sys2Proof

/-- One value per channel. -/
structure PerChan (α : Type) where
  y : α
  cr : α
  cb : α
  deriving DecidableEq, Repr

/-- The error causes of 60_exceptions.md R201. The reserved codes 0x0B to 0xFF are never reported (U11) and are
no value of this type. -/
inductive Cause where
  | none
  | capacity
  | lookupMiss
  | lengthMismatch
  | badCmd
  | badChannel
  | badLen
  | slotRange
  | tableBadCode
  | tableDupValue
  | badRun
  deriving DecidableEq, Repr

/-- The error registers ERR_CAUSE, ERR_SLOT, ERR_CH, ERR_POS, ERR_DATA_LO and ERR_DATA_HI (10_state.md R30 to
R35), without their reserved bits, which read 0. -/
structure ErrRecord where
  /-- ERR_CAUSE.CAUSE (R30). -/
  cause : Cause
  /-- ERR_SLOT.SLOT (R31). -/
  slot : Half
  /-- ERR_CH.CH (R32). -/
  ch : BitVec 2
  /-- ERR_CH.CHMASK: bit c is channel c (R32). -/
  mask : BitVec 3
  /-- ERR_POS.POS (R33). -/
  pos : Half
  /-- ERR_DATA_LO (R34). -/
  lo : Word
  /-- ERR_DATA_HI (R35). -/
  hi : Word
  deriving DecidableEq, Repr

/-- No error recorded: the reset value, and the value at acceptance (R30 to R35). -/
def ErrRecord.clear : ErrRecord :=
  { cause := .none, slot := 0, ch := 0, mask := 0, pos := 0, lo := 0, hi := 0 }

/-- The engine's latched command, held from acceptance to completion (10_state.md R47). -/
structure Latch where
  /-- LATCH_CMD. -/
  cmd : Word
  /-- LATCH_LEN. -/
  len : Half
  deriving DecidableEq, Repr

/-- The scalar part of an Encoded Channel (10_state.md R43). Its arrays TUP and INV stand in memory. -/
structure EncHead where
  /-- DC[c], the raw DC pattern. -/
  dc : Coef
  /-- TLEN[c], the number of run-length tuples. -/
  tlen : Half
  /-- NDIST[c], the number of Frequency Table entries. -/
  ndist : Half
  deriving DecidableEq, Repr

/-- An empty Encoded Channel (R43, R49). -/
def EncHead.empty : EncHead := { dc := 0, tlen := 0, ndist := 0 }

/-- A host transaction on the slave port (20_memory.md R60): a 21-bit byte address, 32-bit data, and the byte
strobes that a BUS_PROTOCOL may carry (R63; a protocol without strobes always sets all four). -/
inductive Txn where
  /-- HostRead(a). -/
  | read (addr : BitVec 21) (strobes : BitVec 4)
  /-- HostWrite(a, w). -/
  | write (addr : BitVec 21) (data : Word) (strobes : BitVec 4)
  deriving DecidableEq, Repr

/-- The machine's inputs, in the one total order of 20_memory.md R77. -/
inductive Event where
  /-- The port receives a transaction. -/
  | host (t : Txn)
  /-- The engine takes its turn (30_encoding.md R107), if a command runs. -/
  | engine
  /-- A transaction and the completion fall in one clock cycle; the order is the hardware's, and both are
  admitted (60_exceptions.md R217). -/
  | sameCycle (t : Txn) (hostFirst : Bool)
  /-- `rst_n` falls (70_reset_and_hazards.md R230). -/
  | rstFall
  /-- `rst_n` rises (R230). -/
  | rstRise
  deriving DecidableEq, Repr

/-- The answer to a transaction: the data a read returns (0 for a write), and the error response that a
BUS_PROTOCOL may carry (20_memory.md R60, R63). -/
structure Resp where
  data : Word
  busError : Bool
  deriving DecidableEq, Repr

/-- The data memories of the aperture, by byte address: the bytes that something has written since hard reset, in
rising order of address. An address that is not listed has no value; what the machine reads there is
`Config.powerUpByte`. -/
abbrev Memory := List Host.Cell

/-- The state of one instance. -/
structure State where
  /-- The build parameters (00_scope.md R6 to R8). -/
  params : Params
  /-- The level of `rst_n` (70_reset_and_hazards.md R230). -/
  rstN : Bool
  /-- CFG.LEN (10_state.md R27). -/
  cfgLen : Half
  /-- The latched command (R47). STATUS.BUSY is 1 exactly while there is one (R29). -/
  latch : Option Latch
  /-- STATUS.ERR (R29). -/
  statusErr : Bool
  /-- The error registers (R30 to R35). -/
  err : ErrRecord
  /-- IRQ_EN[3:0]: DONE_EN, ERR_EN, BERR_EN, OVR_EN from bit 0 (R36). -/
  irqEn : BitVec 4
  /-- IRQ_STATUS[3:0]: DONE, ERR, BERR, OVR from bit 0 (R37). -/
  irqStatus : BitVec 4
  /-- LAST_CMD (R38). -/
  lastCmd : Word
  /-- DC, TLEN and NDIST of every channel (R43). -/
  enc : PerChan EncHead
  /-- BLK_IN, BLK_OUT, SEQ, TUP, INV and TR (R40 to R46), at their addresses in the aperture. -/
  mem : Memory
  /-- The transaction the port holds (20_memory.md R75). SRST_PENDING is 1 exactly while it is a CTRL write with
  SRST = 1 (R47). -/
  held : Option Txn
  /-- The answer of the latest transaction that completed. -/
  resp : Option Resp
  /-- The input not yet taken, oldest first (20_memory.md R77). -/
  events : List Event
  /-- MODEL'S OWN: how many hard resets there were; it names the free contents of never-written memory. -/
  resets : Nat
  deriving DecidableEq, Repr

/-- Why the machine stops. RLEC itself never does (60_exceptions.md R200: "it never halts or locks up on an
error"). -/
inductive Fault where
  /-- Raised by `step` alone, for a state whose build parameters are outside the ranges of 00_scope.md R6 to R8.
  There is no such hardware: safe. -/
  | illegalBuild
  deriving DecidableEq, Repr

/-- Why a step has no meaning. -/
inductive Refusal where
  /-- The command has no meaning in this model yet. Raised by `exec` alone, for an arm not reached; no arm is
  left so: safe. -/
  | notModelled (mnemonic : String)
  deriving DecidableEq, Repr

/-- The state of a build right after the `resets`-th rise of `rst_n`: 10_state.md R49's "after hard reset" column.
Memory lists nothing: every element is unspecified (R232). -/
def State.afterHardReset (p : Params) (resets : Nat) (events : List Event) : State :=
  { params := p
    rstN := true
    cfgLen := BitVec.ofNat 16 p.nMax
    latch := none
    statusErr := false
    err := ErrRecord.clear
    irqEn := 0
    irqStatus := 0
    lastCmd := 0
    enc := { y := EncHead.empty, cr := EncHead.empty, cb := EncHead.empty }
    mem := []
    held := none
    resp := none
    events := events
    resets := resets }

/-- The default build right after hard reset, with no input. -/
def State.reset : State := State.afterHardReset Params.default 0 []

end Sys2Proof.Machine
end

