-- ==== Sys2Proof/Machine/Layout.lean ====
section
/-! DEFINITION. The sizes that follow from the build parameters (00_scope.md R9), the address of every element
of every window (20_memory.md R66 to R73), and the regions of the aperture. -/

namespace Sys2Proof.Machine
open Sys2Proof

/-- The least multiple of 8 that is ≥ x (00_scope.md R9). -/
def align8 (x : Nat) : Nat := (x + 7) / 8 * 8

/-- COEF_W, 32 or 64 (R6). -/
def coefW (p : Params) : Nat := if p.coef64 then 64 else 32

/-- B = COEF_W / 8 (R6). -/
def coefBytes (p : Params) : Nat := if p.coef64 then 8 else 4

/-- CAP = N_MAX - 1 (R7). -/
def cap (p : Params) : Nat := p.nMax - 1

/-- DC_BYTES (R9). -/
def dcBytes (p : Params) : Nat := align8 (3 * coefBytes p)

/-- TC_OFF (R9). -/
def tcOff (p : Params) : Nat := 4 + 4 * cap p

/-- TV_OFF (R9). -/
def tvOff (p : Params) : Nat := align8 (4 + 6 * cap p)

/-- CH_BYTES (R9). -/
def chBytes (p : Params) : Nat := align8 (tvOff p + coefBytes p * cap p)

/-- SLOT_BYTES (R9). -/
def slotBytes (p : Params) : Nat := dcBytes p + 3 * chBytes p

/-- The ranges of R6 to R8: 2 ≤ N_MAX ≤ 1024, 1 ≤ NSLOT ≤ 65535, NSLOT * SLOT_BYTES ≤ 0x100000. -/
def legalBuild (p : Params) : Bool :=
  decide (2 ≤ p.nMax) && decide (p.nMax ≤ 1024) && decide (1 ≤ p.nSlot) && decide (p.nSlot ≤ 65535) &&
    decide (p.nSlot * slotBytes p ≤ 0x100000)

/-- Y = 0, Cr = 1, Cb = 2 (R13). -/
def Chan.idx : Chan → Nat
  | .y => 0
  | .cr => 1
  | .cb => 2

/-- The channels in ascending order (92_eei_decisions.md D37). -/
def Chan.all : List Chan := [.y, .cr, .cb]

/-- The CH field of a channel. -/
def Chan.field (c : Chan) : BitVec 2 := BitVec.ofNat 2 (Chan.idx c)

/-- The channel a CH field names, if any (30_encoding.md R102). -/
def Chan.ofField (ch : BitVec 2) : Option Chan :=
  match ch.toNat with
  | 0 => some .y
  | 1 => some .cr
  | 2 => some .cb
  | _ => none

/-- The value of a channel. -/
def PerChan.get {α : Type} (t : PerChan α) : Chan → α
  | .y => t.y
  | .cr => t.cr
  | .cb => t.cb

/-- The same values, with channel `c`'s replaced. -/
def PerChan.set {α : Type} (t : PerChan α) (c : Chan) (v : α) : PerChan α :=
  match c with
  | .y => { t with y := v }
  | .cr => { t with cr := v }
  | .cb => { t with cb := v }

/-- The address of `BLK_IN[i][c]` (20_memory.md R67). -/
def blkInAddr (p : Params) (c : Chan) (i : Nat) : Nat := 0x010000 + (3 * i + Chan.idx c) * coefBytes p

/-- The address of `BLK_OUT[i][c]` (R68). -/
def blkOutAddr (p : Params) (c : Chan) (i : Nat) : Nat := 0x020000 + (3 * i + Chan.idx c) * coefBytes p

/-- The address of `SEQ[c][i]` (R69). -/
def seqAddr (p : Params) (c : Chan) (i : Nat) : Nat := 0x030000 + 0x2000 * Chan.idx c + coefBytes p * i

/-- The start E of channel c's ENC sub-window (R70). -/
def encBase (c : Chan) : Nat := 0x040000 + 0x4000 * Chan.idx c

/-- The address of `TUP[c][k]`: the code, then at + 2 the run (R70, R61). -/
def tupAddr (c : Chan) (k : Nat) : Nat := encBase c + 0x1000 + 4 * k

/-- The address of `INV[c][k]` (R70). -/
def invAddr (p : Params) (c : Chan) (k : Nat) : Nat := encBase c + 0x2000 + coefBytes p * k

/-- TRADDR(s, off) (R71). -/
def trAddr (p : Params) (s off : Nat) : Nat := 0x100000 + s * slotBytes p + off

/-- CH_OFF(c) (R72). -/
def chOff (p : Params) (c : Chan) : Nat := dcBytes p + Chan.idx c * chBytes p

/-- The address of the DC value of channel c in slot s (R72). -/
def trDcAddr (p : Params) (s : Nat) (c : Chan) : Nat := trAddr p s (coefBytes p * Chan.idx c)

/-- `F(off) = TRADDR(s, CH_OFF(c) + off)` (45_marshaller.md's notation). -/
def secAddr (p : Params) (s : Nat) (c : Chan) (off : Nat) : Nat := trAddr p s (chOff p c + off)

/-- The aperture's data windows (R66). -/
inductive Window where
  | blkIn
  | blkOut
  | seq
  | enc
  | tr
  deriving DecidableEq, Repr

/-- `lo ≤ a < lo + n`. -/
def inRange (lo n a : Nat) : Bool := decide (lo ≤ a) && decide (a < lo + n)

/-- The window an address falls in, its gaps included: R66's base and end columns. -/
def windowOf (p : Params) (a : Nat) : Option Window :=
  if inRange 0x010000 (3 * coefBytes p * p.nMax) a then some .blkIn
  else if inRange 0x020000 (3 * coefBytes p * p.nMax) a then some .blkOut
  else if inRange 0x030000 0x6000 a then some .seq
  else if inRange 0x040000 0xC000 a then some .enc
  else if inRange 0x100000 (p.nSlot * slotBytes p) a then some .tr
  else none

/-- The channel whose sub-window of `size` bytes holds the offset `off` of a window of three. -/
def subChan (size off : Nat) : Chan :=
  if off < size then .y else if off < 2 * size then .cr else .cb

/-- The two words of DC and the words TLEN and NDIST at the start of an ENC sub-window (R70). -/
inductive HeadReg where
  | dcLo
  | dcHi
  | tlen
  | ndist
  deriving DecidableEq, Repr

/-- The head word at an offset from E (R70). -/
def HeadReg.ofOffset : Nat → Option HeadReg
  | 0x0 => some .dcLo
  | 0x4 => some .dcHi
  | 0x8 => some .tlen
  | 0xC => some .ndist
  | _ => none

/-- The control and status registers (10_state.md section 2). -/
inductive Csr where
  | id
  | version
  | param
  | slotsz
  | ctrl
  | cfg
  | cmd
  | status
  | errCause
  | errSlot
  | errCh
  | errPos
  | errDataLo
  | errDataHi
  | irqEn
  | irqStatus
  | lastCmd
  deriving DecidableEq, Repr

/-- The register at an aligned CSR offset (10_state.md section 2's table). -/
def Csr.ofOffset : Nat → Option Csr
  | 0x000 => some .id
  | 0x004 => some .version
  | 0x008 => some .param
  | 0x00C => some .slotsz
  | 0x010 => some .ctrl
  | 0x014 => some .cfg
  | 0x018 => some .cmd
  | 0x01C => some .status
  | 0x020 => some .errCause
  | 0x024 => some .errSlot
  | 0x028 => some .errCh
  | 0x02C => some .errPos
  | 0x030 => some .errDataLo
  | 0x034 => some .errDataHi
  | 0x038 => some .irqEn
  | 0x03C => some .irqStatus
  | 0x040 => some .lastCmd
  | _ => none

/-- The access types of 10_state.md R39. -/
inductive Access where
  | ro
  | rw
  | wo
  | w1c
  deriving DecidableEq, Repr

/-- The access type of each register (10_state.md section 2's table). -/
def Csr.access : Csr → Access
  | .ctrl => .wo
  | .cmd => .wo
  | .cfg => .rw
  | .irqEn => .rw
  | .irqStatus => .w1c
  | .id => .ro
  | .version => .ro
  | .param => .ro
  | .slotsz => .ro
  | .status => .ro
  | .errCause => .ro
  | .errSlot => .ro
  | .errCh => .ro
  | .errPos => .ro
  | .errDataLo => .ro
  | .errDataHi => .ro
  | .lastCmd => .ro

/-- What an aligned address of the aperture is mapped to (20_memory.md R64, R66). -/
inductive Target where
  /-- A control or status register. -/
  | csr (r : Csr)
  /-- A word of a data memory the host reads and writes: BLK_IN, TR. -/
  | ram
  /-- A word of a data memory the host only reads: BLK_OUT, SEQ, TUP, INV. -/
  | rom
  /-- A head word of an Encoded Channel, read only. -/
  | head (c : Chan) (r : HeadReg)
  /-- Unmapped. -/
  | unmapped
  deriving DecidableEq, Repr

/-- The target of an address in the ENC window (R70). -/
def encTarget (p : Params) (off : Nat) : Target :=
  let c := subChan 0x4000 off
  let e := off % 0x4000
  if inRange 0x1000 (4 * cap p) e || inRange 0x2000 (coefBytes p * cap p) e then .rom
  else match HeadReg.ofOffset e with
    | some r => .head c r
    | none => .unmapped

/-- The target of an aligned address (R66 to R71). -/
def targetOf (p : Params) (a : Nat) : Target :=
  match windowOf p a with
  | some .blkIn => .ram
  | some .blkOut => .rom
  | some .seq => if (a - 0x030000) % 0x2000 < coefBytes p * p.nMax then .rom else .unmapped
  | some .enc => encTarget p (a - 0x040000)
  | some .tr => .ram
  | none => match Csr.ofOffset a with
    | some r => .csr r
    | none => .unmapped

/-- The bytes of the data memories: every byte of BLK_IN, BLK_OUT and TR, and the mapped bytes of SEQ, TUP and
INV. -/
def isDataByte (p : Params) (a : Nat) : Bool :=
  targetOf p (a / 4 * 4) == .ram || targetOf p (a / 4 * 4) == .rom

end Sys2Proof.Machine
end

