-- ==== Sys2Proof/Machine/Ops.lean ====
section
/-! DEFINITION. The shared operations over memory and registers: reading and storing bytes, little-endian fields
and coefficients (20_memory.md R61, R62); the elements of every memory; recording an error, acceptance and
completion (30_encoding.md R107, 60_exceptions.md R212); the resets (70_reset_and_hazards.md R230, R233). -/

namespace Sys2Proof.Machine
open Sys2Proof

/-! ### Memory -/

/-- The byte stored at an address, if something has written it since hard reset. -/
def Memory.read? : Memory → Nat → Option Byte
  | [], _ => none
  | (b, v) :: m, a => if b = a then some v else Memory.read? m a

/-- One byte stored; the addresses stay strictly rising. -/
def Memory.write : Memory → Nat → Byte → Memory
  | [], a, v => [(a, v)]
  | (b, w) :: m, a, v =>
    if a < b then (a, v) :: (b, w) :: m
    else if a = b then (a, v) :: m
    else (b, w) :: Memory.write m a v

/-- Bytes stored one after another: where two of them have one address, the later stays. -/
def Memory.writeAll : Memory → List Host.Cell → Memory
  | m, [] => m
  | m, (a, v) :: cs => Memory.writeAll (Memory.write m a v) cs

/-- The canonical form: addresses strictly rising. An unlisted address has no value (it reads as a free byte), so
no entry can repeat what an unlisted address reads as, and equal stores are equal lists. -/
def Memory.wf : Memory → Bool
  | [] => true
  | [_] => true
  | (a, _) :: (b, w) :: m => decide (a < b) && Memory.wf ((b, w) :: m)

/-- The byte the machine reads at an address: what was last written there, or the free value of the element while
nothing has written it since hard reset (R77, R232; U1). -/
def State.byte (s : State) (a : Nat) : Byte :=
  (s.mem.read? a).getD (Config.powerUpByte s.resets a)

/-- `MemRead(a, n)`: the n bytes at a, little-endian (R61). -/
def State.readLE (s : State) (a : Nat) : Nat → Nat
  | 0 => 0
  | n + 1 => (s.byte a).toNat + 256 * State.readLE s (a + 1) n

/-- The bytes that `MemWrite(a, n, v)` stores: the n low-order bytes of v, little-endian (R61). -/
def leCells (a : Nat) : Nat → Nat → List Host.Cell
  | 0, _ => []
  | n + 1, v => (a, BitVec.ofNat 8 v) :: leCells (a + 1) n (v / 256)

/-- The data memories with these bytes stored. -/
def State.store (s : State) (cs : List Host.Cell) : State := { s with mem := s.mem.writeAll cs }

/-- The 32-bit word at a (R61). -/
def State.word (s : State) (a : Nat) : Word := BitVec.ofNat 32 (s.readLE a 4)

/-- The u16 at a (R61). -/
def State.half (s : State) (a : Nat) : Half := BitVec.ofNat 16 (s.readLE a 2)

/-- The coefficient at a: B bytes (R62). -/
def State.coef (s : State) (a : Nat) : Coef := BitVec.ofNat 64 (s.readLE a (coefBytes s.params))

/-- The bytes of elements stored at `addr k`, `addr (k + 1)`, and so on, `n` bytes each. -/
def arrayCells (addr : Nat → Nat) (n k : Nat) : List Nat → List Host.Cell
  | [] => []
  | v :: vs => leCells (addr k) n v ++ arrayCells addr n (k + 1) vs

/-- The bytes of coefficients stored at `addr 0`, `addr 1`, and so on. -/
def coefCells (p : Params) (addr : Nat → Nat) (vs : List Coef) : List Host.Cell :=
  arrayCells addr (coefBytes p) 0 (vs.map (·.toNat))

/-! ### The elements of the memories -/

/-- `BLK_IN[i][c]` (10_state.md R40). -/
def State.blkIn (s : State) (c : Chan) (i : Nat) : Coef := s.coef (blkInAddr s.params c i)

/-- `BLK_OUT[i][c]` (R41). -/
def State.blkOut (s : State) (c : Chan) (i : Nat) : Coef := s.coef (blkOutAddr s.params c i)

/-- `SEQ[c][i]` (R42). -/
def State.seq (s : State) (c : Chan) (i : Nat) : Coef := s.coef (seqAddr s.params c i)

/-- `TUP[c][k].code` (R43). -/
def State.tupCode (s : State) (c : Chan) (k : Nat) : Half := s.half (tupAddr c k)

/-- `TUP[c][k].run` (R43). -/
def State.tupRun (s : State) (c : Chan) (k : Nat) : Half := s.half (tupAddr c k + 2)

/-- `INV[c][k]` (R43). -/
def State.inv (s : State) (c : Chan) (k : Nat) : Coef := s.coef (invAddr s.params c k)

/-- `DC[c]`, `TLEN[c]` and `NDIST[c]` (R43). -/
def State.head (s : State) (c : Chan) : EncHead := s.enc.get c

/-- The Encoded Channel head of `c` replaced. -/
def State.setHead (s : State) (c : Chan) (h : EncHead) : State := { s with enc := s.enc.set c h }

/-- `FWD(c, v)`: the code of a value, none where it is MISS (R44). -/
def State.fwd (s : State) (c : Chan) (v : Coef) : Option Nat :=
  (List.range (s.head c).ndist.toNat).find? fun k => s.inv c k == v

/-- The LEN of the running command, LATCH_LEN (R47). With no command latched it is CFG.LEN, what would be latched
now (DESIGN CHOICE, log entry 10: no step runs a meaning without a latched command). -/
def State.len (s : State) : Nat :=
  match s.latch with
  | some l => l.len.toNat
  | none => s.cfgLen.toNat

/-! ### Coefficients -/

/-- NEGZERO, the pattern with only the sign bit set (40_extract.md R120). -/
def negZero (p : Params) : Coef := if p.coef64 then 0x8000000000000000 else 0x80000000

/-- The negative-zero normalisation (R120). -/
def norm (p : Params) (v : Coef) : Coef := if v = negZero p then 0 else v

/-- The pattern of all COEF_W bits set. -/
def coefMask (p : Params) : Coef := if p.coef64 then 0xFFFFFFFFFFFFFFFF else 0xFFFFFFFF

/-- The order key of a pattern, an unsigned COEF_W-bit integer (41_freq_table.md R131). -/
def key (p : Params) (v : Coef) : Nat :=
  if v &&& negZero p = 0 then (v ^^^ negZero p).toNat else (~~~v &&& coefMask p).toNat

/-- `lo(v)` = v[31:0] (42_rle_encode.md). -/
def coefLo (v : Coef) : Word := v.extractLsb' 0 32

/-- `hi(v)` = v[63:32] when COEF_W = 64, and 0 when COEF_W = 32 (42_rle_encode.md). -/
def coefHi (p : Params) (v : Coef) : Word := if p.coef64 then v.extractLsb' 32 32 else 0

/-! ### Errors, acceptance, completion -/

/-- What `raise <Cause>(pos, lo, hi)` reports, with the channel it belongs to (00_scope.md R12, 60_exceptions.md
R212). -/
structure CmdError where
  cause : Cause
  ch : BitVec 2
  pos : Half
  lo : Word
  hi : Word
  deriving DecidableEq, Repr

/-- The cause codes of 60_exceptions.md R201. -/
def Cause.code : Cause → BitVec 8
  | .none => 0x00
  | .capacity => 0x01
  | .lookupMiss => 0x02
  | .lengthMismatch => 0x03
  | .badCmd => 0x04
  | .badChannel => 0x05
  | .badLen => 0x06
  | .slotRange => 0x07
  | .tableBadCode => 0x08
  | .tableDupValue => 0x09
  | .badRun => 0x0A

/-- The causes of failed data checks; the others are command-level (10_state.md R32, 60_exceptions.md R212). -/
def Cause.isData : Cause → Bool
  | .capacity => true
  | .lookupMiss => true
  | .lengthMismatch => true
  | .tableBadCode => true
  | .tableDupValue => true
  | .badRun => true
  | .none => false
  | .badCmd => false
  | .badChannel => false
  | .badLen => false
  | .slotRange => false

/-- What `Execute` gives: the state with the command's data updates, and its errors in check order (30_encoding.md
R107). -/
structure Execution where
  after : State
  errs : List CmdError
  deriving DecidableEq, Repr

/-- A command that raises: no data-state write (R107). -/
def raise (s : State) (e : CmdError) : Execution := { after := s, errs := [e] }

/-- A command whose checks pass: its data-state writes. -/
def commit (s : State) : Execution := { after := s, errs := [] }

/-- ERR_CH.CHMASK: the channels of the data-check errors (60_exceptions.md R212, R214). -/
def chMask : List CmdError → BitVec 3
  | [] => 0
  | e :: es => (if e.cause.isData then (1 : BitVec 3) <<< e.ch.toNat else 0) ||| chMask es

/-- IRQ_STATUS.DONE (10_state.md R37). -/
def irqDone : BitVec 4 := 1
/-- IRQ_STATUS.ERR (R37). -/
def irqErr : BitVec 4 := 2
/-- IRQ_STATUS.BERR (R37). -/
def irqBerr : BitVec 4 := 4
/-- IRQ_STATUS.OVR (R37). -/
def irqOvr : BitVec 4 := 8

/-- An event bit set; events are sticky (60_exceptions.md R217). -/
def State.setIrq (s : State) (b : BitVec 4) : State := { s with irqStatus := s.irqStatus ||| b }

/-- TAKING AN EXCEPTION: recording the errors of a failing command (60_exceptions.md R212), the first of them in the
error registers. `slot` is the SLOT field of the command word. This is the only trap entry RLEC has: no state is
pushed, no mode changes and no handler address exists. Its record lasts until the next acceptance or reset, and
there is no return from it (R219). -/
def recordErrors (slot : Half) (errs : List CmdError) (s : State) : State :=
  match errs with
  | [] => s
  | e :: _ =>
    { s with
      statusErr := true
      err := { cause := e.cause, slot := slot, ch := e.ch, mask := chMask errs, pos := e.pos, lo := e.lo, hi := e.hi }
      irqStatus := s.irqStatus ||| irqErr }

/-- Completion of the running command: its updates, its error record, DONE, and BUSY falls (30_encoding.md R107). -/
def complete (slot : Half) (x : Execution) : State :=
  { (recordErrors slot x.errs x.after).setIrq irqDone with latch := none }

/-- BAD_CMD(0, w, 0), with the command's CH field (30_encoding.md R108, 60_exceptions.md R212). -/
def badCmd (w : Word) : CmdError := { cause := .badCmd, ch := chField w, pos := 0, lo := w, hi := 0 }

/-- Acceptance of a command word (R107): LAST_CMD and the latch take it, STATUS.ERR and the error registers are
cleared, and BUSY rises. -/
def accept (w : Word) (s : State) : State :=
  { s with
    lastCmd := w
    latch := some { cmd := w, len := s.cfgLen }
    statusErr := false
    err := ErrRecord.clear }

/-- Soft reset: 10_state.md R49's "after soft reset" column (70_reset_and_hazards.md R233). -/
def softReset (s : State) : State :=
  { s with
    cfgLen := BitVec.ofNat 16 s.params.nMax
    latch := none
    statusErr := false
    err := ErrRecord.clear
    irqEn := 0
    irqStatus := 0
    lastCmd := 0
    enc := { y := EncHead.empty, cr := EncHead.empty, cb := EncHead.empty } }

/-- `rst_n` falls: the running command is abandoned and a held transaction is not performed (R230). -/
def resetFall (s : State) : State := { s with rstN := false, latch := none, held := none }

/-- `rst_n` rises: the state after hard reset (R230, R49), its memories with fresh unspecified contents (U1, U3). -/
def resetRise (s : State) : State := State.afterHardReset s.params (s.resets + 1) s.events

end Sys2Proof.Machine
end

