-- ==== Sys2Proof/Machine/Flags.lean ====
section
/-! DEFINITION. The flags and condition bits (10_state.md R48): STATUS.BUSY, STATUS.ERR, the four event bits of
IRQ_STATUS, the interrupt output, and SRST_PENDING. -/

namespace Sys2Proof.Machine
open Sys2Proof

/-- STATUS.BUSY: 1 from acceptance of a command to its completion (10_state.md R29). -/
def State.busy (s : State) : Bool := s.latch.isSome

/-- STATUS (R29): BUSY in bit 0, ERR in bit 1. -/
def State.status (s : State) : Word :=
  (0 : BitVec 30) ++ (BitVec.ofBool s.statusErr ++ BitVec.ofBool s.busy)

/-- `irq = (IRQ_EN[3:0] AND IRQ_STATUS[3:0]) != 0` (60_exceptions.md R218), and 0 while `rst_n` = 0
(70_reset_and_hazards.md R230). -/
def State.irq (s : State) : Bool := s.rstN && (s.irqEn &&& s.irqStatus) != 0

/-- A host write to IRQ_STATUS: writing 1 to a bit clears it, writing 0 leaves it (10_state.md R37). -/
def w1c (old : BitVec 4) (w : Word) : BitVec 4 := old &&& ~~~(w.extractLsb' 0 4)

end Sys2Proof.Machine
end

