-- ==== Sys2Proof/Machine/Csr.lean ====
section
/-! DEFINITION. Reading and writing the control and status registers (10_state.md R22 to R39). -/

namespace Sys2Proof.Machine
open Sys2Proof

/-- PARAM (10_state.md R24). -/
def paramWord (p : Params) : Word :=
  BitVec.ofNat 16 p.nSlot ++ ((0 : BitVec 3) ++ (BitVec.ofBool p.coef64 ++ ((0 : BitVec 1) ++ BitVec.ofNat 11 p.nMax)))

/-- ERR_CH (R32): CH in bits [1:0], CHMASK in bits [6:4]. -/
def errChWord (e : ErrRecord) : Word := (0 : BitVec 25) ++ (e.mask ++ ((0 : BitVec 2) ++ e.ch))

/-- The value a read of a register returns; no read has a side effect (R39). -/
def csrRead (r : Csr) (s : State) : Word :=
  match r with
  | .id => 0x524C4543
  | .version => 0x00070100
  | .param => paramWord s.params
  | .slotsz => BitVec.ofNat 32 (slotBytes s.params)
  | .ctrl => 0
  | .cfg => s.cfgLen.setWidth 32
  | .cmd => 0
  | .status => s.status
  | .errCause => s.err.cause.code.setWidth 32
  | .errSlot => s.err.slot.setWidth 32
  | .errCh => errChWord s.err
  | .errPos => s.err.pos.setWidth 32
  | .errDataLo => s.err.lo
  | .errDataHi => s.err.hi
  | .irqEn => s.irqEn.setWidth 32
  | .irqStatus => s.irqStatus.setWidth 32
  | .lastCmd => s.lastCmd

/-- SRST, bit 0 of a CTRL write (R26). -/
def srstBit (w : Word) : Bool := w.getLsbD 0

/-- A CTRL write: SRST = 1 requests a soft reset, 0 has no effect, the other bits are ignored (R26). -/
def writeCtrl (w : Word) (s : State) : State := if srstBit w then softReset s else s

/-- A CMD write: accepted while BUSY = 0, dropped with IRQ_STATUS.OVR while BUSY = 1 (10_state.md R28, 30_encoding.md
R107, 60_exceptions.md R216). -/
def writeCmd (w : Word) (s : State) : State := if s.busy then s.setIrq irqOvr else accept w s

/-- The effect of a write to a register; reserved bits are ignored. A write to an RO register has none (R39). -/
def csrWrite (r : Csr) (w : Word) (s : State) : State :=
  match r with
  | .ctrl => writeCtrl w s
  | .cfg => { s with cfgLen := w.extractLsb' 0 16 }
  | .cmd => writeCmd w s
  | .irqEn => { s with irqEn := w.extractLsb' 0 4 }
  | .irqStatus => { s with irqStatus := w1c s.irqStatus w }
  | .id => s
  | .version => s
  | .param => s
  | .slotsz => s
  | .status => s
  | .errCause => s
  | .errSlot => s
  | .errCh => s
  | .errPos => s
  | .errDataLo => s
  | .errDataHi => s
  | .lastCmd => s

/-- A head word of an Encoded Channel (20_memory.md R70). -/
def headRead (r : HeadReg) (c : Chan) (s : State) : Word :=
  match r with
  | .dcLo => coefLo (s.head c).dc
  | .dcHi => coefHi s.params (s.head c).dc
  | .tlen => (s.head c).tlen.setWidth 32
  | .ndist => (s.head c).ndist.setWidth 32

end Sys2Proof.Machine
end

