-- ==== Sys2Proof/Machine/Bus.lean ====
section
/-! DEFINITION. The slave port: performing a host transaction, bus errors, and holding (20_memory.md R60 to R65,
R75; 46_housekeeping.md R191). -/

namespace Sys2Proof.Machine
open Sys2Proof

/-- The byte address of a transaction. -/
def Txn.addr : Txn → Nat
  | .read a _ => a.toNat
  | .write a _ _ => a.toNat

/-- Its byte strobes. -/
def Txn.strobes : Txn → BitVec 4
  | .read _ b => b
  | .write _ _ b => b

/-- A misaligned address, or byte strobes not all set (20_memory.md R63). -/
def Txn.misformed (t : Txn) : Bool := decide (Txn.addr t % 4 ≠ 0) || Txn.strobes t != 0xF

/-- A completed transaction's answer. -/
def State.answer (s : State) (data : Word) : State := { s with resp := some { data := data, busError := false } }

/-- A bus error: a read returns 0, a write changes nothing, IRQ_STATUS.BERR is set, and the error response is given
(R63, 60_exceptions.md R215). -/
def busError (s : State) : State :=
  { s.setIrq irqBerr with resp := some { data := 0, busError := true } }

/-- `HostRead(a)` of a mapped target (R65: never a bus error); an unmapped one is a bus error (R64). -/
def hostRead (a : Nat) (s : State) : State :=
  match targetOf s.params a with
  | .csr r => s.answer (csrRead r s)
  | .ram => s.answer (s.word a)
  | .rom => s.answer (s.word a)
  | .head c r => s.answer (headRead r c s)
  | .unmapped => busError s

/-- `HostWrite(a, w)`: read-only and unmapped targets are bus errors (R64, R65). -/
def hostWrite (a : Nat) (w : Word) (s : State) : State :=
  match targetOf s.params a with
  | .csr r => if Csr.access r = .ro then busError s else (csrWrite r w s).answer 0
  | .ram => (s.store (leCells a 4 w.toNat)).answer 0
  | .rom => busError s
  | .head _ _ => busError s
  | .unmapped => busError s

/-- Performing a transaction (R60, R63). -/
def perform (t : Txn) (s : State) : State :=
  if Txn.misformed t then busError s
  else match t with
    | .read a _ => hostRead a.toNat s
    | .write a w _ => hostWrite a.toNat w s

/-- A CTRL write with SRST = 1 (R75). -/
def Txn.requestsSrst (t : Txn) : Bool :=
  match t with
  | .read _ _ => false
  | .write a w _ => !Txn.misformed t && decide (a.toNat = 0x010) && srstBit w

/-- An IRQ_STATUS write (10_state.md R37). -/
def Txn.writesIrqStatus (t : Txn) : Bool :=
  match t with
  | .read _ _ => false
  | .write a _ _ => !Txn.misformed t && decide (a.toNat = 0x03C)

/-- Whether a transaction waits while BUSY = 1: any read or write to a data window, and a CTRL write with SRST = 1
(20_memory.md R75). -/
def heldWhileBusy (p : Params) (t : Txn) : Bool :=
  (windowOf p (Txn.addr t)).isSome || Txn.requestsSrst t

/-- SRST_PENDING: a held CTRL write with SRST = 1 (10_state.md R47). -/
def State.srstPending (s : State) : Bool :=
  match s.held with
  | some t => Txn.requestsSrst t
  | none => false

end Sys2Proof.Machine
end

