-- ==== Sys2Proof/Machine/Operands.lean ====
section
/-! DEFINITION. The operand forms of the commands and their checks: the channel selector, the latched LEN, and the
transport slot (30_encoding.md R102, R103; 60_exceptions.md R206, R207, R208). Each check stands before what it
guards, in the priority order of R213. -/

namespace Sys2Proof.Machine
open Sys2Proof

/-- The channel operand: CH = 3 raises BAD_CHANNEL(0, ch, 0) (R102, R108, R206). -/
def withChannel (ch : BitVec 2) (s : State) (k : Chan → Execution) : Execution :=
  match Chan.ofField ch with
  | some c => k c
  | none => raise s { cause := .badChannel, ch := ch, pos := 0, lo := ch.setWidth 32, hi := 0 }

/-- The latched LEN: outside 1..N_MAX it raises BAD_LEN(0, LEN, N_MAX), with the command's CH field (R207, R212). -/
def withLen (ch : BitVec 2) (s : State) (k : Nat → Execution) : Execution :=
  if 1 ≤ s.len ∧ s.len ≤ s.params.nMax then k s.len
  else raise s
    { cause := .badLen, ch := ch, pos := 0, lo := BitVec.ofNat 32 s.len, hi := BitVec.ofNat 32 s.params.nMax }

/-- The slot operand: s ≥ NSLOT raises SLOT_RANGE(0, s, NSLOT), with the command's CH field (R103, R208, R212). -/
def withSlot (ch : BitVec 2) (slot : Half) (s : State) (k : Nat → Execution) : Execution :=
  if slot.toNat < s.params.nSlot then k slot.toNat
  else raise s
    { cause := .slotRange, ch := ch, pos := 0, lo := slot.setWidth 32, hi := BitVec.ofNat 32 s.params.nSlot }

/-- A data check that may raise, before a commit. -/
def withCheck (s : State) (e : Option CmdError) (t : State) : Execution :=
  match e with
  | some e => raise s e
  | none => commit t

end Sys2Proof.Machine
end

