-- ==== Sys2Proof/Machine/Extract.lean ====
section
/-! DEFINITION. The Channel Extractor (40_extract.md). -/

namespace Sys2Proof.Machine
open Sys2Proof

/-- The bytes EXTRACT stores: `SEQ[c][i] <- norm(BLK_IN[i][c])` for i < n (40_extract.md R121). -/
def extractCells (c : Chan) (n : Nat) (s : State) : List Host.Cell :=
  coefCells s.params (seqAddr s.params c) ((List.range n).map fun i => norm s.params (s.blkIn c i))

/-- The commit phase of EXTRACT c (R121). -/
def commitExtract (c : Chan) (n : Nat) (s : State) : State := s.store (extractCells c n s)

/-- EXTRACT (R121). -/
def execExtract (ch : BitVec 2) (tag : Half) (s : State) : Host.Outcome State Fault Refusal :=
  .next (complete tag (withChannel ch s fun c => withLen ch s fun n => commit (commitExtract c n s)))

end Sys2Proof.Machine
end

