-- ==== Sys2Proof/Machine/FreqTable.lean ====
section
/-! DEFINITION. The Frequency Table Builder and canonical code mapper (41_freq_table.md). -/

namespace Sys2Proof.Machine
open Sys2Proof

/-- AC(c): the sequence without its DC term (41_freq_table.md R130). -/
def State.acSeq (s : State) (c : Chan) (n : Nat) : List Coef :=
  (List.range (n - 1)).map fun i => s.seq c (i + 1)

/-- `before(c, u, v)`: the count descending, then the key ascending (R132), counted over the AC sequence `ac`. -/
def canonBefore (p : Params) (ac : List Coef) (u v : Coef) : Bool :=
  decide (ac.count v < ac.count u) || (ac.count u == ac.count v && decide (key p u < key p v))

/-- CanonOrder(c): the distinct values of the AC sequence, sorted by `before` (R132). -/
def canonOrder (p : Params) (ac : List Coef) : List Coef :=
  ac.dedup.insertionSort fun u v => canonBefore p ac v u = false

/-- The bytes BUILD_TABLE stores: `INV[c][k] <- L[k]` (R133). -/
def tableCells (c : Chan) (n : Nat) (s : State) : List Host.Cell :=
  coefCells s.params (invAddr s.params c) (canonOrder s.params (s.acSeq c n))

/-- The commit phase of BUILD_TABLE c (R133). -/
def commitBuildTable (c : Chan) (n : Nat) (s : State) : State :=
  (s.store (tableCells c n s)).setHead c
    { s.head c with ndist := BitVec.ofNat 16 (canonOrder s.params (s.acSeq c n)).length }

/-- BUILD_TABLE (R133). -/
def execBuildTable (ch : BitVec 2) (tag : Half) (s : State) : Host.Outcome State Fault Refusal :=
  .next (complete tag (withChannel ch s fun c => withLen ch s fun n => commit (commitBuildTable c n s)))

end Sys2Proof.Machine
end

