-- ==== Sys2Proof/Machine/RunLength.lean ====
section
/-! DEFINITION. The Run-Length Encoder (42_rle_encode.md) and the Run-Length Decoder (43_rle_decode.md). -/

namespace Sys2Proof.Machine
open Sys2Proof

/-- The run decomposition Runs(S) of a coefficient list (42_rle_encode.md R140). -/
def runs : List Coef → List (Coef × Nat)
  | [] => []
  | v :: vs =>
    match runs vs with
    | [] => [(v, 1)]
    | (u, r) :: rest => if v = u then (u, r + 1) :: rest else (v, 1) :: (u, r) :: rest

/-- The bytes of the tuples (code, run) stored at TUP[c][k], TUP[c][k + 1], and so on (20_memory.md R70). -/
def tupleCells (c : Chan) (k : Nat) : List (Nat × Nat) → List Host.Cell
  | [] => []
  | (code, run) :: ts =>
    leCells (tupAddr c k) 2 code ++ (leCells (tupAddr c k + 2) 2 run ++ tupleCells c (k + 1) ts)

/-- The check phase of RLE_ENCODE c: the least i in 1..<n whose value has no code raises
LOOKUP_MISS(i, lo(value), hi(value)) (R141, 60_exceptions.md R203). -/
def encodeCheck (c : Chan) (n : Nat) (s : State) : Option CmdError :=
  match (List.range' 1 (n - 1)).find? fun i => (s.fwd c (s.seq c i)).isNone with
  | some i =>
    some
      { cause := .lookupMiss
        ch := Chan.field c
        pos := BitVec.ofNat 16 i
        lo := coefLo (s.seq c i)
        hi := coefHi s.params (s.seq c i) }
  | none => none

/-- The tuples of RLE_ENCODE c: (FWD(c, v), r) for each run (v, r) of the AC sequence (R141). The check phase has
found a code for each value. -/
def encodeTuples (c : Chan) (n : Nat) (s : State) : List (Nat × Nat) :=
  (runs (s.acSeq c n)).map fun vr => ((s.fwd c vr.1).getD 0, vr.2)

/-- The commit phase of RLE_ENCODE c (R141). -/
def commitEncode (c : Chan) (n : Nat) (s : State) : State :=
  (s.store (tupleCells c 0 (encodeTuples c n s))).setHead c
    { s.head c with dc := s.seq c 0, tlen := BitVec.ofNat 16 (encodeTuples c n s).length }

/-- RLE_ENCODE (R141). -/
def execRleEncode (ch : BitVec 2) (tag : Half) (s : State) : Host.Outcome State Fault Refusal :=
  .next (complete tag (withChannel ch s fun c => withLen ch s fun n =>
    withCheck s (encodeCheck c n s) (commitEncode c n s)))

/-- The exact sum of the runs of channel c's tuples (43_rle_decode.md R150). -/
def totalRun (c : Chan) (s : State) : Nat :=
  ((List.range (s.head c).tlen.toNat).map fun k => (s.tupRun c k).toNat).sum

/-- The check phase of RLE_DECODE c (43_rle_decode.md R150): the least tuple whose code is ≥ NDIST[c] raises
LOOKUP_MISS(k, code, NDIST[c]); then a sum of runs other than n - 1 raises LENGTH_MISMATCH(TLEN[c], sum, n - 1). -/
def decodeCheck (c : Chan) (n : Nat) (s : State) : Option CmdError :=
  match (List.range (s.head c).tlen.toNat).find? fun k => decide ((s.head c).ndist.toNat ≤ (s.tupCode c k).toNat) with
  | some k =>
    some
      { cause := .lookupMiss
        ch := Chan.field c
        pos := BitVec.ofNat 16 k
        lo := (s.tupCode c k).setWidth 32
        hi := (s.head c).ndist.setWidth 32 }
  | none =>
    if totalRun c s = n - 1 then none
    else some
      { cause := .lengthMismatch
        ch := Chan.field c
        pos := (s.head c).tlen
        lo := BitVec.ofNat 32 (totalRun c s)
        hi := BitVec.ofNat 32 (n - 1) }

/-- The decoded lane: `[DC[c]]`, then for each tuple its run of copies of `INV[c][code]` (43_rle_decode.md R151). -/
def decodedLane (c : Chan) (s : State) : List Coef :=
  (s.head c).dc ::
    (List.range (s.head c).tlen.toNat).flatMap fun k =>
      List.replicate (s.tupRun c k).toNat (s.inv c (s.tupCode c k).toNat)

/-- The bytes RLE_DECODE stores: lane c of BLK_OUT from pixel 0 on (43_rle_decode.md R150). -/
def decodeCells (c : Chan) (s : State) : List Host.Cell :=
  coefCells s.params (blkOutAddr s.params c) (decodedLane c s)

/-- The commit phase of RLE_DECODE c (43_rle_decode.md R150). -/
def commitDecode (c : Chan) (s : State) : State := s.store (decodeCells c s)

/-- RLE_DECODE (43_rle_decode.md R150). -/
def execRleDecode (ch : BitVec 2) (tag : Half) (s : State) : Host.Outcome State Fault Refusal :=
  .next (complete tag (withChannel ch s fun c => withLen ch s fun n =>
    withCheck s (decodeCheck c n s) (commitDecode c s)))

end Sys2Proof.Machine
end

