-- ==== Sys2Proof/Machine/BlockCodec.lean ====
section
/-! DEFINITION. The Block Codec (44_block_codec.md): ENCODE_BLOCK and DECODE_BLOCK. -/

namespace Sys2Proof.Machine
open Sys2Proof

/-- The commit phases of EXTRACT, BUILD_TABLE and RLE_ENCODE of one channel; each reads what its predecessor wrote
(44_block_codec.md R160). -/
def encodeChannel (c : Chan) (n : Nat) (s : State) : State :=
  commitEncode c n (commitBuildTable c n (commitExtract c n s))

/-- The commit phase of ENCODE_BLOCK: the channels in ascending order (R160). -/
def commitEncodeBlock (n : Nat) (s : State) : State :=
  encodeChannel .cb n (encodeChannel .cr n (encodeChannel .y n s))

/-- ENCODE_BLOCK (R160). -/
def execEncodeBlock (tag : Half) (s : State) : Host.Outcome State Fault Refusal :=
  .next (complete tag (withLen 0 s fun n => commit (commitEncodeBlock n s)))

/-- One channel of DECODE_BLOCK: checked and committed on its own (R161). -/
def decodeChannel (c : Chan) (n : Nat) (x : Execution) : Execution :=
  match decodeCheck c n x.after with
  | some e => { x with errs := x.errs ++ [e] }
  | none => { x with after := commitDecode c x.after }

/-- DECODE_BLOCK's channels in ascending order; a failing channel does not stop the others (R161). -/
def decodeChannels (n : Nat) (s : State) : Execution :=
  decodeChannel .cb n (decodeChannel .cr n (decodeChannel .y n (commit s)))

/-- DECODE_BLOCK (R161). -/
def execDecodeBlock (tag : Half) (s : State) : Host.Outcome State Fault Refusal :=
  .next (complete tag (withLen 0 s fun n => decodeChannels n s))

end Sys2Proof.Machine
end

