-- ==== Sys2Proof/Machine/Housekeeping.lean ====
section
/-! DEFINITION. NOP (46_housekeeping.md R190). -/

namespace Sys2Proof.Machine
open Sys2Proof

/-- NOP: acceptance and completion, no data state; it does not use LEN (R190). -/
def execNop (tag : Half) (s : State) : Host.Outcome State Fault Refusal :=
  .next (complete tag (commit s))

end Sys2Proof.Machine
end

