-- ==== Sys2Proof/Machine/Marshaller.lean ====
section
/-! DEFINITION. The Buffer Marshaller (45_marshaller.md): PACK and UNPACK, over the slot layout of 20_memory.md R71
to R74. -/

namespace Sys2Proof.Machine
open Sys2Proof

/-- CAPACITY(pos, used, CAP) of channel c: pos 0 is the tuple array, 1 the table arrays (60_exceptions.md R201). -/
def capacityError (p : Params) (c : Chan) (pos used : Half) : CmdError :=
  { cause := .capacity, ch := Chan.field c, pos := pos, lo := used.setWidth 32, hi := BitVec.ofNat 32 (cap p) }

/-- The capacity checks of a used tuple length and a used table length (45_marshaller.md R170, R172). -/
def capacityCheck (p : Params) (c : Chan) (tl n : Half) : Option CmdError :=
  if cap p < tl.toNat then some (capacityError p c 0 tl)
  else if cap p < n.toNat then some (capacityError p c 1 n)
  else none

/-- `n` zero bytes from address `a` on. -/
def zeroCells (a : Nat) : Nat → List Host.Cell
  | 0 => []
  | n + 1 => (a, 0) :: zeroCells (a + 1) n

/-- The DC section PACK writes: the three DC values, and its padding 0 (45_marshaller.md R170). -/
def packDcCells (slot : Nat) (s : State) : List Host.Cell :=
  zeroCells (trAddr s.params slot 0) (dcBytes s.params) ++
    (Chan.all.flatMap fun d => leCells (trDcAddr s.params slot d) (coefBytes s.params) (s.head d).dc.toNat)

/-- The used fields of the channel section PACK writes (R170). -/
def packFieldCells (slot : Nat) (c : Chan) (s : State) : List Host.Cell :=
  leCells (secAddr s.params slot c 0) 2 (s.head c).tlen.toNat ++
  (leCells (secAddr s.params slot c 2) 2 (s.head c).ndist.toNat ++
  (((List.range (s.head c).tlen.toNat).flatMap fun k =>
      leCells (secAddr s.params slot c (4 + 4 * k)) 2 (s.tupCode c k).toNat ++
      leCells (secAddr s.params slot c (6 + 4 * k)) 2 (s.tupRun c k).toNat) ++
   ((List.range (s.head c).ndist.toNat).flatMap fun k =>
      leCells (secAddr s.params slot c (tcOff s.params + 2 * k)) 2 k ++
      leCells (secAddr s.params slot c (tvOff s.params + coefBytes s.params * k)) (coefBytes s.params)
        (s.inv c k).toNat)))

/-- The bytes PACK stores: the DC section, and every byte of the channel section, 0 where no field is (R170). -/
def packCells (slot : Nat) (c : Chan) (s : State) : List Host.Cell :=
  packDcCells slot s ++ (zeroCells (secAddr s.params slot c 0) (chBytes s.params) ++ packFieldCells slot c s)

/-- The commit phase of PACK (R170). -/
def commitPack (slot : Nat) (c : Chan) (s : State) : State := s.store (packCells slot c s)

/-- PACK (R170). It does not use LEN. -/
def execPack (slot : Half) (ch : BitVec 2) (s : State) : Host.Outcome State Fault Refusal :=
  .next (complete slot (withChannel ch s fun c => withSlot ch slot s fun n =>
    withCheck s (capacityCheck s.params c (s.head c).tlen (s.head c).ndist) (commitPack n c s)))

/-- TUP_LEN of a channel section (20_memory.md R73). -/
def State.trTupLen (s : State) (slot : Nat) (c : Chan) : Half := s.half (secAddr s.params slot c 0)
/-- TAB_LEN (R73). -/
def State.trTabLen (s : State) (slot : Nat) (c : Chan) : Half := s.half (secAddr s.params slot c 2)
/-- T_CODE[k] (R73). -/
def State.trTupCode (s : State) (slot : Nat) (c : Chan) (k : Nat) : Half := s.half (secAddr s.params slot c (4 + 4 * k))
/-- T_RUN[k] (R73). -/
def State.trTupRun (s : State) (slot : Nat) (c : Chan) (k : Nat) : Half := s.half (secAddr s.params slot c (6 + 4 * k))
/-- TB_CODE[k] (R73). -/
def State.trTabCode (s : State) (slot : Nat) (c : Chan) (k : Nat) : Half :=
  s.half (secAddr s.params slot c (tcOff s.params + 2 * k))
/-- TB_VAL[k] (R73). -/
def State.trTabVal (s : State) (slot : Nat) (c : Chan) (k : Nat) : Coef :=
  s.coef (secAddr s.params slot c (tvOff s.params + coefBytes s.params * k))
/-- The DC value of channel c (R72). -/
def State.trDc (s : State) (slot : Nat) (c : Chan) : Coef := s.coef (trDcAddr s.params slot c)

/-- The check of table entry k (45_marshaller.md R172): its code is in range and new, and its value is new. -/
def tableEntryCheck (slot : Nat) (c : Chan) (s : State) (k : Nat) : Option CmdError :=
  let code := s.trTabCode slot c k
  let val := s.trTabVal slot c k
  if decide ((s.trTabLen slot c).toNat ≤ code.toNat) || (List.range k).any (fun j => s.trTabCode slot c j == code) then
    some
      { cause := .tableBadCode
        ch := Chan.field c
        pos := BitVec.ofNat 16 k
        lo := code.setWidth 32
        hi := (s.trTabLen slot c).setWidth 32 }
  else if (List.range k).any (fun j => s.trTabVal slot c j == val) then
    some
      { cause := .tableDupValue
        ch := Chan.field c
        pos := BitVec.ofNat 16 k
        lo := coefLo val
        hi := coefHi s.params val }
  else none

/-- The check of tuple k: its run is not 0 (R173). -/
def tupleRunCheck (slot : Nat) (c : Chan) (s : State) (k : Nat) : Option CmdError :=
  if s.trTupRun slot c k = 0 then
    some
      { cause := .badRun
        ch := Chan.field c
        pos := BitVec.ofNat 16 k
        lo := (s.trTupCode slot c k).setWidth 32
        hi := 0 }
  else none

/-- Validate(s, c): the first failure of channel c of a slot, part 1 (R172) and then part 2 (R173). -/
def validate (slot : Nat) (c : Chan) (s : State) : Option CmdError :=
  ((capacityCheck s.params c (s.trTupLen slot c) (s.trTabLen slot c)).or
    ((List.range (s.trTabLen slot c).toNat).findSome? (tableEntryCheck slot c s))).or
    ((List.range (s.trTupLen slot c).toNat).findSome? (tupleRunCheck slot c s))

/-- The failures of a slot's channels, in ascending order: at most one per channel (R171, 60_exceptions.md R214). -/
def validateAll (slot : Nat) (s : State) : List CmdError :=
  Chan.all.filterMap fun c => validate slot c s

/-- The bytes UNPACK stores for channel c: the used tuples, and INV placed by code (R171). -/
def unpackCells (slot : Nat) (c : Chan) (s : State) : List Host.Cell :=
  ((List.range (s.trTupLen slot c).toNat).flatMap fun k =>
    leCells (tupAddr c k) 2 (s.trTupCode slot c k).toNat ++
    leCells (tupAddr c k + 2) 2 (s.trTupRun slot c k).toNat) ++
  ((List.range (s.trTabLen slot c).toNat).flatMap fun k =>
    leCells (invAddr s.params c (s.trTabCode slot c k).toNat) (coefBytes s.params) (s.trTabVal slot c k).toNat)

/-- The commit phase of UNPACK for channel c (R171). -/
def unpackChannel (slot : Nat) (c : Chan) (s : State) : State :=
  (s.store (unpackCells slot c s)).setHead c
    { dc := s.trDc slot c, tlen := s.trTupLen slot c, ndist := s.trTabLen slot c }

/-- The commit phase of UNPACK: the channels in ascending order (R171). -/
def commitUnpack (slot : Nat) (s : State) : State :=
  unpackChannel slot .cb (unpackChannel slot .cr (unpackChannel slot .y s))

/-- UNPACK's check and commit: every channel or none (R171). -/
def unpackSlot (slot : Nat) (s : State) : Execution :=
  let errs := validateAll slot s
  { after := if errs = [] then commitUnpack slot s else s, errs := errs }

/-- UNPACK (R171). It does not use LEN. -/
def execUnpack (slot : Half) (s : State) : Host.Outcome State Fault Refusal :=
  .next (complete slot (withSlot 0 slot s fun n => unpackSlot n s))

end Sys2Proof.Machine
end

