-- ==== Sys2Proof/Machine/Dispatch.lean ====
section
/-! DEFINITION. The engine's turn for a decoded command: one arm per command, each one call of its meaning. -/

namespace Sys2Proof.Machine
open Sys2Proof

-- Execute, record and complete (30_encoding.md R107), for each operation of R101.
def exec (i : Instr) (s : State) : Host.Outcome State Fault Refusal :=
  match i with
  | .nop tag => Sys2Proof.Machine.execNop tag s
  | .extract ch tag => Sys2Proof.Machine.execExtract ch tag s
  | .buildTable ch tag => Sys2Proof.Machine.execBuildTable ch tag s
  | .rleEncode ch tag => Sys2Proof.Machine.execRleEncode ch tag s
  | .rleDecode ch tag => Sys2Proof.Machine.execRleDecode ch tag s
  | .encodeBlock tag => Sys2Proof.Machine.execEncodeBlock tag s
  | .decodeBlock tag => Sys2Proof.Machine.execDecodeBlock tag s
  | .pack slot ch => Sys2Proof.Machine.execPack slot ch s
  | .unpack slot => Sys2Proof.Machine.execUnpack slot s

end Sys2Proof.Machine
end

