-- ==== Sys2Proof/Machine/Turn.lean ====
section
/-! DEFINITION. The turns of the two agents and of the reset pin, which `step` chooses among. -/

namespace Sys2Proof.Machine
open Sys2Proof

/-- The engine's turn on a latched word: the decoded command is executed, and a word that spells no operation
completes with BAD_CMD (30_encoding.md R107, R108). -/
def runWord (w : Word) (s : State) : Host.Outcome State Fault Refusal :=
  match decode w with
  | .ok i => exec i s
  | .error _ => .next (complete (slotField w) (raise s (badCmd w)))

/-- The engine's turn: it runs the latched command, and an idle engine does nothing (R107). -/
def engineTurn (s : State) : Host.Outcome State Fault Refusal :=
  match s.latch with
  | some l => runWord l.cmd s
  | none => .next s

/-- The port receives a transaction: it is held, or performed (20_memory.md R60, R75). -/
def hostTurn (t : Txn) (s : State) : State :=
  if s.busy && heldWhileBusy s.params t then { s with held := some t } else perform t s

/-- A transaction and the completion in one clock cycle: their order is the input's, but a hardware set of an event
bit wins over a W1C clear, so an IRQ_STATUS write comes first (60_exceptions.md R217, 10_state.md R37). -/
def hostComesFirst (t : Txn) (hostFirst : Bool) : Bool := hostFirst || Txn.writesIrqStatus t

/-- One turn with `rst_n` high and no transaction held: the oldest input is taken; with none left a running command
completes (70_reset_and_hazards.md R247). -/
def takeEvent (s : State) : Host.Outcome State Fault Refusal :=
  match s.events with
  | [] => engineTurn s
  | .engine :: es => engineTurn { s with events := es }
  | .host t :: es => .next (hostTurn t { s with events := es })
  | .sameCycle t first :: es =>
    if hostComesFirst t first then .next (hostTurn t { s with events := .engine :: es })
    else engineTurn { s with events := .host t :: es }
  | .rstFall :: es => .next (resetFall { s with events := es })
  | .rstRise :: es => .next { s with events := es }

/-- One turn with a transaction held: `rst_n` may fall; else the running command completes, and once the engine is
idle the transaction is performed. Everything behind it waits (20_memory.md R75). -/
def heldTurn (t : Txn) (s : State) : Host.Outcome State Fault Refusal :=
  match s.events with
  | .rstFall :: es => .next (resetFall { s with events := es })
  | _ => if s.busy then engineTurn s else .next (perform t { s with held := none })

/-- One turn with `rst_n` low: no host transaction and no engine step is performed (70_reset_and_hazards.md R230). What
the port is offered in that time is lost. -/
def resetTurn (s : State) : State :=
  match s.events with
  | .rstRise :: es => resetRise { s with events := es }
  | _ :: es => { s with events := es }
  | [] => s

/-- One turn of the instance. -/
def turn (s : State) : Host.Outcome State Fault Refusal :=
  if s.rstN then
    match s.held with
    | some t => heldTurn t s
    | none => takeEvent s
  else .next (resetTurn s)

/-- New input from the host, after what is already waiting. -/
def State.arrive (s : State) (es : List Event) : State := { s with events := s.events ++ es }

end Sys2Proof.Machine
end

