-- ==== Sys2Proof/Machine/Step.lean ====
section
/-! DEFINITION. One step of the machine, and where its next command comes from. -/

namespace Sys2Proof.Machine
open Sys2Proof

/-- One step: a turn of the engine, the host or the reset pin. A build outside the spec's ranges is no RLEC. -/
def step (s : State) : Host.Outcome State Fault Refusal :=
  if legalBuild s.params then turn s else .fault .illegalBuild

/-- The state in which the word is the accepted command and the engine has the next turn. RLEC fetches nothing
(20_memory.md R81): a command word takes effect only through a CMD write, whose acceptance this is (R107). -/
def State.withFetchWord (s : State) (nbits w : Nat) : State :=
  { accept (tableWord nbits w) s with rstN := true, events := .engine :: s.events }

end Sys2Proof.Machine
end

