-- ==== Sys2Proof/Machine/Listing.lean ====
section
/-! DEFINITION. The host's side of a listing: the assembler text of a command (30_encoding.md R109), and the
pseudo-operations of R110 as inputs of the machine. -/

namespace Sys2Proof.Machine
open Sys2Proof

/-- The channel operand's text; `CH3` spells the invalid selector (30_encoding.md R109). -/
def channelText (ch : BitVec 2) : String :=
  match ch.toNat with
  | 0 => "Y"
  | 1 => "CR"
  | 2 => "CB"
  | _ => "CH3"

/-- The tag's text, left out where the tag is 0 (R109). -/
def tagText (before : String) (tag : Half) : String :=
  if tag = 0 then "" else before ++ "#" ++ toString tag.toNat

/-- The assembler text of a command (R109). -/
def asmText : Instr → String
  | .nop tag => "NOP" ++ tagText " " tag
  | .extract ch tag => "EXTRACT " ++ channelText ch ++ tagText ", " tag
  | .buildTable ch tag => "BUILD_TABLE " ++ channelText ch ++ tagText ", " tag
  | .rleEncode ch tag => "RLE_ENCODE " ++ channelText ch ++ tagText ", " tag
  | .rleDecode ch tag => "RLE_DECODE " ++ channelText ch ++ tagText ", " tag
  | .encodeBlock tag => "ENCODE_BLOCK" ++ tagText " " tag
  | .decodeBlock tag => "DECODE_BLOCK" ++ tagText " " tag
  | .pack slot ch => "PACK " ++ toString slot.toNat ++ ", " ++ channelText ch
  | .unpack slot => "UNPACK " ++ toString slot.toNat

/-- `WR a, w` (R109). -/
def wr (a : Nat) (w : Word) : Event := .host (.write (BitVec.ofNat 21 a) w 0xF)

/-- `RD a` (R109). -/
def rd (a : Nat) : Event := .host (.read (BitVec.ofNat 21 a) 0xF)

/-- `CMD <command>`: `WR 0x018, <word of command>` (R109). -/
def cmd (i : Instr) : Event := wr 0x018 (encode i)

/-- `WAIT`: `RD 0x01C` until BUSY reads 0 (R110); the first `polls` reads find BUSY = 1 (latency is unspecified, R247). -/
def wait (polls : Nat) : List Event := List.replicate polls (rd 0x01C) ++ [.engine, rd 0x01C]

/-- A command and its WAIT. -/
def cmdWait (i : Instr) : List Event := cmd i :: wait 0

/-- `SETLEN n` (R110). -/
def setLen (n : Word) : Event := wr 0x014 n

/-- `CLRIRQ m` (R110). -/
def clrIrq (m : Word) : Event := wr 0x03C m

/-- `ENCODE_CHANNEL ch [, #t]` (R110). -/
def encodeChannelOps (ch : BitVec 2) (tag : Half) : List Event :=
  cmdWait (.extract ch tag) ++ cmdWait (.buildTable ch tag) ++ cmdWait (.rleEncode ch tag)

/-- `PACK_BLOCK s` (R110). -/
def packBlockOps (slot : Half) : List Event :=
  cmdWait (.pack slot 0) ++ cmdWait (.pack slot 1) ++ cmdWait (.pack slot 2)

/-- Reading the first `words` words of BLK_OUT. -/
def readBlkOut (words : Nat) : List Event := (List.range words).map fun i => rd (0x020000 + 4 * i)

/-- `UNPACK_N s0, n` (R110), reading `words` words of BLK_OUT after each slot. -/
def unpackOps (s0 : Half) (words : Nat) : Nat → List Event
  | 0 => []
  | n + 1 =>
    cmdWait (.unpack s0) ++ cmdWait (.decodeBlock s0) ++ readBlkOut words ++ unpackOps (s0 + 1) words n

end Sys2Proof.Machine
end

