-- ==== Sys2Proof/Safety.lean ====
section
/-! DEFINITION. What counts as a safe run, in the terms the statements use: the invariants of the state
(10_state.md R45 and the reset and lifecycle rules), what a completion leaves unchanged, and the state of a command
that the host has just had accepted. -/

namespace Sys2Proof.Machine
open Sys2Proof

/-! ### Invariants -/

/-- The memory has its canonical form, and lists bytes of the data memories only. -/
def memoryOk (s : State) : Prop :=
  Memory.wf s.mem = true ∧ ∀ cell ∈ s.mem, isDataByte s.params cell.1 = true

/-- I1: NDIST[c] ≤ CAP and TLEN[c] ≤ CAP (10_state.md R45). -/
def lengthsWithinCap (s : State) : Prop :=
  ∀ c, (s.head c).ndist.toNat ≤ cap s.params ∧ (s.head c).tlen.toNat ≤ cap s.params

/-- I2: the values INV[c][0..<NDIST[c]] are pairwise different bit patterns (R45). -/
def tableDistinct (s : State) : Prop :=
  ∀ c j k, j < k → k < (s.head c).ndist.toNat → s.inv c j ≠ s.inv c k

/-- I3: TUP[c][k].run ≥ 1 for every k < TLEN[c] (R45). -/
def runsPositive (s : State) : Prop :=
  ∀ c k, k < (s.head c).tlen.toNat → s.tupRun c k ≠ 0

/-- DC[c] is a COEF_W-bit pattern (00_scope.md R11). -/
def dcInWidth (s : State) : Prop := ∀ c, (s.head c).dc.toNat < 2 ^ coefW s.params

/-- LATCH_CMD equals LAST_CMD (10_state.md R47). -/
def latchIsLastCmd (s : State) : Prop := ∀ l, s.latch = some l → l.cmd = s.lastCmd

/-- STATUS.ERR is 1 exactly when an error is recorded, all error registers are 0 when none is, and none is while a
command runs (10_state.md R29 to R35). -/
def errorRecordOk (s : State) : Prop :=
  (s.statusErr = false ↔ s.err = ErrRecord.clear) ∧ (s.err.cause = .none → s.err = ErrRecord.clear) ∧
    (s.busy = true → s.err = ErrRecord.clear)

/-- A held transaction is one that R75 holds. -/
def heldIsHoldable (s : State) : Prop := ∀ t, s.held = some t → heldWhileBusy s.params t = true

/-- While `rst_n` is low no command runs and no transaction is held (70_reset_and_hazards.md R230). -/
def idleInReset (s : State) : Prop := s.rstN = false → s.latch = none ∧ s.held = none

/-- The control part of the invariant. -/
def controlOk (s : State) : Prop := latchIsLastCmd s ∧ errorRecordOk s ∧ heldIsHoldable s ∧ idleInReset s

/-- The Encoded Block's invariants I1, I2 and I3 (10_state.md R45), with the memory's form and DC's width. -/
def encodedOk (s : State) : Prop :=
  memoryOk s ∧ lengthsWithinCap s ∧ tableDistinct s ∧ runsPositive s ∧ dcInWidth s

/-! ### Frames -/

/-- What no command's meaning touches: everything but the data state, the latch, the error record and the event
bits (30_encoding.md R111). -/
def sameControl (s t : State) : Prop :=
  t.params = s.params ∧ t.rstN = s.rstN ∧ t.cfgLen = s.cfgLen ∧ t.irqEn = s.irqEn ∧ t.lastCmd = s.lastCmd ∧
    t.held = s.held ∧ t.resp = s.resp ∧ t.events = s.events ∧ t.resets = s.resets

/-- Completion without error: BUSY falls, DONE is set, the error record stays as acceptance left it (R107). -/
def completedOk (s t : State) : Prop :=
  sameControl s t ∧ t.latch = none ∧ t.irqStatus = s.irqStatus ||| irqDone ∧ t.statusErr = s.statusErr ∧ t.err = s.err

/-- Completion with an error: BUSY falls, DONE and ERR are set, and the error registers hold `r` (R107, 60_exceptions.md
R212). -/
def completedErr (s t : State) (r : ErrRecord) : Prop :=
  sameControl s t ∧ t.latch = none ∧ t.irqStatus = s.irqStatus ||| irqErr ||| irqDone ∧ t.statusErr = true ∧ t.err = r

/-- No data state changes: every byte reads as before, and so do DC, TLEN and NDIST. -/
def sameData (s t : State) : Prop := (∀ a, t.byte a = s.byte a) ∧ t.enc = s.enc

/-- Every byte outside the `n` bytes from `a0` on reads as before. -/
def sameBytesOutside (s t : State) (a0 n : Nat) : Prop := ∀ a, ¬(a0 ≤ a ∧ a < a0 + n) → t.byte a = s.byte a

/-- Every Encoded Channel head but channel `c`'s is as before. -/
def sameHeadsBut (c : Chan) (s t : State) : Prop := ∀ d, d ≠ c → t.head d = s.head d

/-- The record of a command-level error: no channel in CHMASK (60_exceptions.md R212). -/
def commandRecord (cause : Cause) (slot : Half) (ch : BitVec 2) (lo hi : Word) : ErrRecord :=
  { cause := cause, slot := slot, ch := ch, mask := 0, pos := 0, lo := lo, hi := hi }

/-- The record of a data error of one channel: that channel alone in CHMASK (R212). -/
def dataRecord (cause : Cause) (slot : Half) (c : Chan) (pos : Half) (lo hi : Word) : ErrRecord :=
  { cause := cause, slot := slot, ch := Chan.field c, mask := 1 <<< Chan.idx c, pos := pos, lo := lo, hi := hi }

/-- Whether an address belongs to lane `c` of the first `n` pixels of BLK_OUT. -/
def inLane (p : Params) (c : Chan) (n a : Nat) : Prop :=
  ∃ i, i < n ∧ blkOutAddr p c i ≤ a ∧ a < blkOutAddr p c i + coefBytes p

/-- A command runs with LEN = n, in 1..N_MAX, on a legal build (10_state.md R47, 60_exceptions.md R207). -/
def runningWithLen (s : State) (n : Nat) : Prop :=
  legalBuild s.params = true ∧ (∃ l, s.latch = some l ∧ l.len.toNat = n) ∧ 1 ≤ n ∧ n ≤ s.params.nMax

/-- A command runs, whatever LEN is, on a legal build. -/
def running (s : State) : Prop := legalBuild s.params = true ∧ ∃ l, s.latch = some l

/-- CHMASK of the channels that failed: bit c is channel c (60_exceptions.md R214). -/
def failMask (fails : Chan → Bool) : BitVec 3 :=
  BitVec.ofBool (fails .cb) ++ (BitVec.ofBool (fails .cr) ++ BitVec.ofBool (fails .y))

/-- The record of a command that checks every channel: `c` is its lowest failing channel and `e` that channel's first
failure (R214). -/
def lowestRecord (slot : Half) (fails : Chan → Bool) (c : Chan) (e : CmdError) : ErrRecord :=
  { cause := e.cause, slot := slot, ch := Chan.field c, mask := failMask fails, pos := e.pos, lo := e.lo, hi := e.hi }

/-- The port is offered the transaction `t`, with nothing held and `rst_n` high; `es` is the input behind it. -/
def offered (s : State) (t : Txn) (es : List Event) : Prop :=
  legalBuild s.params = true ∧ s.rstN = true ∧ s.held = none ∧ s.events = .host t :: es

/-- The oldest input is not a fall of `rst_n`. -/
def noReset (es : List Event) : Prop := ∀ es', es ≠ .rstFall :: es'

/-- The tuples and the table of channel c are decodable with LEN = n: every code is in the table, and the runs sum to
n - 1 (43_rle_decode.md R150). -/
def decodable (c : Chan) (n : Nat) (s : State) : Prop :=
  (∀ k, k < (s.head c).tlen.toNat → (s.tupCode c k).toNat < (s.head c).ndist.toNat) ∧ totalRun c s = n - 1

/-- Every AC value of SEQ[c][1..<n] has a code in the table of channel c (42_rle_encode.md R141). -/
def encodable (c : Chan) (n : Nat) (s : State) : Prop :=
  ∀ i, 1 ≤ i → i < n → (s.fwd c (s.seq c i)).isSome = true

/-- Lane c of BLK_OUT holds the list, from pixel 0 on. -/
def laneIs (c : Chan) (s : State) (vs : List Coef) : Prop := ∀ i v, vs[i]? = some v → s.blkOut c i = v

/-- The bytes that the encode stages of channel c store: SEQ, INV and TUP up to their used lengths (R111). -/
def inEncodeFootprint (p : Params) (c : Chan) (n l r a : Nat) : Prop :=
  (seqAddr p c 0 ≤ a ∧ a < seqAddr p c 0 + n * coefBytes p) ∨
    (invAddr p c 0 ≤ a ∧ a < invAddr p c 0 + l * coefBytes p) ∨ (tupAddr c 0 ≤ a ∧ a < tupAddr c 0 + 4 * r)

/-- The normalised AC values of lane c of BLK_IN: what EXTRACT leaves as AC(c) (40_extract.md R121, 41_freq_table.md
R130). -/
def acOfInput (c : Chan) (n : Nat) (s : State) : List Coef :=
  (List.range (n - 1)).map fun i => norm s.params (s.blkIn c (i + 1))

/-- Channel c holds the encoding of a DC value and an AC list: the raw DC, the canonical table, and one tuple for each
run, its code the run value's index in the table (41_freq_table.md R133, 42_rle_encode.md R141). -/
def holdsEncoding (c : Chan) (s : State) (dc : Coef) (ac : List Coef) : Prop :=
  (s.head c).dc = dc ∧
    (s.head c).ndist.toNat = (canonOrder s.params ac).length ∧
    (∀ k v, (canonOrder s.params ac)[k]? = some v → s.inv c k = v) ∧
    (s.head c).tlen.toNat = (runs ac).length ∧
    ∀ k v r, (runs ac)[k]? = some (v, r) →
      (canonOrder s.params ac)[(s.tupCode c k).toNat]? = some v ∧ (s.tupRun c k).toNat = r

/-! ### Validation, in the fields of a channel section (45_marshaller.md R172, R173) -/

/-- The code of table entry k is not below TAB_LEN, or repeats an earlier entry's (R172, 60_exceptions.md R209). -/
def codeClashes (slot : Nat) (c : Chan) (s : State) (k : Nat) : Prop :=
  (s.trTabLen slot c).toNat ≤ (s.trTabCode slot c k).toNat ∨
    ∃ j, j < k ∧ s.trTabCode slot c j = s.trTabCode slot c k

/-- The value of table entry k repeats an earlier entry's, bit for bit (R172, 60_exceptions.md R210). -/
def valueClashes (slot : Nat) (c : Chan) (s : State) (k : Nat) : Prop :=
  ∃ j, j < k ∧ s.trTabVal slot c j = s.trTabVal slot c k

/-- The entries before k all pass. -/
def entriesPassBelow (slot : Nat) (c : Chan) (s : State) (k : Nat) : Prop :=
  ∀ j, j < k → ¬codeClashes slot c s j ∧ ¬valueClashes slot c s j

/-- Both used lengths are within CAP. -/
def lengthsPass (slot : Nat) (c : Chan) (s : State) : Prop :=
  (s.trTupLen slot c).toNat ≤ cap s.params ∧ (s.trTabLen slot c).toNat ≤ cap s.params

/-- `raise cause(pos, lo, hi)` of channel c (00_scope.md R12), its words being numbers. -/
def failure (cause : Cause) (c : Chan) (pos lo hi : Nat) : CmdError :=
  { cause := cause, ch := Chan.field c, pos := BitVec.ofNat 16 pos, lo := BitVec.ofNat 32 lo, hi := BitVec.ofNat 32 hi }

/-! ### What a host read returns, in the layouts' own numbers -/

/-- The code of each cause (60_exceptions.md R201). -/
def causeCodes : List (Cause × Nat) :=
  [(.none, 0x00), (.capacity, 0x01), (.lookupMiss, 0x02), (.lengthMismatch, 0x03), (.badCmd, 0x04), (.badChannel, 0x05),
    (.badLen, 0x06), (.slotRange, 0x07), (.tableBadCode, 0x08), (.tableDupValue, 0x09), (.badRun, 0x0A)]

/-- The number `w` is what a register at offset `a` reads as (10_state.md R22 to R38). -/
def registerReads (s : State) (a w : Nat) : Prop :=
  (∀ off v, (off, v) ∈
      [(0x000, 0x524C4543), (0x004, 0x00070100),
        (0x008, s.params.nMax + (if s.params.coef64 then 4096 else 0) + 65536 * s.params.nSlot),
        (0x00C, slotBytes s.params), (0x010, 0), (0x014, s.cfgLen.toNat), (0x018, 0),
        (0x01C, (if s.latch.isSome then 1 else 0) + if s.statusErr then 2 else 0),
        (0x024, s.err.slot.toNat), (0x028, s.err.ch.toNat + 16 * s.err.mask.toNat), (0x02C, s.err.pos.toNat),
        (0x030, s.err.lo.toNat), (0x034, s.err.hi.toNat), (0x038, s.irqEn.toNat), (0x03C, s.irqStatus.toNat),
        (0x040, s.lastCmd.toNat)] →
      a = off → w = v) ∧
    ∀ v, (s.err.cause, v) ∈ causeCodes → a = 0x020 → w = v

/-- The number `w` is the word at `a` of the coefficient `v` that stands at `addr`: its low word, and behind it its high
word where COEF_W = 64 (20_memory.md R62). -/
def coefReads (p : Params) (a w addr : Nat) (v : Coef) : Prop :=
  (a = addr → w = v.toNat % 2 ^ 32) ∧ (p.coef64 = true → a = addr + 4 → w = v.toNat / 2 ^ 32)

/-- The number `w` is what the word at `a` of a data window reads as (20_memory.md R61, R67 to R71). -/
def windowReads (s : State) (a w : Nat) : Prop :=
  (∀ c i, i < s.params.nMax →
    coefReads s.params a w (0x010000 + (3 * i + Chan.idx c) * coefBytes s.params) (s.blkIn c i) ∧
    coefReads s.params a w (0x020000 + (3 * i + Chan.idx c) * coefBytes s.params) (s.blkOut c i) ∧
    coefReads s.params a w (0x030000 + 0x2000 * Chan.idx c + coefBytes s.params * i) (s.seq c i)) ∧
  (∀ c,
    (a = 0x040000 + 0x4000 * Chan.idx c → w = (s.head c).dc.toNat % 2 ^ 32) ∧
    (a = 0x040004 + 0x4000 * Chan.idx c → w = if s.params.coef64 then (s.head c).dc.toNat / 2 ^ 32 else 0) ∧
    (a = 0x040008 + 0x4000 * Chan.idx c → w = (s.head c).tlen.toNat) ∧
    (a = 0x04000C + 0x4000 * Chan.idx c → w = (s.head c).ndist.toNat)) ∧
  (∀ c k, k < s.params.nMax - 1 →
    (a = 0x041000 + 0x4000 * Chan.idx c + 4 * k → w = (s.tupCode c k).toNat + 65536 * (s.tupRun c k).toNat) ∧
    coefReads s.params a w (0x042000 + 0x4000 * Chan.idx c + coefBytes s.params * k) (s.inv c k)) ∧
  (0x100000 ≤ a →
    w = (s.byte a).toNat + 256 * (s.byte (a + 1)).toNat + 65536 * (s.byte (a + 2)).toNat +
      16777216 * (s.byte (a + 3)).toNat)

/-! ### Whole commands -/

/-- The command that `i` names, accepted by an idle engine and run (30_encoding.md R107). -/
def runCommand (i : Instr) (s : State) : Host.Outcome State Fault Refusal := exec i (accept (encode i) s)

/-- Several commands, one after another, from acceptance to completion. -/
def runCommands : List Instr → State → Host.Outcome State Fault Refusal
  | [], s => .next s
  | i :: is, s =>
    match runCommand i s with
    | .next t => runCommands is t
    | .fault r => .fault r
    | .refused r => .refused r

/-- The nine commands that ENCODE_BLOCK equals (44_block_codec.md R160). -/
def encodeBlockCommands (tag : Half) : List Instr :=
  Chan.all.flatMap fun c =>
    [.extract (Chan.field c) tag, .buildTable (Chan.field c) tag, .rleEncode (Chan.field c) tag]

/-- `t` is an instance of the same build whose bytes of the slot are those of `s`: no write touches the slot in between,
or its bytes were moved from instance to instance (20_memory.md R71, 45_marshaller.md R174). -/
def sameSlot (slot : Nat) (s t : State) : Prop :=
  t.params = s.params ∧ ∀ a, trAddr s.params slot 0 ≤ a → a < trAddr s.params slot 0 + slotBytes s.params →
    t.byte a = s.byte a

/-- What an Encoded Block holds: DC, the used tuples and the used table of every channel (10_state.md R43). -/
def sameEncodedBlock (s t : State) : Prop :=
  ∀ c, t.head c = s.head c ∧
    (∀ k, k < (s.head c).tlen.toNat → t.tupCode c k = s.tupCode c k ∧ t.tupRun c k = s.tupRun c k) ∧
    (∀ k, k < (s.head c).ndist.toNat → t.inv c k = s.inv c k)

end Sys2Proof.Machine
end

