-- ==== Sys2Proof/Certificates/Slice0/Obligations.lean ====
section
/-! DEFINITION. The statements about RLEC for the provers. -/

open Sys2Proof Sys2Proof.Machine

/-! ### Encoding -/

/-- R100, R101: no bit of a command is lost in its word; every operand at every value its field admits, CH = 3
included. -/
def Obligations.DecodeOfEncodeIsTheCommand : Prop := ∀ i : Instr, decode (encode i) = .ok i

/-- R106: a word that is not illegal means exactly one operation. -/
def Obligations.DecodedWordIsItsEncoding : Prop := ∀ (w : Word) (i : Instr), decode w = .ok i → encode i = w

/-- R105: the complete set of encodings that spell no operation, in the rule's own numbers. -/
def Obligations.DecodeRefusesExactlyTheIllegalWords : Prop :=
  ∀ w : Word,
    (∃ e, decode w = .error e) ↔
      9 ≤ w.toNat % 16 ∨ w.toNat / 64 % 1024 ≠ 0 ∨
        (w.toNat % 16 ∈ [0x0, 0x5, 0x6, 0x8] ∧ w.toNat / 16 % 4 ≠ 0)

/-- R109: words written out from the encoding table. -/
def Obligations.WrittenWordsDecode : Prop :=
  decode 0x00050000 = .ok (.nop 5) ∧ decode 0x00070031 = .ok (.extract 3 7) ∧
    decode 0x00000012 = .ok (.buildTable 1 0) ∧ decode 0x00090003 = .ok (.rleEncode 0 9) ∧
    decode 0x00000024 = .ok (.rleDecode 2 0) ∧ decode 0x00000005 = .ok (.encodeBlock 0) ∧
    decode 0x00030006 = .ok (.decodeBlock 3) ∧ decode 0x00030027 = .ok (.pack 3 2) ∧
    decode 0x00030008 = .ok (.unpack 3)

/-! ### The step and the commands -/

/-- R107, R217: the engine's turn is `exec` of the decoded command: when it is the next input (which is then used up),
when no input is left, when a transaction is held, and when it comes first in a clock cycle it shares. -/
def Obligations.StepRunsTheDecodedCommand : Prop :=
  ∀ (s : State) (l : Latch) (i : Instr), legalBuild s.params = true → s.rstN = true → s.latch = some l →
    decode l.cmd = .ok i →
    (s.held = none → s.events = [] → step s = exec i s) ∧
    (∀ es, s.held = none → s.events = .engine :: es → step s = exec i { s with events := es }) ∧
    (∀ t, s.held = some t → noReset s.events → step s = exec i s) ∧
    (∀ t es, s.held = none → s.events = .sameCycle t false :: es → Txn.writesIrqStatus t = false →
      step s = exec i { s with events := .host t :: es })

/-- R190: NOP completes and changes no data state, whatever LEN is. -/
def Obligations.NopOnlyCompletes : Prop :=
  ∀ (s : State) (tag : Half), running s →
    ∃ t, exec (.nop tag) s = .next t ∧ completedOk s t ∧ sameData s t

/-- R121: EXTRACT stores the normalised lane in SEQ and nothing else. -/
def Obligations.ExtractCopiesTheNormalisedLane : Prop :=
  ∀ (s : State) (n : Nat) (c : Chan) (tag : Half), runningWithLen s n →
    ∃ t, exec (.extract (Chan.field c) tag) s = .next t ∧ completedOk s t ∧ t.enc = s.enc ∧
      (∀ i, i < n → t.seq c i = norm s.params (s.blkIn c i)) ∧
      sameBytesOutside s t (seqAddr s.params c 0) (n * coefBytes s.params)

/-- R133: BUILD_TABLE stores the canonical order as the inverse table and its length as NDIST, and nothing else. -/
def Obligations.BuildTableStoresTheCanonicalOrder : Prop :=
  ∀ (s : State) (n : Nat) (c : Chan) (tag : Half), runningWithLen s n →
    ∃ t, exec (.buildTable (Chan.field c) tag) s = .next t ∧ completedOk s t ∧
      (t.head c).ndist.toNat = (canonOrder s.params (s.acSeq c n)).length ∧
      (t.head c).ndist.toNat ≤ n - 1 ∧ (t.head c).dc = (s.head c).dc ∧ (t.head c).tlen = (s.head c).tlen ∧
      sameHeadsBut c s t ∧
      (∀ k v, (canonOrder s.params (s.acSeq c n))[k]? = some v → t.inv c k = v) ∧
      sameBytesOutside s t (invAddr s.params c 0)
        ((canonOrder s.params (s.acSeq c n)).length * coefBytes s.params)

/-- R141: RLE_ENCODE of a sequence whose AC values all have codes stores one tuple for each run, the raw DC and TLEN,
and nothing else. -/
def Obligations.RleEncodeStoresOneTuplePerRun : Prop :=
  ∀ (s : State) (n : Nat) (c : Chan) (tag : Half), runningWithLen s n → encodable c n s →
    ∃ t, exec (.rleEncode (Chan.field c) tag) s = .next t ∧ completedOk s t ∧
      (t.head c).dc = s.seq c 0 ∧ (t.head c).tlen.toNat = (runs (s.acSeq c n)).length ∧
      (t.head c).ndist = (s.head c).ndist ∧ sameHeadsBut c s t ∧
      (∀ k v r, (runs (s.acSeq c n))[k]? = some (v, r) →
        s.fwd c v = some (t.tupCode c k).toNat ∧ (t.tupRun c k).toNat = r) ∧
      sameBytesOutside s t (tupAddr c 0) (4 * (runs (s.acSeq c n)).length)

/-- R150: RLE_DECODE of decodable tuples writes the decoded lane, and nothing else. DC's width is the invariant of
`StepKeepsTheEncodedBlockInvariants`. -/
def Obligations.RleDecodeWritesTheLane : Prop :=
  ∀ (s : State) (n : Nat) (c : Chan) (tag : Half), runningWithLen s n → dcInWidth s → decodable c n s →
    ∃ t, exec (.rleDecode (Chan.field c) tag) s = .next t ∧ completedOk s t ∧ t.enc = s.enc ∧
      (decodedLane c s).length = n ∧ laneIs c t (decodedLane c s) ∧
      ∀ a, ¬inLane s.params c n a → t.byte a = s.byte a

/-- R160: ENCODE_BLOCK leaves, in every channel, the normalised sequence and its encoding, and touches nothing else. -/
def Obligations.EncodeBlockEncodesEveryChannel : Prop :=
  ∀ (s : State) (n : Nat) (tag : Half), runningWithLen s n →
    ∃ t, exec (.encodeBlock tag) s = .next t ∧ completedOk s t ∧
      (∀ c, (∀ i, i < n → t.seq c i = norm s.params (s.blkIn c i)) ∧
        holdsEncoding c t (norm s.params (s.blkIn c 0)) (acOfInput c n s)) ∧
      ∀ a, (∀ c, ¬inEncodeFootprint s.params c n (canonOrder s.params (acOfInput c n s)).length
          (runs (acOfInput c n s)).length a) → t.byte a = s.byte a

/-- R161, R214: DECODE_BLOCK writes the lanes of the decodable channels, leaves the other lanes and ENC alone, and
reports the first failure of the lowest failing channel with the mask of all failing ones. -/
def Obligations.DecodeBlockWritesThePassingLanes : Prop :=
  ∀ (s : State) (n : Nat) (tag : Half), runningWithLen s n → dcInWidth s →
    ∃ t, exec (.decodeBlock tag) s = .next t ∧ t.enc = s.enc ∧
      (∀ c, decodable c n s → laneIs c t (decodedLane c s)) ∧
      (∀ a, (∀ c, decodable c n s → ¬inLane s.params c n a) → t.byte a = s.byte a) ∧
      ((∀ c, decodable c n s) → completedOk s t) ∧
      ∀ c e, decodeCheck c n s = some e → (∀ d, Chan.idx d < Chan.idx c → decodeCheck d n s = none) →
        completedErr s t (lowestRecord tag (fun d => (decodeCheck d n s).isSome) c e)

/-- R170: PACK of lengths within CAP into an existing slot writes the DC section and the whole channel section, with
zeros in every unused entry and all padding, and nothing else. -/
def Obligations.PackWritesTheSection : Prop :=
  ∀ (s : State) (slot : Half) (c : Chan), running s → slot.toNat < s.params.nSlot → dcInWidth s →
    (s.head c).tlen.toNat ≤ cap s.params → (s.head c).ndist.toNat ≤ cap s.params →
    ∃ t, exec (.pack slot (Chan.field c)) s = .next t ∧ completedOk s t ∧ t.enc = s.enc ∧
      (∀ d, t.trDc slot.toNat d = (s.head d).dc) ∧
      t.trTupLen slot.toNat c = (s.head c).tlen ∧ t.trTabLen slot.toNat c = (s.head c).ndist ∧
      (∀ k, k < cap s.params →
        (t.trTupCode slot.toNat c k = if k < (s.head c).tlen.toNat then s.tupCode c k else 0) ∧
        (t.trTupRun slot.toNat c k = if k < (s.head c).tlen.toNat then s.tupRun c k else 0) ∧
        ((t.trTabCode slot.toNat c k).toNat = if k < (s.head c).ndist.toNat then k else 0) ∧
        (t.trTabVal slot.toNat c k = if k < (s.head c).ndist.toNat then s.inv c k else 0)) ∧
      (∀ j, 3 * coefBytes s.params ≤ j → j < dcBytes s.params → t.byte (trAddr s.params slot.toNat j) = 0) ∧
      (∀ j, (4 + 6 * cap s.params ≤ j ∧ j < tvOff s.params) ∨
          (tvOff s.params + coefBytes s.params * cap s.params ≤ j ∧ j < chBytes s.params) →
        t.byte (secAddr s.params slot.toNat c j) = 0) ∧
      ∀ a, ¬(trAddr s.params slot.toNat 0 ≤ a ∧ a < trAddr s.params slot.toNat 0 + dcBytes s.params) →
        ¬(secAddr s.params slot.toNat c 0 ≤ a ∧ a < secAddr s.params slot.toNat c 0 + chBytes s.params) →
        t.byte a = s.byte a

/-- R171: UNPACK of a slot whose channels all pass validation loads every channel, INV placed by code, and touches
nothing else. -/
def Obligations.UnpackLoadsAValidSlot : Prop :=
  ∀ (s : State) (slot : Half), running s → slot.toNat < s.params.nSlot →
    (∀ c, validate slot.toNat c s = none) →
    ∃ t, exec (.unpack slot) s = .next t ∧ completedOk s t ∧
      (∀ c, t.head c =
          { dc := s.trDc slot.toNat c, tlen := s.trTupLen slot.toNat c, ndist := s.trTabLen slot.toNat c } ∧
        (∀ k, k < (s.trTupLen slot.toNat c).toNat →
          t.tupCode c k = s.trTupCode slot.toNat c k ∧ t.tupRun c k = s.trTupRun slot.toNat c k) ∧
        (∀ k, k < (s.trTabLen slot.toNat c).toNat →
          t.inv c (s.trTabCode slot.toNat c k).toNat = s.trTabVal slot.toNat c k)) ∧
      ∀ a, (∀ c, ¬(tupAddr c 0 ≤ a ∧ a < tupAddr c 0 + 4 * (s.trTupLen slot.toNat c).toNat) ∧
          ¬(invAddr s.params c 0 ≤ a ∧
            a < invAddr s.params c 0 + (s.trTabLen slot.toNat c).toNat * coefBytes s.params)) →
        t.byte a = s.byte a

/-! ### Errors -/

/-- R205: a word that spells no operation completes with BAD_CMD(0, w, 0), and no data state changes: when the
engine's turn is the next input (which is then used up), when no input is left, and when a transaction is held. These
places of the engine's turn, the very next step with no input left among them, are the model's (log entry 5). -/
def Obligations.IllegalWordCompletesWithBadCmd : Prop :=
  ∀ (s : State) (l : Latch) (es : List Event), legalBuild s.params = true → s.rstN = true → s.latch = some l →
    illegal l.cmd = true →
    ((s.held = none ∧ s.events = .engine :: es) ∨ (s.held = none ∧ s.events = [] ∧ es = []) ∨
      (s.held.isSome = true ∧ noReset s.events ∧ es = s.events)) →
    ∃ t, step s = .next t ∧ sameData s t ∧
      completedErr { s with events := es } t (commandRecord .badCmd (slotField l.cmd) (chField l.cmd) l.cmd 0)

/-- R206: each channel command with CH = 3 reports BAD_CHANNEL(0, 3, 0), whatever LEN and the slot are, and does
nothing else. -/
def Obligations.ChannelThreeRaisesBadChannel : Prop :=
  ∀ (s : State) (tag : Half), running s →
    ∀ i ∈ [Instr.extract 3 tag, .buildTable 3 tag, .rleEncode 3 tag, .rleDecode 3 tag, .pack tag 3],
      ∃ t, exec i s = .next t ∧ sameData s t ∧ completedErr s t (commandRecord .badChannel tag 3 3 0)

/-- R207: each command that uses LEN, with its channel legal, reports BAD_LEN(0, LEN, N_MAX) when LATCH_LEN is
outside 1..N_MAX, and does nothing else. -/
def Obligations.LenOutOfRangeRaisesBadLen : Prop :=
  ∀ (s : State) (l : Latch) (c : Chan) (tag : Half), legalBuild s.params = true → s.latch = some l →
    ¬(1 ≤ l.len.toNat ∧ l.len.toNat ≤ s.params.nMax) →
    (∀ i ∈ [Instr.extract (Chan.field c) tag, .buildTable (Chan.field c) tag, .rleEncode (Chan.field c) tag,
        .rleDecode (Chan.field c) tag],
      ∃ t, exec i s = .next t ∧ sameData s t ∧
        completedErr s t
          (commandRecord .badLen tag (Chan.field c) (l.len.setWidth 32) (BitVec.ofNat 32 s.params.nMax))) ∧
    ∀ i ∈ [Instr.encodeBlock tag, .decodeBlock tag],
      ∃ t, exec i s = .next t ∧ sameData s t ∧
        completedErr s t (commandRecord .badLen tag 0 (l.len.setWidth 32) (BitVec.ofNat 32 s.params.nMax))

/-- R208: PACK and UNPACK of a slot index ≥ NSLOT report SLOT_RANGE(0, slot, NSLOT) and do nothing else. -/
def Obligations.SlotBeyondNslotRaisesSlotRange : Prop :=
  ∀ (s : State) (slot : Half) (c : Chan), running s → s.params.nSlot ≤ slot.toNat →
    (∃ t, exec (.pack slot (Chan.field c)) s = .next t ∧ sameData s t ∧
      completedErr s t (commandRecord .slotRange slot (Chan.field c) (slot.setWidth 32)
        (BitVec.ofNat 32 s.params.nSlot))) ∧
    ∃ t, exec (.unpack slot) s = .next t ∧ sameData s t ∧
      completedErr s t (commandRecord .slotRange slot 0 (slot.setWidth 32) (BitVec.ofNat 32 s.params.nSlot))

/-- R141, R203: the least AC index whose value has no code is reported as LOOKUP_MISS with the value, and RLE_ENCODE
writes nothing. -/
def Obligations.RleEncodeReportsTheFirstMiss : Prop :=
  ∀ (s : State) (n i : Nat) (c : Chan) (tag : Half), runningWithLen s n → 1 ≤ i → i < n →
    s.fwd c (s.seq c i) = none → (∀ j, 1 ≤ j → j < i → (s.fwd c (s.seq c j)).isSome = true) →
    ∃ t, exec (.rleEncode (Chan.field c) tag) s = .next t ∧ sameData s t ∧
      completedErr s t
        (dataRecord .lookupMiss tag c (BitVec.ofNat 16 i) (coefLo (s.seq c i)) (coefHi s.params (s.seq c i)))

/-- R150, R203: the least tuple whose code is ≥ NDIST is reported as LOOKUP_MISS, before any length check, and
RLE_DECODE writes nothing. -/
def Obligations.RleDecodeReportsTheFirstMiss : Prop :=
  ∀ (s : State) (n k : Nat) (c : Chan) (tag : Half), runningWithLen s n → k < (s.head c).tlen.toNat →
    (s.head c).ndist.toNat ≤ (s.tupCode c k).toNat →
    (∀ j, j < k → (s.tupCode c j).toNat < (s.head c).ndist.toNat) →
    ∃ t, exec (.rleDecode (Chan.field c) tag) s = .next t ∧ sameData s t ∧
      completedErr s t
        (dataRecord .lookupMiss tag c (BitVec.ofNat 16 k) ((s.tupCode c k).setWidth 32)
          ((s.head c).ndist.setWidth 32))

/-- R204: with every code in range, runs that do not sum to LEN - 1 are reported as LENGTH_MISMATCH with TLEN, the sum
and LEN - 1, and RLE_DECODE writes nothing. -/
def Obligations.RleDecodeReportsAWrongLength : Prop :=
  ∀ (s : State) (n : Nat) (c : Chan) (tag : Half), runningWithLen s n →
    (∀ k, k < (s.head c).tlen.toNat → (s.tupCode c k).toNat < (s.head c).ndist.toNat) →
    totalRun c s ≠ n - 1 →
    ∃ t, exec (.rleDecode (Chan.field c) tag) s = .next t ∧ sameData s t ∧ totalRun c s < 2 ^ 32 ∧
      completedErr s t
        (dataRecord .lengthMismatch tag c (s.head c).tlen (BitVec.ofNat 32 (totalRun c s))
          (BitVec.ofNat 32 (n - 1)))

/-- R170, R202: PACK of a used length beyond CAP reports CAPACITY, the tuple array before the table arrays, and
writes nothing. No run reaches such a state (I1). -/
def Obligations.PackRefusesLengthsBeyondCap : Prop :=
  ∀ (s : State) (slot : Half) (c : Chan), running s → slot.toNat < s.params.nSlot →
    (cap s.params < (s.head c).tlen.toNat →
      ∃ t, exec (.pack slot (Chan.field c)) s = .next t ∧ sameData s t ∧
        completedErr s t (dataRecord .capacity slot c 0 ((s.head c).tlen.setWidth 32)
          (BitVec.ofNat 32 (cap s.params)))) ∧
    ((s.head c).tlen.toNat ≤ cap s.params → cap s.params < (s.head c).ndist.toNat →
      ∃ t, exec (.pack slot (Chan.field c)) s = .next t ∧ sameData s t ∧
        completedErr s t (dataRecord .capacity slot c 1 ((s.head c).ndist.setWidth 32)
          (BitVec.ofNat 32 (cap s.params))))

/-- R171, R214: UNPACK of a slot with a failing channel loads nothing and reports the first failure of the lowest
failing channel, with the mask of all failing ones. -/
def Obligations.UnpackRejectsAnInvalidSlotWhole : Prop :=
  ∀ (s : State) (slot : Half) (c : Chan) (e : CmdError), running s → slot.toNat < s.params.nSlot →
    validate slot.toNat c s = some e → (∀ d, Chan.idx d < Chan.idx c → validate slot.toNat d s = none) →
    ∃ t, exec (.unpack slot) s = .next t ∧ sameData s t ∧
      completedErr s t (lowestRecord slot (fun d => (validate slot.toNat d s).isSome) c e)

/-- R172, R173: a channel section passes validation exactly when its lengths are within CAP, its table codes are
below TAB_LEN and pairwise different, its table values are pairwise different, and no used run is 0. -/
def Obligations.ValidationAcceptsExactlyTheBijectiveTables : Prop :=
  ∀ (s : State) (slot : Nat) (c : Chan),
    validate slot c s = none ↔
      (s.trTupLen slot c).toNat ≤ cap s.params ∧ (s.trTabLen slot c).toNat ≤ cap s.params ∧
      (∀ k, k < (s.trTabLen slot c).toNat → (s.trTabCode slot c k).toNat < (s.trTabLen slot c).toNat) ∧
      (∀ j k, j < k → k < (s.trTabLen slot c).toNat →
        s.trTabCode slot c j ≠ s.trTabCode slot c k ∧ s.trTabVal slot c j ≠ s.trTabVal slot c k) ∧
      ∀ k, k < (s.trTupLen slot c).toNat → s.trTupRun slot c k ≠ 0

/-- R172, R173, R213: what a section's validation reports, and when: the tuple capacity; then the table capacity; then
the first failing table entry, its code before its value; then the first run of 0; each with its position and data
words. -/
def Obligations.ValidationReportsTheFirstFailure : Prop :=
  ∀ (s : State) (slot : Nat) (c : Chan) (e : CmdError), validate slot c s = some e ↔
    (cap s.params < (s.trTupLen slot c).toNat ∧
        e = failure .capacity c 0 (s.trTupLen slot c).toNat (cap s.params)) ∨
    ((s.trTupLen slot c).toNat ≤ cap s.params ∧ cap s.params < (s.trTabLen slot c).toNat ∧
        e = failure .capacity c 1 (s.trTabLen slot c).toNat (cap s.params)) ∨
    (lengthsPass slot c s ∧ ∃ k, k < (s.trTabLen slot c).toNat ∧ entriesPassBelow slot c s k ∧
        ((codeClashes slot c s k ∧
            e = failure .tableBadCode c k (s.trTabCode slot c k).toNat (s.trTabLen slot c).toNat) ∨
          (¬codeClashes slot c s k ∧ valueClashes slot c s k ∧
            e = failure .tableDupValue c k ((s.trTabVal slot c k).toNat % 2 ^ 32)
              ((s.trTabVal slot c k).toNat / 2 ^ 32)))) ∨
    (lengthsPass slot c s ∧ entriesPassBelow slot c s (s.trTabLen slot c).toNat ∧
        ∃ k, k < (s.trTupLen slot c).toNat ∧ (∀ j, j < k → s.trTupRun slot c j ≠ 0) ∧ s.trTupRun slot c k = 0 ∧
          e = failure .badRun c k (s.trTupCode slot c k).toNat 0)

/-! ### The codec -/

/-- R120: the normalisation changes exactly one COEF_W-bit pattern, the one with only the sign bit set. -/
def Obligations.NormalisationChangesOnlyNegativeZero : Prop :=
  ∀ (p : Params) (v : Coef),
    (negZero p).toNat = 2 ^ (coefW p - 1) ∧ norm p (negZero p) = 0 ∧ (v ≠ negZero p → norm p v = v)

/-- R131: on COEF_W-bit patterns the key is a bijection onto the COEF_W-bit numbers; every pattern with the sign set
lies below every one with it clear, larger patterns first among the former and last among the latter. -/
def Obligations.KeyIsATotalOrderKey : Prop :=
  ∀ (p : Params) (u v : Coef), u.toNat < 2 ^ coefW p → v.toNat < 2 ^ coefW p →
    key p u < 2 ^ coefW p ∧ (key p u = key p v → u = v) ∧
    (u.toNat < 2 ^ (coefW p - 1) → 2 ^ (coefW p - 1) ≤ v.toNat → key p v < key p u) ∧
    (u.toNat < v.toNat → v.toNat < 2 ^ (coefW p - 1) → key p u < key p v) ∧
    (2 ^ (coefW p - 1) ≤ u.toNat → u.toNat < v.toNat → key p v < key p u)

/-- R132: `before` is the strict total order by count descending, then key ascending, and CanonOrder is the one list
of the distinct values sorted by it. -/
def Obligations.CanonicalOrderIsTheSortByCountThenKey : Prop :=
  ∀ (p : Params) (ac : List Coef), (∀ v ∈ ac, v.toNat < 2 ^ coefW p) →
    (∀ u v, canonBefore p ac u v = true ↔
      ac.count v < ac.count u ∨ (ac.count u = ac.count v ∧ key p u < key p v)) ∧
    (∀ u, canonBefore p ac u u = false) ∧
    (∀ u v w, canonBefore p ac u v = true → canonBefore p ac v w = true → canonBefore p ac u w = true) ∧
    (∀ u ∈ ac, ∀ v ∈ ac, u ≠ v → canonBefore p ac u v = true ∨ canonBefore p ac v u = true) ∧
    (∀ v, v ∈ canonOrder p ac ↔ v ∈ ac) ∧
    (canonOrder p ac).Pairwise (fun u v => canonBefore p ac u v = true) ∧
    ∀ l : List Coef, (∀ v, v ∈ l ↔ v ∈ ac) → l.Pairwise (fun u v => canonBefore p ac u v = true) →
      l = canonOrder p ac

/-- R140: Runs is the one decomposition into maximal repetitions. -/
def Obligations.RunsIsTheMaximalRunDecomposition : Prop :=
  ∀ (l : List Coef) (rs : List (Coef × Nat)),
    ((∀ r ∈ rs, 1 ≤ r.2) ∧ rs.IsChain (fun a b => a.1 ≠ b.1) ∧
      rs.flatMap (fun r => List.replicate r.2 r.1) = l) ↔ rs = runs l

/-- R135: after BUILD_TABLE the forward and the inverse table are mutual inverses, and the table's size is the number
of distinct AC values. -/
def Obligations.BuiltTableIsABijection : Prop :=
  ∀ (s : State) (n : Nat) (c : Chan) (tag : Half), runningWithLen s n →
    ∃ t, exec (.buildTable (Chan.field c) tag) s = .next t ∧
      (∀ k, k < (t.head c).ndist.toNat → t.fwd c (t.inv c k) = some k) ∧
      (∀ v ∈ s.acSeq c n, ∃ k, t.fwd c v = some k ∧ t.inv c k = v) ∧
      (t.head c).ndist.toNat = (s.acSeq c n).toFinset.card

/-- R142 (a), (b): after RLE_ENCODE the runs sum to LEN - 1 and adjacent tuples have different codes. -/
def Obligations.EncodedRunsAreConservedAndMaximal : Prop :=
  ∀ (s : State) (n : Nat) (c : Chan) (tag : Half), runningWithLen s n → encodable c n s →
    ∃ t, exec (.rleEncode (Chan.field c) tag) s = .next t ∧ totalRun c t = n - 1 ∧
      (∀ k, k + 1 < (t.head c).tlen.toNat → t.tupCode c k ≠ t.tupCode c (k + 1)) ∧
      ∀ k, k < (t.head c).tlen.toNat → t.tupRun c k ≠ 0

/-- R142 (c): decoding with the same LEN and table gives the sequence back, whatever table it was. -/
def Obligations.DecodeAfterEncodeGivesTheSequence : Prop :=
  ∀ (s : State) (c : Chan) (tag tag' : Half), legalBuild s.params = true → 1 ≤ s.cfgLen.toNat →
    s.cfgLen.toNat ≤ s.params.nMax → encodable c s.cfgLen.toNat s →
    ∃ t, runCommands [.rleEncode (Chan.field c) tag, .rleDecode (Chan.field c) tag'] s = .next t ∧
      t.statusErr = false ∧ ∀ i, i < s.cfgLen.toNat → t.blkOut c i = s.seq c i

/-- R142 (d): with the table just built from the same sequence and LEN, no value misses. -/
def Obligations.EncodeAfterBuildTableNeverMisses : Prop :=
  ∀ (s : State) (c : Chan) (tag tag' : Half), legalBuild s.params = true → 1 ≤ s.cfgLen.toNat →
    s.cfgLen.toNat ≤ s.params.nMax →
    ∃ t, runCommands [.buildTable (Chan.field c) tag, .rleEncode (Chan.field c) tag'] s = .next t ∧
      t.statusErr = false ∧ t.err = ErrRecord.clear ∧
      holdsEncoding c t (s.seq c 0) (s.acSeq c s.cfgLen.toNat)

/-- R160: ENCODE_BLOCK leaves the memories and the Encoded Block of the nine per-channel commands. -/
def Obligations.EncodeBlockEqualsTheNineCommands : Prop :=
  ∀ (s : State) (tag tag' : Half), legalBuild s.params = true → 1 ≤ s.cfgLen.toNat →
    s.cfgLen.toNat ≤ s.params.nMax →
    ∃ t u, runCommand (.encodeBlock tag) s = .next t ∧ runCommands (encodeBlockCommands tag') s = .next u ∧
      t.mem = u.mem ∧ t.enc = u.enc ∧ u.statusErr = false ∧ t.statusErr = false

/-- R163: ENCODE_BLOCK then DECODE_BLOCK with one LEN raises no error and gives every input pattern back, a negative
zero as +0. -/
def Obligations.BlockRoundTripGivesTheNormalisedBlock : Prop :=
  ∀ (s : State) (tag tag' : Half), legalBuild s.params = true → 1 ≤ s.cfgLen.toNat →
    s.cfgLen.toNat ≤ s.params.nMax →
    ∃ t, runCommands [.encodeBlock tag, .decodeBlock tag'] s = .next t ∧ t.statusErr = false ∧
      t.err = ErrRecord.clear ∧
      ∀ c i, i < s.cfgLen.toNat → t.blkOut c i = norm s.params (s.blkIn c i)

/-- R164: degenerate and all-distinct channels, and conservation, after ENCODE_BLOCK with LEN ≥ 2. -/
def Obligations.DegenerateAndDistinctChannels : Prop :=
  ∀ (s : State) (n : Nat) (tag : Half), runningWithLen s n → 2 ≤ n →
    ∃ t, exec (.encodeBlock tag) s = .next t ∧
      ∀ c, totalRun c t = n - 1 ∧
        ((∀ i, 1 ≤ i → i < n → t.seq c i = t.seq c 1) →
          (t.head c).tlen = 1 ∧ (t.head c).ndist = 1 ∧ t.tupCode c 0 = 0 ∧ (t.tupRun c 0).toNat = n - 1) ∧
        ((∀ i j, 1 ≤ i → i < j → j < n → t.seq c i ≠ t.seq c j) →
          (t.head c).tlen.toNat = n - 1 ∧ (t.head c).ndist.toNat = n - 1 ∧
          (∀ k, k < n - 1 → t.tupRun c k = 1) ∧
          ∀ j k, j < k → k < n - 1 → key t.params (t.inv c j) < key t.params (t.inv c k))

/-- R162: what ENCODE_BLOCK and DECODE_BLOCK leave in channel c is a function of channel c's inputs and LEN alone. -/
def Obligations.ChannelsAreIndependent : Prop :=
  ∀ (s₁ s₂ : State) (n : Nat) (c : Chan) (tag₁ tag₂ : Half), runningWithLen s₁ n → runningWithLen s₂ n →
    s₁.params = s₂.params →
    ((∀ i, i < n → s₁.blkIn c i = s₂.blkIn c i) →
      ∃ t₁ t₂, exec (.encodeBlock tag₁) s₁ = .next t₁ ∧ exec (.encodeBlock tag₂) s₂ = .next t₂ ∧
        t₁.head c = t₂.head c ∧ (∀ i, i < n → t₁.seq c i = t₂.seq c i) ∧
        (∀ k, k < (t₁.head c).tlen.toNat → t₁.tupCode c k = t₂.tupCode c k ∧ t₁.tupRun c k = t₂.tupRun c k) ∧
        ∀ k, k < (t₁.head c).ndist.toNat → t₁.inv c k = t₂.inv c k) ∧
    (s₁.head c = s₂.head c →
      (∀ k, k < (s₁.head c).tlen.toNat → s₁.tupCode c k = s₂.tupCode c k ∧ s₁.tupRun c k = s₂.tupRun c k) →
      (∀ k, k < (s₁.head c).ndist.toNat → s₁.inv c k = s₂.inv c k) →
      dcInWidth s₁ → dcInWidth s₂ →
      decodeCheck c n s₁ = decodeCheck c n s₂ ∧
      (decodable c n s₁ →
        ∃ t₁ t₂, exec (.decodeBlock tag₁) s₁ = .next t₁ ∧ exec (.decodeBlock tag₂) s₂ = .next t₂ ∧
          ∀ i, i < n → t₁.blkOut c i = t₂.blkOut c i))

/-- R174: three PACKs into one slot, in any order, with the Encoded Block unchanged between them and the slot's bytes
untouched in between and afterwards: a later UNPACK raises no error and gives the Encoded Block back. The reading
instance may be another one of the same build. I1 to I3 and DC's width are the invariants of
`StepKeepsTheEncodedBlockInvariants`. -/
def Obligations.UnpackAfterPackGivesTheEncodedBlock : Prop :=
  ∀ (s₀ s₁ s₂ v : State) (slot : Half) (c₀ c₁ c₂ : Chan), legalBuild s₀.params = true → lengthsWithinCap s₀ →
    tableDistinct s₀ → runsPositive s₀ → dcInWidth s₀ → slot.toNat < s₀.params.nSlot →
    [c₀, c₁, c₂].Perm Chan.all →
    ∃ t₀, runCommand (.pack slot (Chan.field c₀)) s₀ = .next t₀ ∧ t₀.statusErr = false ∧
      (sameSlot slot.toNat t₀ s₁ → sameEncodedBlock s₀ s₁ →
        ∃ t₁, runCommand (.pack slot (Chan.field c₁)) s₁ = .next t₁ ∧ t₁.statusErr = false ∧
          (sameSlot slot.toNat t₁ s₂ → sameEncodedBlock s₀ s₂ →
            ∃ t₂, runCommand (.pack slot (Chan.field c₂)) s₂ = .next t₂ ∧ t₂.statusErr = false ∧
              (sameSlot slot.toNat t₂ v →
                ∃ u, runCommand (.unpack slot) v = .next u ∧ u.statusErr = false ∧ sameEncodedBlock s₀ u)))

/-! ### The port and the registers -/

/-- R65 to R71, R39: what each aligned address is mapped to, in the map's own numbers: which words are mapped at all,
which data memory the host reads and writes and which it only reads, where the ENC head words and the registers
stand, and each register's access type. -/
def Obligations.MappedWordsAreTheAddressMap : Prop :=
  (∀ (p : Params) (a : Nat), legalBuild p = true → a % 4 = 0 →
    (targetOf p a ≠ .unmapped ↔
      a ≤ 0x040 ∨
      (0x010000 ≤ a ∧ a < 0x010000 + 3 * coefBytes p * p.nMax) ∨
      (0x020000 ≤ a ∧ a < 0x020000 + 3 * coefBytes p * p.nMax) ∨
      (∃ c : Chan, 0x030000 + 0x2000 * Chan.idx c ≤ a ∧
        a < 0x030000 + 0x2000 * Chan.idx c + coefBytes p * p.nMax) ∨
      (∃ c : Chan, (encBase c ≤ a ∧ a < encBase c + 0x10) ∨
        (encBase c + 0x1000 ≤ a ∧ a < encBase c + 0x1000 + 4 * (p.nMax - 1)) ∨
        (encBase c + 0x2000 ≤ a ∧ a < encBase c + 0x2000 + coefBytes p * (p.nMax - 1))) ∨
      (0x100000 ≤ a ∧ a < 0x100000 + p.nSlot * slotBytes p)) ∧
    (targetOf p a = .ram ↔
      (0x010000 ≤ a ∧ a < 0x010000 + 3 * coefBytes p * p.nMax) ∨
      (0x100000 ≤ a ∧ a < 0x100000 + p.nSlot * slotBytes p)) ∧
    (targetOf p a = .rom ↔
      (0x020000 ≤ a ∧ a < 0x020000 + 3 * coefBytes p * p.nMax) ∨
      ∃ c : Chan,
        (0x030000 + 0x2000 * Chan.idx c ≤ a ∧ a < 0x030000 + 0x2000 * Chan.idx c + coefBytes p * p.nMax) ∨
        (0x041000 + 0x4000 * Chan.idx c ≤ a ∧ a < 0x041000 + 0x4000 * Chan.idx c + 4 * (p.nMax - 1)) ∨
        (0x042000 + 0x4000 * Chan.idx c ≤ a ∧
          a < 0x042000 + 0x4000 * Chan.idx c + coefBytes p * (p.nMax - 1))) ∧
    (∀ c r, targetOf p a = .head c r ↔
      (r, a) ∈ [(HeadReg.dcLo, 0x040000 + 0x4000 * Chan.idx c), (.dcHi, 0x040004 + 0x4000 * Chan.idx c),
        (.tlen, 0x040008 + 0x4000 * Chan.idx c), (.ndist, 0x04000C + 0x4000 * Chan.idx c)]) ∧
    (∀ r, targetOf p a = .csr r ↔
      (r, a) ∈ [(Csr.id, 0x000), (.version, 0x004), (.param, 0x008), (.slotsz, 0x00C), (.ctrl, 0x010), (.cfg, 0x014),
        (.cmd, 0x018), (.status, 0x01C), (.errCause, 0x020), (.errSlot, 0x024), (.errCh, 0x028), (.errPos, 0x02C),
        (.errDataLo, 0x030), (.errDataHi, 0x034), (.irqEn, 0x038), (.irqStatus, 0x03C), (.lastCmd, 0x040)])) ∧
  ∀ r : Csr,
    (Csr.access r = .wo ↔ r ∈ [Csr.ctrl, .cmd]) ∧ (Csr.access r = .rw ↔ r ∈ [Csr.cfg, .irqEn]) ∧
    (Csr.access r = .w1c ↔ r = .irqStatus) ∧
    (Csr.access r = .ro ↔
      r ∈ [Csr.id, .version, .param, .slotsz, .status, .errCause, .errSlot, .errCh, .errPos, .errDataLo, .errDataHi,
        .lastCmd])

/-- R63, R64, R65, R215: a misaligned or narrow access, an unmapped address, and a write to a read-only location are
bus errors: a read returns 0, BERR is set, and nothing else changes. -/
def Obligations.BusErrorSetsOnlyBerr : Prop :=
  ∀ (s : State) (t : Txn) (es : List Event), offered s t es →
    (s.busy = true → heldWhileBusy s.params t = false) →
    (Txn.addr t % 4 ≠ 0 ∨ Txn.strobes t ≠ 0xF ∨ targetOf s.params (Txn.addr t) = .unmapped ∨
      ∃ a w b, t = .write a w b ∧
        (targetOf s.params a.toNat = .rom ∨ (∃ c r, targetOf s.params a.toNat = .head c r) ∨
          ∃ r, targetOf s.params a.toNat = .csr r ∧ Csr.access r = .ro)) →
    step s = .next { s with
      events := es, irqStatus := s.irqStatus ||| irqBerr, resp := some { data := 0, busError := true } }

/-- R65, R80, R22 to R38, R67 to R71: a whole-word read of a mapped location is never a bus error, answers the value
the location's rule gives, and has no side effect but its answer (the answer's field is the model's, log entry 7). -/
def Obligations.MappedReadsHaveNoSideEffect : Prop :=
  ∀ (s : State) (a : BitVec 21) (es : List Event), offered s (.read a 0xF) es → a.toNat % 4 = 0 →
    targetOf s.params a.toNat ≠ .unmapped → (s.busy = true → windowOf s.params a.toNat = none) →
    ∃ w : Word, step s = .next { s with events := es, resp := some { data := w, busError := false } } ∧
      registerReads s a.toNat w.toNat ∧ windowReads s a.toNat w.toNat

/-- R22, R23, R24, R25: the identification registers, at any time, and their default values. -/
def Obligations.IdentificationRegistersRead : Prop :=
  (∀ (s : State) (es : List Event), offered s (.read 0x000 0xF) es →
    step s = .next { s with events := es, resp := some { data := 0x524C4543, busError := false } }) ∧
  (∀ (s : State) (es : List Event), offered s (.read 0x004 0xF) es →
    step s = .next { s with events := es, resp := some { data := 0x00070100, busError := false } }) ∧
  (∀ (s : State) (es : List Event), offered s (.read 0x008 0xF) es →
    ∃ w : Word, step s = .next { s with events := es, resp := some { data := w, busError := false } } ∧
      w.toNat = s.params.nMax + (if s.params.coef64 then 4096 else 0) + 65536 * s.params.nSlot) ∧
  (∀ (s : State) (es : List Event), offered s (.read 0x00C 0xF) es →
    ∃ w : Word, step s = .next { s with events := es, resp := some { data := w, busError := false } } ∧
      w.toNat = slotBytes s.params) ∧
  paramWord Params.default = 0x00400040 ∧ slotBytes Params.default = 0x790

/-- R61, R67, R71: a word written to BLK_IN or TR by the host stands there little-endian, every other byte and all
other state stay, and reading the word gives it back. That the write's own answer is data 0 is the model's choice (log
entry 7). -/
def Obligations.HostWritesAreReadBack : Prop :=
  ∀ (s : State) (a : BitVec 21) (w : Word) (es : List Event),
    offered s (.write a w 0xF) (.host (.read a 0xF) :: es) → s.busy = false → a.toNat % 4 = 0 →
    targetOf s.params a.toNat = .ram →
    ∃ t u, step s = .next t ∧ step t = .next u ∧
      (∀ j, j < 4 → t.byte (a.toNat + j) = BitVec.ofNat 8 (w.toNat / 256 ^ j)) ∧
      sameBytesOutside s t a.toNat 4 ∧
      t = { s with mem := t.mem, events := .host (.read a 0xF) :: es, resp := some { data := 0, busError := false } } ∧
      u = { t with events := es, resp := some { data := w, busError := false } }

/-- R28, R107, R216: a CMD write to an idle engine is accepted: LAST_CMD, LATCH_CMD and LATCH_LEN take the word and
CFG.LEN, STATUS.ERR and the error registers are cleared, BUSY rises, and nothing else changes. While BUSY = 1 the word
is dropped, OVR is set, and nothing else changes. That the write's answer is data 0 is the model's choice (log entry
7). -/
def Obligations.CmdWriteIsAcceptedOrDropped : Prop :=
  ∀ (s : State) (w : Word) (es : List Event), offered s (.write 0x018 w 0xF) es →
    (s.busy = false →
      ∃ t, step s = .next t ∧ t.busy = true ∧
        t = { s with
          events := es, lastCmd := w, latch := some { cmd := w, len := s.cfgLen }, statusErr := false,
          err := ErrRecord.clear, resp := some { data := 0, busError := false } }) ∧
    (s.busy = true →
      step s = .next { s with
        events := es, irqStatus := s.irqStatus ||| irqOvr, resp := some { data := 0, busError := false } })

/-- R27: a CFG write takes effect at once, keeps no reserved bit, reads back, and does not change the LEN that a
running command has latched. Nothing else changes but the answers; that the write's is data 0 is the model's choice
(log entry 7). -/
def Obligations.CfgWriteKeepsTheLatchedLen : Prop :=
  ∀ (s : State) (w : Word) (es : List Event),
    offered s (.write 0x014 w 0xF) (.host (.read 0x014 0xF) :: es) →
    ∃ t u, step s = .next t ∧ step t = .next u ∧ t.latch = s.latch ∧ t.cfgLen.toNat = w.toNat % 65536 ∧
      t = { s with cfgLen := t.cfgLen, events := .host (.read 0x014 0xF) :: es,
                   resp := some { data := 0, busError := false } } ∧
      ∃ d : Word, u = { t with events := es, resp := some { data := d, busError := false } } ∧
        d.toNat = w.toNat % 65536

/-- R37: writing 1 to a bit of IRQ_STATUS clears it, writing 0 leaves it, and nothing else changes but the answer; that
its data is 0 is the model's choice (log entry 7). -/
def Obligations.IrqStatusIsWriteOneToClear : Prop :=
  ∀ (s : State) (w : Word) (es : List Event), offered s (.write 0x03C w 0xF) es →
    ∃ t, step s = .next t ∧
      (∀ i, i < 4 → t.irqStatus.getLsbD i = (s.irqStatus.getLsbD i && !w.getLsbD i)) ∧
      t = { s with irqStatus := t.irqStatus, events := es, resp := some { data := 0, busError := false } }

/-- R36, R218: an IRQ_EN write takes the low four bits and moves `irq` at once; `irq` is high exactly when an enabled
event is pending. Nothing else changes but the answer; that its data is 0 is the model's choice (log entry 7). -/
def Obligations.IrqFollowsEnableAndStatus : Prop :=
  ∀ (s : State) (w : Word) (es : List Event), offered s (.write 0x038 w 0xF) es →
    ∃ t, step s = .next t ∧
      t = { s with irqEn := t.irqEn, events := es, resp := some { data := 0, busError := false } } ∧
      (∀ i, i < 4 → t.irqEn.getLsbD i = w.getLsbD i) ∧
      (t.irq = true ↔ ∃ i, i < 4 ∧ w.getLsbD i = true ∧ s.irqStatus.getLsbD i = true)

/-- R217, R37: when an IRQ_STATUS write and a completion fall in one clock cycle, the completion's event bits are set
afterwards, whatever the write clears and whichever comes first. -/
def Obligations.SetWinsOverSameCycleClear : Prop :=
  ∀ (s : State) (w : Word) (first : Bool) (es : List Event), legalBuild s.params = true → s.rstN = true →
    s.held = none → s.events = .sameCycle (.write 0x03C w 0xF) first :: es → s.busy = true →
    s.statusErr = false →
    ∃ t u, step s = .next t ∧ step t = .next u ∧ u.busy = false ∧ u.events = es ∧
      u.irqStatus &&& irqDone = irqDone ∧ (u.statusErr = true → u.irqStatus &&& irqErr = irqErr)

/-- R75, R76: while a command runs, a transaction leaves all data state and the latched command alone; an access to a
data window or a CTRL write with SRST = 1 is held, and is performed once the engine is idle, before anything behind
it. -/
def Obligations.AccessesAreHeldUntilCompletion : Prop :=
  (∀ (s : State) (t : Txn) (es : List Event), offered s t es → s.busy = true →
    (∃ u, step s = .next u ∧ sameData s u ∧ u.latch = s.latch) ∧
    (heldWhileBusy s.params t = true → step s = .next { s with held := some t, events := es })) ∧
  ∀ (s : State) (t : Txn), legalBuild s.params = true → s.rstN = true → s.held = some t → s.busy = false →
    noReset s.events → step s = .next (perform t { s with held := none })

/-- R233: a soft reset of an idle engine sets every CSR and the DC, TLEN and NDIST of every channel to its reset
value and leaves every memory unchanged. -/
def Obligations.SoftResetClearsRegistersOnly : Prop :=
  ∀ (s : State) (w : Word) (es : List Event), offered s (.write 0x010 w 0xF) es → s.busy = false →
    w.getLsbD 0 = true →
    ∃ t, step s = .next t ∧ t.mem = s.mem ∧ t.resets = s.resets ∧ t.params = s.params ∧
      t.cfgLen.toNat = s.params.nMax ∧ t.status = 0 ∧ t.err = ErrRecord.clear ∧ t.irqEn = 0 ∧ t.irqStatus = 0 ∧
      t.lastCmd = 0 ∧ t.irq = false ∧ (∀ c, t.head c = EncHead.empty) ∧ t.events = es

/-- R234: a soft reset requested while BUSY = 1 waits as SRST_PENDING; the running command completes as it would have,
and then the soft reset is performed. That the very next step is the engine's is the model's order (log entry 5); that
the write's answer is data 0 is the model's choice (log entry 7). -/
def Obligations.SoftResetWaitsForCompletion : Prop :=
  ∀ (s : State) (w : Word) (es : List Event) (l : Latch), offered s (.write 0x010 w 0xF) es → s.latch = some l →
    w.getLsbD 0 = true → noReset es →
    ∃ t u, step s = .next t ∧ t.srstPending = true ∧ step t = .next u ∧ u.busy = false ∧
      runWord l.cmd { s with held := some (.write 0x010 w 0xF), events := es } = .next u ∧
      step u = .next ((softReset { u with held := none }).answer 0)

/-- R230, R49: the fall of `rst_n` abandons the running command, which sets no DONE; while `rst_n` is low no transaction
and no engine step is performed and `irq` is low; and when it rises the state is the hard-reset one, whatever it was,
the memories unwritten again, with contents of their own. That nothing is held after the fall and the rise, and that a
transaction offered in between is lost, is log entry 8; the contents' index is log entries 1 and 2. -/
def Obligations.HardResetGivesTheResetState : Prop :=
  (∀ (s : State) (es : List Event), legalBuild s.params = true → s.rstN = true → s.events = .rstFall :: es →
    ∃ t, step s = .next t ∧ t.rstN = false ∧ t.busy = false ∧ t.held = none ∧ t.irqStatus = s.irqStatus ∧
      t.irq = false ∧ t.events = es ∧ t.params = s.params) ∧
  (∀ (s : State) (e : Event) (es : List Event), legalBuild s.params = true → s.rstN = false → s.events = e :: es →
    e ≠ .rstRise → s.irq = false ∧ step s = .next { s with events := es }) ∧
  (∀ s : State, legalBuild s.params = true → s.rstN = false → s.events = [] → s.irq = false ∧ step s = .next s) ∧
  ∀ (s : State) (es : List Event), legalBuild s.params = true → s.rstN = false → s.events = .rstRise :: es →
    ∃ t, step s = .next t ∧ t.params = s.params ∧ t.rstN = true ∧ t.events = es ∧ t.cfgLen.toNat = s.params.nMax ∧
      t.status = 0 ∧ t.err = ErrRecord.clear ∧ t.irqEn = 0 ∧ t.irqStatus = 0 ∧ t.lastCmd = 0 ∧ t.latch = none ∧
      t.held = none ∧ t.irq = false ∧ (∀ c, t.head c = EncHead.empty) ∧
      ∀ a, t.byte a = Config.powerUpByte (s.resets + 1) a

/-- R231, R49: the state right after a hard reset, of every build; `State.reset` is that of the default build. -/
def Obligations.ResetValues : Prop :=
  State.reset = State.afterHardReset Params.default 0 [] ∧
    ∀ (p : Params) (r : Nat) (es : List Event), legalBuild p = true →
      let s := State.afterHardReset p r es
      s.busy = false ∧ s.latch = none ∧ s.srstPending = false ∧ s.statusErr = false ∧ s.status = 0 ∧
        s.err = ErrRecord.clear ∧ s.err.cause.code = 0 ∧ s.irqEn = 0 ∧ s.irqStatus = 0 ∧ s.irq = false ∧
        s.cfgLen.toNat = p.nMax ∧ s.lastCmd = 0 ∧
        ∀ c, (s.head c).dc = 0 ∧ (s.head c).tlen = 0 ∧ (s.head c).ndist = 0

/-- R236: right after reset, a decode with LEN = N_MAX raises LENGTH_MISMATCH with a sum of 0 and writes nothing, and
PACK writes a slot section with both lengths 0. -/
def Obligations.DecodeAndPackRightAfterReset : Prop :=
  ∀ (p : Params) (r : Nat) (c : Chan) (slot tag : Half), legalBuild p = true → slot.toNat < p.nSlot →
    (∃ t, runCommand (.rleDecode (Chan.field c) tag) (State.afterHardReset p r []) = .next t ∧
      t.err = dataRecord .lengthMismatch tag c 0 0 (BitVec.ofNat 32 (p.nMax - 1)) ∧ t.mem = []) ∧
    ∃ t, runCommand (.pack slot (Chan.field c)) (State.afterHardReset p r []) = .next t ∧ t.statusErr = false ∧
      (∀ j, j < dcBytes p → t.byte (trAddr p slot.toNat j) = 0) ∧
      ∀ j, j < chBytes p → t.byte (secAddr p slot.toNat c j) = 0

/-! ### The whole machine -/

/-- R107, R247: a running command with no input left completes in the next step, whatever its word is. -/
def Obligations.RunningCommandCompletes : Prop :=
  ∀ s : State, legalBuild s.params = true → s.rstN = true → s.held = none → s.events = [] → s.busy = true →
    ∃ t, step s = .next t ∧ t.busy = false ∧ t.irqStatus &&& irqDone = irqDone

/-- R200: RLEC never halts: every state of a legal build has a next state, of the same build. -/
def Obligations.EveryStepHasANextState : Prop :=
  ∀ s : State, legalBuild s.params = true → ∃ t, step s = .next t ∧ t.params = s.params

/-- The invariants hold at reset, and after every hard reset of every build. -/
def Obligations.ResetMeetsTheInvariants : Prop :=
  (encodedOk State.reset ∧ controlOk State.reset) ∧
    ∀ (p : Params) (r : Nat) (es : List Event),
      encodedOk (State.afterHardReset p r es) ∧ controlOk (State.afterHardReset p r es)

/-- Every step keeps the memory's canonical form (log entry 1), and lists bytes of the data memories only. -/
def Obligations.StepKeepsTheMemoryForm : Prop :=
  ∀ s t : State, memoryOk s → step s = .next t → memoryOk t

/-- R45: every step keeps I1, I2 and I3 in every channel (with the memory's form and DC's width). -/
def Obligations.StepKeepsTheEncodedBlockInvariants : Prop :=
  ∀ s t : State, encodedOk s → step s = .next t → encodedOk t

/-- R29 to R35, R47, R75, R230: every step keeps the latched command equal to LAST_CMD, the error registers in step
with STATUS.ERR and clear while a command runs, only holdable transactions held, and the engine idle in reset. That
nothing is held while `rst_n` is low is log entry 8, and that the latch and the held transaction are stored once is
log entry 14. -/
def Obligations.StepKeepsTheControlInvariants : Prop :=
  ∀ s t : State, controlOk s → step s = .next t → controlOk t
end

