-- ==== Sys2Proof/Laws/State.lean ====
section
/-! SUPPORT. The small lemmas of the state's updates: one per field and update, true by `rfl`, so that no later
proof unfolds a record update; and what each shared operation on the state can do. -/

namespace Sys2Proof.Machine
open Sys2Proof

/-! ### Storing bytes -/

@[simp] theorem State.store_params (s : State) (cs : List Host.Cell) : (s.store cs).params = s.params := rfl
@[simp] theorem State.store_rstN (s : State) (cs : List Host.Cell) : (s.store cs).rstN = s.rstN := rfl
@[simp] theorem State.store_cfgLen (s : State) (cs : List Host.Cell) : (s.store cs).cfgLen = s.cfgLen := rfl
@[simp] theorem State.store_latch (s : State) (cs : List Host.Cell) : (s.store cs).latch = s.latch := rfl
@[simp] theorem State.store_statusErr (s : State) (cs : List Host.Cell) : (s.store cs).statusErr = s.statusErr := rfl
@[simp] theorem State.store_err (s : State) (cs : List Host.Cell) : (s.store cs).err = s.err := rfl
@[simp] theorem State.store_irqEn (s : State) (cs : List Host.Cell) : (s.store cs).irqEn = s.irqEn := rfl
@[simp] theorem State.store_irqStatus (s : State) (cs : List Host.Cell) : (s.store cs).irqStatus = s.irqStatus := rfl
@[simp] theorem State.store_lastCmd (s : State) (cs : List Host.Cell) : (s.store cs).lastCmd = s.lastCmd := rfl
@[simp] theorem State.store_enc (s : State) (cs : List Host.Cell) : (s.store cs).enc = s.enc := rfl
@[simp] theorem State.store_mem (s : State) (cs : List Host.Cell) : (s.store cs).mem = s.mem.writeAll cs := rfl
@[simp] theorem State.store_held (s : State) (cs : List Host.Cell) : (s.store cs).held = s.held := rfl
@[simp] theorem State.store_resp (s : State) (cs : List Host.Cell) : (s.store cs).resp = s.resp := rfl
@[simp] theorem State.store_events (s : State) (cs : List Host.Cell) : (s.store cs).events = s.events := rfl
@[simp] theorem State.store_resets (s : State) (cs : List Host.Cell) : (s.store cs).resets = s.resets := rfl

/-! ### Replacing a head -/

@[simp] theorem State.setHead_params (s : State) (c : Chan) (h : EncHead) : (s.setHead c h).params = s.params := rfl
@[simp] theorem State.setHead_rstN (s : State) (c : Chan) (h : EncHead) : (s.setHead c h).rstN = s.rstN := rfl
@[simp] theorem State.setHead_cfgLen (s : State) (c : Chan) (h : EncHead) : (s.setHead c h).cfgLen = s.cfgLen := rfl
@[simp] theorem State.setHead_latch (s : State) (c : Chan) (h : EncHead) : (s.setHead c h).latch = s.latch := rfl
@[simp] theorem State.setHead_statusErr (s : State) (c : Chan) (h : EncHead) : (s.setHead c h).statusErr = s.statusErr := rfl
@[simp] theorem State.setHead_err (s : State) (c : Chan) (h : EncHead) : (s.setHead c h).err = s.err := rfl
@[simp] theorem State.setHead_irqEn (s : State) (c : Chan) (h : EncHead) : (s.setHead c h).irqEn = s.irqEn := rfl
@[simp] theorem State.setHead_irqStatus (s : State) (c : Chan) (h : EncHead) : (s.setHead c h).irqStatus = s.irqStatus := rfl
@[simp] theorem State.setHead_lastCmd (s : State) (c : Chan) (h : EncHead) : (s.setHead c h).lastCmd = s.lastCmd := rfl
@[simp] theorem State.setHead_enc (s : State) (c : Chan) (h : EncHead) : (s.setHead c h).enc = s.enc.set c h := rfl
@[simp] theorem State.setHead_mem (s : State) (c : Chan) (h : EncHead) : (s.setHead c h).mem = s.mem := rfl
@[simp] theorem State.setHead_held (s : State) (c : Chan) (h : EncHead) : (s.setHead c h).held = s.held := rfl
@[simp] theorem State.setHead_resp (s : State) (c : Chan) (h : EncHead) : (s.setHead c h).resp = s.resp := rfl
@[simp] theorem State.setHead_events (s : State) (c : Chan) (h : EncHead) : (s.setHead c h).events = s.events := rfl
@[simp] theorem State.setHead_resets (s : State) (c : Chan) (h : EncHead) : (s.setHead c h).resets = s.resets := rfl

/-! ### Setting event bits -/

@[simp] theorem State.setIrq_params (s : State) (b : BitVec 4) : (s.setIrq b).params = s.params := rfl
@[simp] theorem State.setIrq_rstN (s : State) (b : BitVec 4) : (s.setIrq b).rstN = s.rstN := rfl
@[simp] theorem State.setIrq_cfgLen (s : State) (b : BitVec 4) : (s.setIrq b).cfgLen = s.cfgLen := rfl
@[simp] theorem State.setIrq_latch (s : State) (b : BitVec 4) : (s.setIrq b).latch = s.latch := rfl
@[simp] theorem State.setIrq_statusErr (s : State) (b : BitVec 4) : (s.setIrq b).statusErr = s.statusErr := rfl
@[simp] theorem State.setIrq_err (s : State) (b : BitVec 4) : (s.setIrq b).err = s.err := rfl
@[simp] theorem State.setIrq_irqEn (s : State) (b : BitVec 4) : (s.setIrq b).irqEn = s.irqEn := rfl
@[simp] theorem State.setIrq_irqStatus (s : State) (b : BitVec 4) : (s.setIrq b).irqStatus = s.irqStatus ||| b := rfl
@[simp] theorem State.setIrq_lastCmd (s : State) (b : BitVec 4) : (s.setIrq b).lastCmd = s.lastCmd := rfl
@[simp] theorem State.setIrq_enc (s : State) (b : BitVec 4) : (s.setIrq b).enc = s.enc := rfl
@[simp] theorem State.setIrq_mem (s : State) (b : BitVec 4) : (s.setIrq b).mem = s.mem := rfl
@[simp] theorem State.setIrq_held (s : State) (b : BitVec 4) : (s.setIrq b).held = s.held := rfl
@[simp] theorem State.setIrq_resp (s : State) (b : BitVec 4) : (s.setIrq b).resp = s.resp := rfl
@[simp] theorem State.setIrq_events (s : State) (b : BitVec 4) : (s.setIrq b).events = s.events := rfl
@[simp] theorem State.setIrq_resets (s : State) (b : BitVec 4) : (s.setIrq b).resets = s.resets := rfl

/-! ### Answering a transaction -/

@[simp] theorem State.answer_params (s : State) (w : Word) : (s.answer w).params = s.params := rfl
@[simp] theorem State.answer_rstN (s : State) (w : Word) : (s.answer w).rstN = s.rstN := rfl
@[simp] theorem State.answer_cfgLen (s : State) (w : Word) : (s.answer w).cfgLen = s.cfgLen := rfl
@[simp] theorem State.answer_latch (s : State) (w : Word) : (s.answer w).latch = s.latch := rfl
@[simp] theorem State.answer_statusErr (s : State) (w : Word) : (s.answer w).statusErr = s.statusErr := rfl
@[simp] theorem State.answer_err (s : State) (w : Word) : (s.answer w).err = s.err := rfl
@[simp] theorem State.answer_irqEn (s : State) (w : Word) : (s.answer w).irqEn = s.irqEn := rfl
@[simp] theorem State.answer_irqStatus (s : State) (w : Word) : (s.answer w).irqStatus = s.irqStatus := rfl
@[simp] theorem State.answer_lastCmd (s : State) (w : Word) : (s.answer w).lastCmd = s.lastCmd := rfl
@[simp] theorem State.answer_enc (s : State) (w : Word) : (s.answer w).enc = s.enc := rfl
@[simp] theorem State.answer_mem (s : State) (w : Word) : (s.answer w).mem = s.mem := rfl
@[simp] theorem State.answer_held (s : State) (w : Word) : (s.answer w).held = s.held := rfl
@[simp] theorem State.answer_resp (s : State) (w : Word) : (s.answer w).resp = some { data := w, busError := false } := rfl
@[simp] theorem State.answer_events (s : State) (w : Word) : (s.answer w).events = s.events := rfl
@[simp] theorem State.answer_resets (s : State) (w : Word) : (s.answer w).resets = s.resets := rfl

/-! ### A bus error -/

@[simp] theorem busError_params (s : State) : (busError s).params = s.params := rfl
@[simp] theorem busError_rstN (s : State) : (busError s).rstN = s.rstN := rfl
@[simp] theorem busError_cfgLen (s : State) : (busError s).cfgLen = s.cfgLen := rfl
@[simp] theorem busError_latch (s : State) : (busError s).latch = s.latch := rfl
@[simp] theorem busError_statusErr (s : State) : (busError s).statusErr = s.statusErr := rfl
@[simp] theorem busError_err (s : State) : (busError s).err = s.err := rfl
@[simp] theorem busError_irqEn (s : State) : (busError s).irqEn = s.irqEn := rfl
@[simp] theorem busError_irqStatus (s : State) : (busError s).irqStatus = s.irqStatus ||| irqBerr := rfl
@[simp] theorem busError_lastCmd (s : State) : (busError s).lastCmd = s.lastCmd := rfl
@[simp] theorem busError_enc (s : State) : (busError s).enc = s.enc := rfl
@[simp] theorem busError_mem (s : State) : (busError s).mem = s.mem := rfl
@[simp] theorem busError_held (s : State) : (busError s).held = s.held := rfl
@[simp] theorem busError_resp (s : State) : (busError s).resp = some { data := 0, busError := true } := rfl
@[simp] theorem busError_events (s : State) : (busError s).events = s.events := rfl
@[simp] theorem busError_resets (s : State) : (busError s).resets = s.resets := rfl

/-! ### Acceptance -/

@[simp] theorem accept_params (s : State) (w : Word) : (accept w s).params = s.params := rfl
@[simp] theorem accept_rstN (s : State) (w : Word) : (accept w s).rstN = s.rstN := rfl
@[simp] theorem accept_cfgLen (s : State) (w : Word) : (accept w s).cfgLen = s.cfgLen := rfl
@[simp] theorem accept_latch (s : State) (w : Word) : (accept w s).latch = some { cmd := w, len := s.cfgLen } := rfl
@[simp] theorem accept_statusErr (s : State) (w : Word) : (accept w s).statusErr = false := rfl
@[simp] theorem accept_err (s : State) (w : Word) : (accept w s).err = ErrRecord.clear := rfl
@[simp] theorem accept_irqEn (s : State) (w : Word) : (accept w s).irqEn = s.irqEn := rfl
@[simp] theorem accept_irqStatus (s : State) (w : Word) : (accept w s).irqStatus = s.irqStatus := rfl
@[simp] theorem accept_lastCmd (s : State) (w : Word) : (accept w s).lastCmd = w := rfl
@[simp] theorem accept_enc (s : State) (w : Word) : (accept w s).enc = s.enc := rfl
@[simp] theorem accept_mem (s : State) (w : Word) : (accept w s).mem = s.mem := rfl
@[simp] theorem accept_held (s : State) (w : Word) : (accept w s).held = s.held := rfl
@[simp] theorem accept_resp (s : State) (w : Word) : (accept w s).resp = s.resp := rfl
@[simp] theorem accept_events (s : State) (w : Word) : (accept w s).events = s.events := rfl
@[simp] theorem accept_resets (s : State) (w : Word) : (accept w s).resets = s.resets := rfl

/-! ### Soft reset -/

@[simp] theorem softReset_params (s : State) : (softReset s).params = s.params := rfl
@[simp] theorem softReset_rstN (s : State) : (softReset s).rstN = s.rstN := rfl
@[simp] theorem softReset_cfgLen (s : State) : (softReset s).cfgLen = BitVec.ofNat 16 s.params.nMax := rfl
@[simp] theorem softReset_latch (s : State) : (softReset s).latch = none := rfl
@[simp] theorem softReset_statusErr (s : State) : (softReset s).statusErr = false := rfl
@[simp] theorem softReset_err (s : State) : (softReset s).err = ErrRecord.clear := rfl
@[simp] theorem softReset_irqEn (s : State) : (softReset s).irqEn = 0 := rfl
@[simp] theorem softReset_irqStatus (s : State) : (softReset s).irqStatus = 0 := rfl
@[simp] theorem softReset_lastCmd (s : State) : (softReset s).lastCmd = 0 := rfl
@[simp] theorem softReset_enc (s : State) : (softReset s).enc = { y := EncHead.empty, cr := EncHead.empty, cb := EncHead.empty } := rfl
@[simp] theorem softReset_mem (s : State) : (softReset s).mem = s.mem := rfl
@[simp] theorem softReset_held (s : State) : (softReset s).held = s.held := rfl
@[simp] theorem softReset_resp (s : State) : (softReset s).resp = s.resp := rfl
@[simp] theorem softReset_events (s : State) : (softReset s).events = s.events := rfl
@[simp] theorem softReset_resets (s : State) : (softReset s).resets = s.resets := rfl

/-! ### The fall of rst_n -/

@[simp] theorem resetFall_params (s : State) : (resetFall s).params = s.params := rfl
@[simp] theorem resetFall_rstN (s : State) : (resetFall s).rstN = false := rfl
@[simp] theorem resetFall_cfgLen (s : State) : (resetFall s).cfgLen = s.cfgLen := rfl
@[simp] theorem resetFall_latch (s : State) : (resetFall s).latch = none := rfl
@[simp] theorem resetFall_statusErr (s : State) : (resetFall s).statusErr = s.statusErr := rfl
@[simp] theorem resetFall_err (s : State) : (resetFall s).err = s.err := rfl
@[simp] theorem resetFall_irqEn (s : State) : (resetFall s).irqEn = s.irqEn := rfl
@[simp] theorem resetFall_irqStatus (s : State) : (resetFall s).irqStatus = s.irqStatus := rfl
@[simp] theorem resetFall_lastCmd (s : State) : (resetFall s).lastCmd = s.lastCmd := rfl
@[simp] theorem resetFall_enc (s : State) : (resetFall s).enc = s.enc := rfl
@[simp] theorem resetFall_mem (s : State) : (resetFall s).mem = s.mem := rfl
@[simp] theorem resetFall_held (s : State) : (resetFall s).held = none := rfl
@[simp] theorem resetFall_resp (s : State) : (resetFall s).resp = s.resp := rfl
@[simp] theorem resetFall_events (s : State) : (resetFall s).events = s.events := rfl
@[simp] theorem resetFall_resets (s : State) : (resetFall s).resets = s.resets := rfl

/-! ### The rise of rst_n -/

@[simp] theorem resetRise_params (s : State) : (resetRise s).params = s.params := rfl
@[simp] theorem resetRise_rstN (s : State) : (resetRise s).rstN = true := rfl
@[simp] theorem resetRise_cfgLen (s : State) : (resetRise s).cfgLen = BitVec.ofNat 16 s.params.nMax := rfl
@[simp] theorem resetRise_latch (s : State) : (resetRise s).latch = none := rfl
@[simp] theorem resetRise_statusErr (s : State) : (resetRise s).statusErr = false := rfl
@[simp] theorem resetRise_err (s : State) : (resetRise s).err = ErrRecord.clear := rfl
@[simp] theorem resetRise_irqEn (s : State) : (resetRise s).irqEn = 0 := rfl
@[simp] theorem resetRise_irqStatus (s : State) : (resetRise s).irqStatus = 0 := rfl
@[simp] theorem resetRise_lastCmd (s : State) : (resetRise s).lastCmd = 0 := rfl
@[simp] theorem resetRise_enc (s : State) : (resetRise s).enc = { y := EncHead.empty, cr := EncHead.empty, cb := EncHead.empty } := rfl
@[simp] theorem resetRise_mem (s : State) : (resetRise s).mem = [] := rfl
@[simp] theorem resetRise_held (s : State) : (resetRise s).held = none := rfl
@[simp] theorem resetRise_resp (s : State) : (resetRise s).resp = none := rfl
@[simp] theorem resetRise_events (s : State) : (resetRise s).events = s.events := rfl
@[simp] theorem resetRise_resets (s : State) : (resetRise s).resets = s.resets + 1 := rfl

/-! ### Recording errors -/

@[simp] theorem recordErrors_nil (slot : Half) (s : State) : recordErrors slot [] s = s := rfl
@[simp] theorem recordErrors_params (slot : Half) (es : List CmdError) (s : State) :
    (recordErrors slot es s).params = s.params := by cases es <;> rfl
@[simp] theorem recordErrors_rstN (slot : Half) (es : List CmdError) (s : State) :
    (recordErrors slot es s).rstN = s.rstN := by cases es <;> rfl
@[simp] theorem recordErrors_cfgLen (slot : Half) (es : List CmdError) (s : State) :
    (recordErrors slot es s).cfgLen = s.cfgLen := by cases es <;> rfl
@[simp] theorem recordErrors_latch (slot : Half) (es : List CmdError) (s : State) :
    (recordErrors slot es s).latch = s.latch := by cases es <;> rfl
@[simp] theorem recordErrors_cons_statusErr (slot : Half) (e : CmdError) (es : List CmdError) (s : State) :
    (recordErrors slot (e :: es) s).statusErr = true := rfl
@[simp] theorem recordErrors_cons_err (slot : Half) (e : CmdError) (es : List CmdError) (s : State) :
    (recordErrors slot (e :: es) s).err = { cause := e.cause, slot := slot, ch := e.ch, mask := chMask (e :: es), pos := e.pos, lo := e.lo, hi := e.hi } := rfl
@[simp] theorem recordErrors_irqEn (slot : Half) (es : List CmdError) (s : State) :
    (recordErrors slot es s).irqEn = s.irqEn := by cases es <;> rfl
@[simp] theorem recordErrors_cons_irqStatus (slot : Half) (e : CmdError) (es : List CmdError) (s : State) :
    (recordErrors slot (e :: es) s).irqStatus = s.irqStatus ||| irqErr := rfl
@[simp] theorem recordErrors_lastCmd (slot : Half) (es : List CmdError) (s : State) :
    (recordErrors slot es s).lastCmd = s.lastCmd := by cases es <;> rfl
@[simp] theorem recordErrors_enc (slot : Half) (es : List CmdError) (s : State) :
    (recordErrors slot es s).enc = s.enc := by cases es <;> rfl
@[simp] theorem recordErrors_mem (slot : Half) (es : List CmdError) (s : State) :
    (recordErrors slot es s).mem = s.mem := by cases es <;> rfl
@[simp] theorem recordErrors_held (slot : Half) (es : List CmdError) (s : State) :
    (recordErrors slot es s).held = s.held := by cases es <;> rfl
@[simp] theorem recordErrors_resp (slot : Half) (es : List CmdError) (s : State) :
    (recordErrors slot es s).resp = s.resp := by cases es <;> rfl
@[simp] theorem recordErrors_events (slot : Half) (es : List CmdError) (s : State) :
    (recordErrors slot es s).events = s.events := by cases es <;> rfl
@[simp] theorem recordErrors_resets (slot : Half) (es : List CmdError) (s : State) :
    (recordErrors slot es s).resets = s.resets := by cases es <;> rfl

/-! ### Completion -/

@[simp] theorem complete_params (slot : Half) (x : Execution) : (complete slot x).params = x.after.params := by
  simp [complete]
@[simp] theorem complete_rstN (slot : Half) (x : Execution) : (complete slot x).rstN = x.after.rstN := by
  simp [complete]
@[simp] theorem complete_cfgLen (slot : Half) (x : Execution) : (complete slot x).cfgLen = x.after.cfgLen := by
  simp [complete]
@[simp] theorem complete_latch (slot : Half) (x : Execution) : (complete slot x).latch = none := rfl
theorem complete_statusErr (slot : Half) (x : Execution) :
    (complete slot x).statusErr = (recordErrors slot x.errs x.after).statusErr := rfl
theorem complete_err (slot : Half) (x : Execution) :
    (complete slot x).err = (recordErrors slot x.errs x.after).err := rfl
@[simp] theorem complete_irqEn (slot : Half) (x : Execution) : (complete slot x).irqEn = x.after.irqEn := by
  simp [complete]
theorem complete_irqStatus (slot : Half) (x : Execution) :
    (complete slot x).irqStatus = (recordErrors slot x.errs x.after).irqStatus ||| irqDone := rfl
@[simp] theorem complete_lastCmd (slot : Half) (x : Execution) : (complete slot x).lastCmd = x.after.lastCmd := by
  simp [complete]
@[simp] theorem complete_enc (slot : Half) (x : Execution) : (complete slot x).enc = x.after.enc := by
  simp [complete]
@[simp] theorem complete_mem (slot : Half) (x : Execution) : (complete slot x).mem = x.after.mem := by
  simp [complete]
@[simp] theorem complete_held (slot : Half) (x : Execution) : (complete slot x).held = x.after.held := by
  simp [complete]
@[simp] theorem complete_resp (slot : Half) (x : Execution) : (complete slot x).resp = x.after.resp := by
  simp [complete]
@[simp] theorem complete_events (slot : Half) (x : Execution) : (complete slot x).events = x.after.events := by
  simp [complete]
@[simp] theorem complete_resets (slot : Half) (x : Execution) : (complete slot x).resets = x.after.resets := by
  simp [complete]

@[simp] theorem commit_after (s : State) : (commit s).after = s := rfl
@[simp] theorem commit_errs (s : State) : (commit s).errs = [] := rfl
@[simp] theorem raise_after (s : State) (e : CmdError) : (raise s e).after = s := rfl
@[simp] theorem raise_errs (s : State) (e : CmdError) : (raise s e).errs = [e] := rfl

/-! ### Heads and channels -/

@[simp] theorem PerChan.get_set {α : Type} (t : PerChan α) (c d : Chan) (v : α) :
    (t.set c v).get d = if d = c then v else t.get d := by
  cases c <;> cases d <;> rfl

theorem State.head_setHead (s : State) (c d : Chan) (h : EncHead) :
    (s.setHead c h).head d = if d = c then h else s.head d := by
  simp [State.head]

@[simp] theorem State.head_setHead_self (s : State) (c : Chan) (h : EncHead) : (s.setHead c h).head c = h := by
  simp [State.head]

@[simp] theorem State.head_store (s : State) (cs : List Host.Cell) (c : Chan) : (s.store cs).head c = s.head c := rfl

theorem State.head_congr {s t : State} (h : t.enc = s.enc) (c : Chan) : t.head c = s.head c := by
  simp [State.head, h]

/-- The channel operand of a channel's own field is that channel. -/
@[simp] theorem Chan.ofField_field (c : Chan) : Chan.ofField (Chan.field c) = some c := by
  cases c <;> rfl

@[simp] theorem Chan.ofField_three : Chan.ofField 3 = none := rfl

theorem Chan.ofField_eq_some {ch : BitVec 2} {c : Chan} : Chan.ofField ch = some c ↔ ch = Chan.field c := by
  constructor
  · intro h
    revert h
    cases c <;> revert ch <;> decide
  · rintro rfl
    exact Chan.ofField_field c

theorem Chan.mem_all (c : Chan) : c ∈ Chan.all := by cases c <;> decide

theorem Chan.idx_lt (c : Chan) : Chan.idx c < 3 := by cases c <;> decide

theorem Chan.idx_inj {c d : Chan} (h : Chan.idx c = Chan.idx d) : c = d := by
  cases c <;> cases d <;> first | rfl | exact absurd h (by decide)

/-! ### The latched LEN -/

theorem State.len_of_latch {s : State} {l : Latch} (h : s.latch = some l) : s.len = l.len.toNat := by
  simp [State.len, h]

theorem State.busy_of_latch {s : State} {l : Latch} (h : s.latch = some l) : s.busy = true := by
  simp [State.busy, h]

theorem State.busy_eq_true {s : State} : s.busy = true ↔ ∃ l, s.latch = some l := by
  simp [State.busy, Option.isSome_iff_exists]

theorem State.busy_eq_false {s : State} : s.busy = false ↔ s.latch = none := by
  simp [State.busy]

end Sys2Proof.Machine
end

