-- ==== Sys2Proof/Laws/Memory.lean ====
section
/-! SUPPORT. Memory: reading after writing, the canonical form, little-endian fields, and arrays of elements. -/

namespace Sys2Proof.Machine
open Sys2Proof

/-! ### Bytes -/

/-- Reading after one byte is written. -/
theorem Memory.read?_write (m : Memory) (a b : Nat) (v : Byte) :
    (m.write a v).read? b = if b = a then some v else m.read? b := by
  induction m with
  | nil => by_cases h : a = b <;> simp [Memory.write, Memory.read?, h, eq_comm]
  | cons c m ih =>
    obtain ⟨d, w⟩ := c
    simp only [Memory.write]
    by_cases h1 : a < d
    · by_cases h3 : b = a
      · simp [h1, Memory.read?, h3]
      · simp [h1, Memory.read?, h3, Ne.symm h3]
    · by_cases h2 : a = d
      · by_cases h3 : b = a
        · simp [Memory.read?, h2, h3]
        · simp [Memory.read?, ← h2, h3, Ne.symm h3]
      · by_cases h3 : b = a
        · subst h3
          simp [h1, h2, Memory.read?, ih, Ne.symm h2]
        · simp [h1, h2, Memory.read?, ih, h3]

theorem Memory.writeAll_append (m : Memory) (xs ys : List Host.Cell) :
    m.writeAll (xs ++ ys) = (m.writeAll xs).writeAll ys := by
  induction xs generalizing m with
  | nil => rfl
  | cons x xs ih => exact ih _

/-- The addresses a list of stored bytes touches. -/
def cellAddrs (cs : List Host.Cell) : List Nat := cs.map (·.1)

@[simp] theorem cellAddrs_nil : cellAddrs [] = [] := rfl
@[simp] theorem cellAddrs_cons (c : Host.Cell) (cs : List Host.Cell) : cellAddrs (c :: cs) = c.1 :: cellAddrs cs := rfl
@[simp] theorem cellAddrs_append (xs ys : List Host.Cell) : cellAddrs (xs ++ ys) = cellAddrs xs ++ cellAddrs ys := by
  simp [cellAddrs]

/-- A byte outside the stored ones reads as before. -/
theorem Memory.read?_writeAll_of_not_mem (m : Memory) (cs : List Host.Cell) (a : Nat) (h : a ∉ cellAddrs cs) :
    (m.writeAll cs).read? a = m.read? a := by
  induction cs generalizing m with
  | nil => rfl
  | cons c cs ih =>
    obtain ⟨b, v⟩ := c
    simp only [cellAddrs_cons, List.mem_cons, not_or] at h
    exact (ih (m.write b v) h.2).trans (by simp [Memory.read?_write, h.1])

/-- A stored byte is read back, if no later one has its address. -/
theorem Memory.read?_writeAll_of_last (m : Memory) (xs ys : List Host.Cell) (a : Nat) (v : Byte)
    (h : a ∉ cellAddrs ys) : (m.writeAll (xs ++ (a, v) :: ys)).read? a = some v := by
  rw [Memory.writeAll_append]
  exact (Memory.read?_writeAll_of_not_mem _ ys a h).trans (by simp [Memory.read?_write])

/-- The bytes that are listed after a write are the old ones and the new one. -/
theorem Memory.mem_write {m : Memory} {a : Nat} {v : Byte} {c : Host.Cell} (h : c ∈ m.write a v) :
    c = (a, v) ∨ c ∈ m := by
  induction m with
  | nil => simpa [Memory.write] using h
  | cons d m ih =>
    obtain ⟨b, w⟩ := d
    simp only [Memory.write] at h
    split_ifs at h with h1 h2
    · simpa using h
    · rcases List.mem_cons.1 h with h | h
      · exact .inl h
      · exact .inr (List.mem_cons_of_mem _ h)
    · rcases List.mem_cons.1 h with h | h
      · exact .inr (h ▸ List.mem_cons_self)
      · exact (ih h).imp_right (List.mem_cons_of_mem _)

theorem Memory.mem_writeAll {m : Memory} {cs : List Host.Cell} {c : Host.Cell} (h : c ∈ m.writeAll cs) :
    c ∈ cs ∨ c ∈ m := by
  induction cs generalizing m with
  | nil => exact .inr h
  | cons d cs ih =>
    rcases ih h with h | h
    · exact .inl (List.mem_cons_of_mem _ h)
    · rcases Memory.mem_write h with h | h
      · exact .inl (h ▸ List.mem_cons_self)
      · exact .inr h

/-! ### The canonical form -/

theorem Memory.wf_cons {a : Nat} {v : Byte} {m : Memory} :
    Memory.wf ((a, v) :: m) = true ↔ (∀ c ∈ m, a < c.1) ∧ Memory.wf m = true := by
  induction m generalizing a v with
  | nil => simp [Memory.wf]
  | cons d m ih =>
    obtain ⟨b, w⟩ := d
    simp only [Memory.wf, Bool.and_eq_true, decide_eq_true_eq, List.mem_cons, forall_eq_or_imp]
    constructor
    · rintro ⟨h1, h2⟩
      exact ⟨⟨h1, fun c hc => h1.trans ((ih.1 h2).1 c hc)⟩, h2⟩
    · rintro ⟨⟨h1, _⟩, h2⟩
      exact ⟨h1, h2⟩

/-- A write keeps the canonical form. -/
theorem Memory.wf_write {m : Memory} (a : Nat) (v : Byte) (h : m.wf = true) : (m.write a v).wf = true := by
  induction m with
  | nil => rfl
  | cons d m ih =>
    obtain ⟨b, w⟩ := d
    have hm := Memory.wf_cons.1 h
    simp only [Memory.write]
    split_ifs with h1 h2
    · exact Memory.wf_cons.2 ⟨by
        intro c hc
        rcases List.mem_cons.1 hc with rfl | hc
        · exact h1
        · exact h1.trans (hm.1 c hc), h⟩
    · subst h2; exact Memory.wf_cons.2 hm
    · refine Memory.wf_cons.2 ⟨fun c hc => ?_, ih hm.2⟩
      rcases Memory.mem_write hc with rfl | hc
      · exact show b < a by omega
      · exact hm.1 c hc

/-- Every store keeps the canonical form. -/
theorem Memory.wf_writeAll {m : Memory} (cs : List Host.Cell) (h : m.wf = true) : (m.writeAll cs).wf = true := by
  induction cs generalizing m with
  | nil => exact h
  | cons c cs ih => exact ih (Memory.wf_write c.1 c.2 h)

/-- Memory has its canonical form after reset. -/
theorem reset_memory_wf : State.reset.mem.wf = true := rfl

/-! ### Bytes of the state -/

theorem State.byte_congr {s t : State} (hm : t.mem = s.mem) (hr : t.resets = s.resets) (a : Nat) :
    t.byte a = s.byte a := by
  simp [State.byte, hm, hr]

@[simp] theorem State.byte_setHead (s : State) (c : Chan) (h : EncHead) (a : Nat) : (s.setHead c h).byte a = s.byte a := rfl
@[simp] theorem State.byte_setIrq (s : State) (b : BitVec 4) (a : Nat) : (s.setIrq b).byte a = s.byte a := rfl
@[simp] theorem State.byte_answer (s : State) (w : Word) (a : Nat) : (s.answer w).byte a = s.byte a := rfl
@[simp] theorem State.byte_accept (s : State) (w : Word) (a : Nat) : (accept w s).byte a = s.byte a := rfl
@[simp] theorem State.byte_busError (s : State) (a : Nat) : (busError s).byte a = s.byte a := rfl
@[simp] theorem State.byte_softReset (s : State) (a : Nat) : (softReset s).byte a = s.byte a := rfl
@[simp] theorem State.byte_complete (slot : Half) (x : Execution) (a : Nat) :
    (complete slot x).byte a = x.after.byte a := State.byte_congr (by simp) (by simp) a

/-- A byte outside the stored ones reads as before. -/
theorem State.byte_store_of_not_mem (s : State) (cs : List Host.Cell) (a : Nat) (h : a ∉ cellAddrs cs) :
    (s.store cs).byte a = s.byte a := by
  simp [State.byte, Memory.read?_writeAll_of_not_mem _ _ _ h]

/-- The stored byte is read back, if no later one has its address. -/
theorem State.byte_store_of_last (s : State) (xs ys : List Host.Cell) (a : Nat) (v : Byte) (h : a ∉ cellAddrs ys) :
    (s.store (xs ++ (a, v) :: ys)).byte a = v := by
  simp [State.byte, Memory.read?_writeAll_of_last _ _ _ _ _ h]

theorem State.store_append (s : State) (xs ys : List Host.Cell) : s.store (xs ++ ys) = (s.store xs).store ys := by
  simp [State.store, Memory.writeAll_append]

/-! ### Little-endian fields -/

/-- A field reads the same in states whose bytes agree. -/
theorem State.readLE_congr {s t : State} {a n : Nat} (h : ∀ b, a ≤ b → b < a + n → t.byte b = s.byte b) :
    t.readLE a n = s.readLE a n := by
  induction n generalizing a with
  | zero => rfl
  | succ n ih =>
    simp only [State.readLE]
    rw [h a le_rfl (by omega), ih fun b h1 h2 => h b (by omega) (by omega)]

theorem State.readLE_lt (s : State) (a n : Nat) : s.readLE a n < 256 ^ n := by
  induction n generalizing a with
  | zero => simp [State.readLE]
  | succ n ih =>
    have h1 := ih (a + 1)
    have h2 : (s.byte a).toNat < 256 := (s.byte a).isLt
    simp only [State.readLE, pow_succ]
    omega

/-- The addresses of a field are the `n` from its own on. -/
theorem mem_cellAddrs_leCells {a n v b : Nat} : b ∈ cellAddrs (leCells a n v) ↔ a ≤ b ∧ b < a + n := by
  induction n generalizing a v with
  | zero => simp [leCells]
  | succ n ih =>
    simp only [leCells, cellAddrs_cons, List.mem_cons, ih]
    omega

/-- A field stored is read back, its low `n` bytes, if nothing stored later touches it. -/
theorem State.readLE_store (s : State) (xs ys : List Host.Cell) (a n v : Nat)
    (h : ∀ b, a ≤ b → b < a + n → b ∉ cellAddrs ys) :
    (s.store (xs ++ (leCells a n v ++ ys))).readLE a n = v % 256 ^ n := by
  induction n generalizing a v xs with
  | zero => simp [State.readLE, Nat.mod_one]
  | succ n ih =>
    have h1 : a ∉ cellAddrs (leCells (a + 1) n (v / 256) ++ ys) := by
      simp only [cellAddrs_append, List.mem_append, mem_cellAddrs_leCells, not_or]
      exact ⟨by omega, h a le_rfl (by omega)⟩
    have h2 := ih (xs ++ [(a, BitVec.ofNat 8 v)]) (a + 1) (v / 256) fun b h1 h2 => h b (by omega) (by omega)
    simp only [List.append_assoc, List.cons_append, List.nil_append] at h2
    simp only [leCells, List.cons_append, State.readLE, State.byte_store_of_last _ _ _ _ _ h1, h2]
    rw [pow_succ', Nat.mod_mul]
    simp

/-- A field outside the stored bytes reads as before. -/
theorem State.readLE_store_of_not_mem (s : State) (cs : List Host.Cell) (a n : Nat)
    (h : ∀ b, a ≤ b → b < a + n → b ∉ cellAddrs cs) : (s.store cs).readLE a n = s.readLE a n :=
  State.readLE_congr fun b h1 h2 => State.byte_store_of_not_mem s cs b (h b h1 h2)

/-! ### Arrays of elements -/

/-- The addresses of an array are those of its elements. -/
theorem mem_cellAddrs_arrayCells {addr : Nat → Nat} {n k : Nat} {vs : List Nat} {b : Nat} :
    b ∈ cellAddrs (arrayCells addr n k vs) ↔ ∃ i, i < vs.length ∧ addr (k + i) ≤ b ∧ b < addr (k + i) + n := by
  induction vs generalizing k with
  | nil => simp [arrayCells]
  | cons v vs ih =>
    simp only [arrayCells, cellAddrs_append, List.mem_append, mem_cellAddrs_leCells, ih, List.length_cons]
    constructor
    · rintro (h | ⟨i, hi, h⟩)
      · exact ⟨0, by omega, by simpa using h⟩
      · exact ⟨i + 1, by omega, by rwa [show k + (i + 1) = k + 1 + i by omega]⟩
    · rintro ⟨i, hi, h⟩
      cases i with
      | zero => exact .inl (by simpa using h)
      | succ i => exact .inr ⟨i, by omega, by rwa [show k + 1 + i = k + (i + 1) by omega]⟩

/-- An element of an array whose elements do not overlap is read back, if nothing stored later touches it. -/
theorem State.readLE_store_array (s : State) (xs ys : List Host.Cell) (addr : Nat → Nat) (n k : Nat) (vs : List Nat)
    (hs : ∀ i j, i < j → addr i + n ≤ addr j) (i v : Nat) (hv : vs[i]? = some v)
    (h : ∀ b, addr (k + i) ≤ b → b < addr (k + i) + n → b ∉ cellAddrs ys) :
    (s.store (xs ++ (arrayCells addr n k vs ++ ys))).readLE (addr (k + i)) n = v % 256 ^ n := by
  induction vs generalizing k i xs with
  | nil => simp at hv
  | cons w vs ih =>
    cases i with
    | zero =>
      simp only [List.getElem?_cons_zero, Option.some.injEq] at hv
      subst hv
      simp only [arrayCells, List.append_assoc, Nat.add_zero]
      refine State.readLE_store s xs _ _ n w fun b h1 h2 => ?_
      simp only [cellAddrs_append, List.mem_append, mem_cellAddrs_arrayCells, not_or, not_exists, not_and, not_lt]
      refine ⟨fun i hi h3 => ?_, h b (by simpa using h1) (by simpa using h2)⟩
      have := hs k (k + 1 + i) (by omega)
      omega
    | succ i =>
      simp only [List.getElem?_cons_succ] at hv
      have h3 := ih (k := k + 1) (xs := xs ++ leCells (addr k) n w) i hv (fun b h1 h2 => h b
        (by rwa [show k + (i + 1) = k + 1 + i by omega]) (by rwa [show k + (i + 1) = k + 1 + i by omega]))
      simp only [arrayCells, List.append_assoc] at h3 ⊢
      rwa [show k + (i + 1) = k + 1 + i by omega]

/-! ### Coefficients -/

theorem coefBytes_pos (p : Params) : 0 < coefBytes p := by unfold coefBytes; split <;> decide

theorem coefBytes_cases (p : Params) : coefBytes p = 4 ∨ coefBytes p = 8 := by
  unfold coefBytes; split <;> simp

theorem pow_coefBytes (p : Params) : 256 ^ coefBytes p = 2 ^ coefW p := by
  unfold coefBytes coefW; split <;> rfl

theorem two_pow_coefW_le (p : Params) : 2 ^ coefW p ≤ 2 ^ 64 := by
  unfold coefW; split <;> decide

/-- A coefficient read from memory is a COEF_W-bit pattern. -/
theorem State.coef_lt (s : State) (a : Nat) : (s.coef a).toNat < 2 ^ coefW s.params := by
  have h := s.readLE_lt a (coefBytes s.params)
  rw [pow_coefBytes] at h
  simp only [State.coef, BitVec.toNat_ofNat]
  exact lt_of_le_of_lt (Nat.mod_le _ _) h

theorem State.coef_congr {s t : State} {a : Nat} (hp : t.params = s.params)
    (h : ∀ b, a ≤ b → b < a + coefBytes s.params → t.byte b = s.byte b) : t.coef a = s.coef a := by
  simp [State.coef, hp, State.readLE_congr h]

theorem State.half_congr {s t : State} {a : Nat} (h : ∀ b, a ≤ b → b < a + 2 → t.byte b = s.byte b) :
    t.half a = s.half a := by
  simp [State.half, State.readLE_congr h]

@[simp] theorem State.coef_setHead (s : State) (c : Chan) (h : EncHead) (a : Nat) : (s.setHead c h).coef a = s.coef a :=
  State.coef_congr rfl fun _ _ _ => rfl
@[simp] theorem State.half_setHead (s : State) (c : Chan) (h : EncHead) (a : Nat) : (s.setHead c h).half a = s.half a :=
  State.half_congr fun _ _ _ => rfl
@[simp] theorem State.inv_setHead (s : State) (c d : Chan) (h : EncHead) (k : Nat) :
    (s.setHead c h).inv d k = s.inv d k := State.coef_setHead s c h _
@[simp] theorem State.seq_setHead (s : State) (c d : Chan) (h : EncHead) (k : Nat) :
    (s.setHead c h).seq d k = s.seq d k := State.coef_setHead s c h _
@[simp] theorem State.blkIn_setHead (s : State) (c d : Chan) (h : EncHead) (k : Nat) :
    (s.setHead c h).blkIn d k = s.blkIn d k := State.coef_setHead s c h _
@[simp] theorem State.blkOut_setHead (s : State) (c d : Chan) (h : EncHead) (k : Nat) :
    (s.setHead c h).blkOut d k = s.blkOut d k := State.coef_setHead s c h _
@[simp] theorem State.tupCode_setHead (s : State) (c d : Chan) (h : EncHead) (k : Nat) :
    (s.setHead c h).tupCode d k = s.tupCode d k := State.half_setHead s c h _
@[simp] theorem State.tupRun_setHead (s : State) (c d : Chan) (h : EncHead) (k : Nat) :
    (s.setHead c h).tupRun d k = s.tupRun d k := State.half_setHead s c h _

/-- The elements read the same in states of one build whose bytes agree. -/
theorem State.elements_congr {s t : State} (hp : t.params = s.params) (hb : ∀ a, t.byte a = s.byte a) (c : Chan)
    (k : Nat) :
    t.blkIn c k = s.blkIn c k ∧ t.blkOut c k = s.blkOut c k ∧ t.seq c k = s.seq c k ∧ t.inv c k = s.inv c k ∧
      t.tupCode c k = s.tupCode c k ∧ t.tupRun c k = s.tupRun c k := by
  have h1 : ∀ a, t.coef a = s.coef a := fun a => State.coef_congr hp fun b _ _ => hb b
  have h2 : ∀ a, t.half a = s.half a := fun a => State.half_congr fun b _ _ => hb b
  simp [State.blkIn, State.blkOut, State.seq, State.inv, State.tupCode, State.tupRun, hp, h1, h2]

/-- What a coefficient field holds, in terms of its bytes read as a number. -/
theorem State.coef_eq_of_readLE {s : State} {a : Nat} {v : Coef} (hv : v.toNat < 2 ^ coefW s.params)
    (h : s.readLE a (coefBytes s.params) = v.toNat % 256 ^ coefBytes s.params) : s.coef a = v := by
  rw [pow_coefBytes, Nat.mod_eq_of_lt hv] at h
  simp [State.coef, h]

theorem State.half_eq_of_readLE {s : State} {a n : Nat} (h : s.readLE a 2 = n % 256 ^ 2) :
    s.half a = BitVec.ofNat 16 n := by
  apply BitVec.eq_of_toNat_eq
  simp [State.half, h]

/-- An element of a stored coefficient array is read back. -/
theorem State.coef_store_coefCells (s : State) (addr : Nat → Nat) (vs : List Coef) (ys : List Host.Cell)
    (hs : ∀ i j, i < j → addr i + coefBytes s.params ≤ addr j) (i : Nat) (v : Coef) (hv : vs[i]? = some v)
    (hw : v.toNat < 2 ^ coefW s.params)
    (h : ∀ b, addr i ≤ b → b < addr i + coefBytes s.params → b ∉ cellAddrs ys) :
    (s.store (coefCells s.params addr vs ++ ys)).coef (addr i) = v := by
  refine State.coef_eq_of_readLE (by simpa using hw) ?_
  have h1 := State.readLE_store_array s [] ys addr (coefBytes s.params) 0 (vs.map (·.toNat)) hs i v.toNat
    (by simp [hv]) (by simpa using h)
  simpa [coefCells] using h1

/-- The addresses of a stored coefficient array. -/
theorem mem_cellAddrs_coefCells {p : Params} {addr : Nat → Nat} {vs : List Coef} {b : Nat} :
    b ∈ cellAddrs (coefCells p addr vs) ↔ ∃ i, i < vs.length ∧ addr i ≤ b ∧ b < addr i + coefBytes p := by
  simp [coefCells, mem_cellAddrs_arrayCells]

theorem mem_cellAddrs_zeroCells {a n b : Nat} : b ∈ cellAddrs (zeroCells a n) ↔ a ≤ b ∧ b < a + n := by
  induction n generalizing a with
  | zero => simp [zeroCells]
  | succ n ih =>
    simp only [zeroCells, cellAddrs_cons, List.mem_cons, ih]
    omega

end Sys2Proof.Machine
end

