-- ==== Sys2Proof/Laws/Codec.lean ====
section
/-! SUPPORT. The codec's pure parts: the run decomposition (42_rle_encode.md R140), the canonical order
(41_freq_table.md R132) and the order key (R131). -/

namespace Sys2Proof.Machine
open Sys2Proof

/-! ### Runs -/

/-- Writing r copies of v for each (v, r). -/
def expand (rs : List (Coef × Nat)) : List Coef := rs.flatMap fun r => List.replicate r.2 r.1

@[simp] theorem expand_nil : expand [] = [] := rfl
@[simp] theorem expand_cons (v : Coef) (r : Nat) (rs : List (Coef × Nat)) :
    expand ((v, r) :: rs) = List.replicate r v ++ expand rs := rfl

/-- One more element in front of a decomposition. -/
theorem runs_cons (v : Coef) (vs : List Coef) :
    runs (v :: vs) =
      match runs vs with
      | [] => [(v, 1)]
      | (u, r) :: rest => if v = u then (u, r + 1) :: rest else (v, 1) :: (u, r) :: rest := rfl

/-- The runs give the list back. -/
theorem expand_runs (l : List Coef) : expand (runs l) = l := by
  induction l with
  | nil => rfl
  | cons v vs ih =>
    rw [runs_cons]
    split
    · next h => rw [h] at ih; simp [← ih]
    · next u r rest h =>
      rw [h] at ih
      split_ifs with huv
      · subst huv
        rw [expand_cons, List.replicate_succ, List.cons_append, ← expand_cons, ih]
      · simp only [expand_cons] at ih ⊢
        simp [ih]

/-- Every run has at least one element. -/
theorem runs_pos {l : List Coef} : ∀ r ∈ runs l, 1 ≤ r.2 := by
  induction l with
  | nil => simp [runs]
  | cons v vs ih =>
    rw [runs_cons]
    split
    · simp
    · next u r rest h =>
      rw [h] at ih
      split_ifs
      · intro x hx
        rcases List.mem_cons.1 hx with rfl | hx
        · exact Nat.le_add_left _ _
        · exact ih x (List.mem_cons_of_mem _ hx)
      · intro x hx
        rcases List.mem_cons.1 hx with rfl | hx
        · exact le_rfl
        · exact ih x hx

/-- Adjacent runs have different values. -/
theorem runs_chain (l : List Coef) : (runs l).IsChain fun a b => a.1 ≠ b.1 := by
  induction l with
  | nil => simp [runs]
  | cons v vs ih =>
    rw [runs_cons]
    split
    · simp
    · next u r rest h =>
      rw [h] at ih
      split_ifs with huv
      · cases rest with
        | nil => simp
        | cons b rest =>
          rw [List.isChain_cons_cons] at ih ⊢
          exact ih
      · rw [List.isChain_cons_cons]
        exact ⟨huv, ih⟩

/-- The decomposition of a run followed by runs of other values. -/
theorem runs_replicate_append (v : Coef) (r : Nat) (hr : 1 ≤ r) (vs : List Coef)
    (h : ∀ u k rest, runs vs = (u, k) :: rest → v ≠ u) :
    runs (List.replicate r v ++ vs) = (v, r) :: runs vs := by
  induction r with
  | zero => omega
  | succ r ih =>
    cases r with
    | zero =>
      simp only [zero_add, List.replicate_one, List.singleton_append, runs_cons]
      split
      · next h1 => rw [h1]
      · next u k rest h1 => rw [h1, if_neg (h u k rest h1)]
    | succ r =>
      rw [List.replicate_succ, List.cons_append, runs_cons, ih (by omega)]
      simp

/-- Runs is the only decomposition into maximal repetitions (R140). -/
theorem runs_unique {rs : List (Coef × Nat)} (h1 : ∀ r ∈ rs, 1 ≤ r.2) (h2 : rs.IsChain fun a b => a.1 ≠ b.1) :
    runs (expand rs) = rs := by
  induction rs with
  | nil => rfl
  | cons a rs ih =>
    obtain ⟨v, r⟩ := a
    have ih' := ih (fun x hx => h1 x (List.mem_cons_of_mem _ hx)) h2.tail
    rw [expand_cons, runs_replicate_append v r (h1 (v, r) List.mem_cons_self), ih']
    intro u k rest h
    rw [ih'] at h
    subst h
    exact (List.isChain_cons_cons.1 h2).1

theorem runs_length_le (l : List Coef) : (runs l).length ≤ l.length := by
  induction l with
  | nil => simp [runs]
  | cons v vs ih =>
    rw [runs_cons]
    split
    · simp
    · next u r rest h =>
      rw [h] at ih
      split_ifs <;> simp at ih ⊢ <;> omega

/-- The run lengths sum to the list's length. -/
theorem runs_sum (l : List Coef) : ((runs l).map (·.2)).sum = l.length := by
  have h : ∀ rs : List (Coef × Nat), (rs.map (·.2)).sum = (expand rs).length := by
    intro rs
    induction rs with
    | nil => rfl
    | cons a rs ih => obtain ⟨v, r⟩ := a; simp [ih]
  rw [h, expand_runs]

/-- A run's value is in the list, and its length is at most the list's. -/
theorem runs_mem {l : List Coef} {r : Coef × Nat} (h : r ∈ runs l) : r.1 ∈ l ∧ r.2 ≤ l.length := by
  constructor
  · rw [← expand_runs l]
    exact List.mem_flatMap.2 ⟨r, h, List.mem_replicate.2 ⟨by have := runs_pos r h; omega, rfl⟩⟩
  · rw [← runs_sum l]
    exact List.le_sum_of_mem (List.mem_map.2 ⟨r, h, rfl⟩)

/-! ### The order key -/

theorem getLsbD_of_lt {v : Coef} {k : Nat} (h : v.toNat < 2 ^ (k + 1)) :
    v.getLsbD k = decide (2 ^ k ≤ v.toNat) := by
  rw [BitVec.getLsbD, Nat.testBit_eq_decide_div_mod_eq]
  have h1 : v.toNat / 2 ^ k < 2 := Nat.div_lt_of_lt_mul (by rw [← pow_succ]; exact h)
  have h2 : v.toNat / 2 ^ k = 1 ↔ 2 ^ k ≤ v.toNat := by
    constructor
    · intro h3
      by_contra h4
      rw [Nat.div_eq_of_lt (not_le.1 h4)] at h3
      omega
    · intro h3
      have := (Nat.one_le_div_iff (Nat.two_pow_pos k)).2 h3
      omega
  rw [Nat.mod_eq_of_lt h1, decide_eq_decide]
  exact h2

/-- The key of a COEF_W-bit pattern, as arithmetic (R131). -/
theorem key_eq (p : Params) {v : Coef} (h : v.toNat < 2 ^ coefW p) :
    key p v = if v.toNat < 2 ^ (coefW p - 1) then v.toNat + 2 ^ (coefW p - 1) else 2 ^ coefW p - 1 - v.toNat := by
  have core : ∀ (k : Nat) (mask : Coef), k < 64 → v.toNat < 2 ^ (k + 1) → mask.toNat = 2 ^ (k + 1) - 1 →
      (if v &&& BitVec.twoPow 64 k = 0 then (v ^^^ BitVec.twoPow 64 k).toNat else (~~~v &&& mask).toNat) =
        if v.toNat < 2 ^ k then v.toNat + 2 ^ k else 2 ^ (k + 1) - 1 - v.toNat := by
    intro k mask hk hv hm
    have hle : 2 ^ (k + 1) ≤ 2 ^ 64 := Nat.pow_le_pow_right (by decide) (by omega)
    have h2k : 2 ^ (k + 1) = 2 ^ k + 2 ^ k := by rw [pow_succ]; omega
    have htp : (BitVec.twoPow 64 k).toNat = 2 ^ k := by
      rw [BitVec.toNat_twoPow, Nat.mod_eq_of_lt]
      omega
    rw [BitVec.and_twoPow, getLsbD_of_lt hv]
    by_cases hc : v.toNat < 2 ^ k
    · have hand : v &&& BitVec.twoPow 64 k = 0 := by
        rw [BitVec.and_twoPow, getLsbD_of_lt hv]
        simp [not_le.2 hc]
      have hxor : v ^^^ BitVec.twoPow 64 k = v + BitVec.twoPow 64 k := by
        rw [BitVec.add_eq_or_of_and_eq_zero _ _ hand]
        apply BitVec.eq_of_getLsbD_eq
        intro i hi
        have := congrArg (fun x : Coef => x.getLsbD i) hand
        simp only [BitVec.getLsbD_and] at this
        simp only [BitVec.getLsbD_xor, BitVec.getLsbD_or]
        revert this
        cases v.getLsbD i <;> cases (BitVec.twoPow 64 k).getLsbD i <;> simp
      simp only [not_le.2 hc, decide_false, Bool.false_eq_true, if_false, hc, if_true, hxor, BitVec.toNat_add, htp]
      exact Nat.mod_eq_of_lt (by omega)
    · have hne : BitVec.twoPow 64 k ≠ 0 := fun h0 => by
        rw [h0] at htp
        have := Nat.two_pow_pos k
        simp at htp
        omega
      simp only [not_lt.1 hc, decide_true, if_true, hc, if_false]
      rw [if_neg hne, BitVec.toNat_and, BitVec.toNat_not, hm, Nat.and_two_pow_sub_one_eq_mod]
      have h64 : (2 : Nat) ^ 64 = 2 ^ (k + 1) * 2 ^ (63 - k) := by rw [← pow_add]; congr 1; omega
      have hpos := Nat.two_pow_pos (63 - k)
      obtain ⟨q, hq⟩ : ∃ q, 2 ^ (63 - k) = q + 1 := ⟨2 ^ (63 - k) - 1, by omega⟩
      have : 2 ^ 64 - 1 - v.toNat = 2 ^ (k + 1) - 1 - v.toNat + 2 ^ (k + 1) * q := by
        rw [h64, hq, Nat.mul_add, Nat.mul_one]; omega
      rw [this, Nat.add_mul_mod_self_left]
      exact Nat.mod_eq_of_lt (by omega)
  unfold key
  cases hp : p.coef64
  · have := core 31 0xFFFFFFFF (by decide) (by simpa [coefW, hp] using h) (by decide)
    simpa [negZero, coefMask, coefW, hp, show (0x80000000 : Coef) = BitVec.twoPow 64 31 by decide] using this
  · have := core 63 0xFFFFFFFFFFFFFFFF (by decide) (by simpa [coefW, hp] using h) (by decide)
    simpa [negZero, coefMask, coefW, hp, show (0x8000000000000000 : Coef) = BitVec.twoPow 64 63 by decide] using this

theorem coefW_pos (p : Params) : 2 ^ coefW p = 2 ^ (coefW p - 1) + 2 ^ (coefW p - 1) := by
  unfold coefW; split <;> decide

theorem key_lt (p : Params) {v : Coef} (h : v.toNat < 2 ^ coefW p) : key p v < 2 ^ coefW p := by
  have := coefW_pos p
  rw [key_eq p h]
  split_ifs <;> omega

/-- The key is injective on COEF_W-bit patterns (R131). -/
theorem key_inj (p : Params) {u v : Coef} (hu : u.toNat < 2 ^ coefW p) (hv : v.toNat < 2 ^ coefW p)
    (h : key p u = key p v) : u = v := by
  have := coefW_pos p
  rw [key_eq p hu, key_eq p hv] at h
  apply BitVec.eq_of_toNat_eq
  split_ifs at h <;> omega

/-! ### The canonical order -/

/-- The AC values are COEF_W-bit patterns. -/
def inWidth (p : Params) (ac : List Coef) : Prop := ∀ v ∈ ac, v.toNat < 2 ^ coefW p

theorem canonBefore_iff {p : Params} {ac : List Coef} {u v : Coef} :
    canonBefore p ac u v = true ↔ ac.count v < ac.count u ∨ (ac.count u = ac.count v ∧ key p u < key p v) := by
  simp [canonBefore]

theorem canonBefore_irrefl {p : Params} {ac : List Coef} (u : Coef) : canonBefore p ac u u = false := by
  simp [canonBefore]

theorem canonBefore_asymm {p : Params} {ac : List Coef} {u v : Coef} (h : canonBefore p ac u v = true) :
    canonBefore p ac v u = false := by
  rw [← Bool.not_eq_true, canonBefore_iff]
  rw [canonBefore_iff] at h
  omega

theorem mem_canonOrder {p : Params} {ac : List Coef} {v : Coef} : v ∈ canonOrder p ac ↔ v ∈ ac := by
  rw [canonOrder, (List.perm_insertionSort _ _).mem_iff, List.mem_dedup]

theorem canonOrder_nodup (p : Params) (ac : List Coef) : (canonOrder p ac).Nodup :=
  (List.perm_insertionSort _ _).nodup_iff.2 (List.nodup_dedup ac)

theorem canonOrder_length (p : Params) (ac : List Coef) : (canonOrder p ac).length = ac.dedup.length :=
  (List.perm_insertionSort _ _).length_eq

theorem canonOrder_length_le (p : Params) (ac : List Coef) : (canonOrder p ac).length ≤ ac.length :=
  (canonOrder_length p ac).trans_le (List.dedup_sublist ac).length_le

theorem canonOrder_length_eq_card (p : Params) (ac : List Coef) : (canonOrder p ac).length = ac.toFinset.card := by
  rw [canonOrder_length, List.card_toFinset]

/-- The canonical order is sorted by `before` (R132). -/
theorem canonOrder_pairwise (p : Params) {ac : List Coef} (h : inWidth p ac) :
    (canonOrder p ac).Pairwise fun u v => canonBefore p ac u v = true := by
  have total : Std.Total fun u v => canonBefore p ac v u = false :=
    ⟨fun u v => by
      by_cases h1 : canonBefore p ac v u = false
      · exact .inl h1
      · exact .inr (canonBefore_asymm (by simpa using h1))⟩
  have trans : IsTrans Coef fun u v => canonBefore p ac v u = false :=
    ⟨fun u v w h1 h2 => by
      rw [← Bool.not_eq_true, canonBefore_iff] at h1 h2 ⊢
      omega⟩
  have hs := List.pairwise_insertionSort (fun u v => canonBefore p ac v u = false) ac.dedup
  have hn := canonOrder_nodup p ac
  refine (hs.and hn).imp_of_mem fun {u v} hu hv huv => ?_
  obtain ⟨h1, h2⟩ := huv
  have hu' := h u (mem_canonOrder.1 hu)
  have hv' := h v (mem_canonOrder.1 hv)
  rw [← Bool.not_eq_true, canonBefore_iff] at h1
  rw [canonBefore_iff]
  have : key p u ≠ key p v := fun h3 => h2 (key_inj p hu' hv' h3)
  omega

/-- The canonical order is the only list of the distinct values sorted by `before` (R132). -/
theorem canonOrder_unique (p : Params) {ac l : List Coef} (h : inWidth p ac) (hm : ∀ v, v ∈ l ↔ v ∈ ac)
    (hp : l.Pairwise fun u v => canonBefore p ac u v = true) : l = canonOrder p ac := by
  have irr : ∀ {k : List Coef}, k.Pairwise (fun u v => canonBefore p ac u v = true) → k.Nodup := fun hk =>
    hk.imp fun {u v} huv e => by subst e; simp [canonBefore_irrefl] at huv
  refine List.Perm.eq_of_pairwise (le := fun u v => canonBefore p ac u v = true) ?_ hp (canonOrder_pairwise p h) ?_
  · intro u v _ _ h1 h2
    rw [canonBefore_asymm h1] at h2
    exact absurd h2 (by simp)
  · exact (List.perm_ext_iff_of_nodup (irr hp) (canonOrder_nodup p ac)).2 fun v => (hm v).trans mem_canonOrder.symm

end Sys2Proof.Machine
end

