-- ==== Sys2Proof/Laws/Layout.lean ====
section
/-! SUPPORT. The geometry of the aperture: bounds of the sizes, the elements' addresses, and which windows lie
apart (20_memory.md R66 to R73). -/

namespace Sys2Proof.Machine
open Sys2Proof

theorem align8_bounds (x : Nat) : x ≤ align8 x ∧ align8 x < x + 8 := by unfold align8; omega

/-- What a legal build bounds (00_scope.md R7, R8). -/
theorem legalBuild_iff (p : Params) :
    legalBuild p = true ↔ 2 ≤ p.nMax ∧ p.nMax ≤ 1024 ∧ 1 ≤ p.nSlot ∧ p.nSlot ≤ 65535 ∧
      p.nSlot * slotBytes p ≤ 0x100000 := by
  simp [legalBuild, and_assoc]

theorem cap_lt {p : Params} (h : legalBuild p = true) : cap p + 1 = p.nMax ∧ cap p ≤ 1023 := by
  have := (legalBuild_iff p).1 h
  unfold cap
  omega

/-- A LEN within N_MAX leaves at most CAP AC positions. -/
theorem pred_le_cap {p : Params} {n : Nat} (h : n ≤ p.nMax) : n - 1 ≤ cap p := by unfold cap; omega

theorem seqAddr_stride (p : Params) (c : Chan) (i j : Nat) (h : i < j) :
    seqAddr p c i + coefBytes p ≤ seqAddr p c j := by
  unfold seqAddr
  rcases coefBytes_cases p with hb | hb <;> rw [hb] <;> omega

theorem invAddr_stride (p : Params) (c : Chan) (i j : Nat) (h : i < j) :
    invAddr p c i + coefBytes p ≤ invAddr p c j := by
  unfold invAddr
  rcases coefBytes_cases p with hb | hb <;> rw [hb] <;> omega

theorem blkOutAddr_stride (p : Params) (c : Chan) (i j : Nat) (h : i < j) :
    blkOutAddr p c i + coefBytes p ≤ blkOutAddr p c j := by
  unfold blkOutAddr
  rcases coefBytes_cases p with hb | hb <;> rw [hb] <;> omega

/-- An element of SEQ below `n` lies in the first `n` elements' bytes. -/
theorem seqAddr_in (p : Params) (c : Chan) (n b : Nat) :
    (∃ i, i < n ∧ seqAddr p c i ≤ b ∧ b < seqAddr p c i + coefBytes p) ↔
      seqAddr p c 0 ≤ b ∧ b < seqAddr p c 0 + n * coefBytes p := by
  unfold seqAddr
  rcases coefBytes_cases p with hb | hb <;> rw [hb]
  · exact ⟨by rintro ⟨i, hi, h1, h2⟩; omega,
      fun h => ⟨(b - (0x030000 + 0x2000 * Chan.idx c)) / 4, by omega, by omega, by omega⟩⟩
  · exact ⟨by rintro ⟨i, hi, h1, h2⟩; omega,
      fun h => ⟨(b - (0x030000 + 0x2000 * Chan.idx c)) / 8, by omega, by omega, by omega⟩⟩

/-- An element of INV below `n` lies in the first `n` elements' bytes. -/
theorem invAddr_in (p : Params) (c : Chan) (n b : Nat) :
    (∃ i, i < n ∧ invAddr p c i ≤ b ∧ b < invAddr p c i + coefBytes p) ↔
      invAddr p c 0 ≤ b ∧ b < invAddr p c 0 + n * coefBytes p := by
  unfold invAddr
  rcases coefBytes_cases p with hb | hb <;> rw [hb]
  · exact ⟨by rintro ⟨i, hi, h1, h2⟩; omega,
      fun h => ⟨(b - (encBase c + 0x2000)) / 4, by omega, by omega, by omega⟩⟩
  · exact ⟨by rintro ⟨i, hi, h1, h2⟩; omega,
      fun h => ⟨(b - (encBase c + 0x2000)) / 8, by omega, by omega, by omega⟩⟩

/-- BLK_IN's used bytes: below 0x016000. -/
theorem blkInAddr_bounds {p : Params} {c : Chan} {i : Nat} (h : legalBuild p = true) (hi : i < p.nMax) :
    0x010000 ≤ blkInAddr p c i ∧ blkInAddr p c i + coefBytes p ≤ 0x010000 + 3 * coefBytes p * p.nMax ∧
      blkInAddr p c i + coefBytes p ≤ 0x016000 := by
  have := (legalBuild_iff p).1 h
  have := Chan.idx_lt c
  unfold blkInAddr
  rcases coefBytes_cases p with hb | hb <;> rw [hb] <;> omega

/-- BLK_OUT's used bytes: from 0x020000 to 0x026000. -/
theorem blkOutAddr_bounds {p : Params} {c : Chan} {i : Nat} (h : legalBuild p = true) (hi : i < p.nMax) :
    0x020000 ≤ blkOutAddr p c i ∧ blkOutAddr p c i + coefBytes p ≤ 0x020000 + 3 * coefBytes p * p.nMax ∧
      blkOutAddr p c i + coefBytes p ≤ 0x026000 := by
  have := (legalBuild_iff p).1 h
  have := Chan.idx_lt c
  unfold blkOutAddr
  rcases coefBytes_cases p with hb | hb <;> rw [hb] <;> omega

/-- SEQ's used bytes of channel c: inside its sub-window of 0x2000. -/
theorem seqAddr_bounds {p : Params} {c : Chan} {i : Nat} (h : legalBuild p = true) (hi : i < p.nMax) :
    0x030000 + 0x2000 * Chan.idx c ≤ seqAddr p c i ∧
      seqAddr p c i + coefBytes p ≤ 0x030000 + 0x2000 * Chan.idx c + coefBytes p * p.nMax ∧
      coefBytes p * p.nMax ≤ 0x2000 := by
  have := (legalBuild_iff p).1 h
  unfold seqAddr
  rcases coefBytes_cases p with hb | hb <;> rw [hb] <;> omega

/-- TUP's used bytes of channel c: inside its sub-window, below INV. -/
theorem tupAddr_bounds {p : Params} {c : Chan} {k : Nat} (h : legalBuild p = true) (hk : k < cap p) :
    encBase c + 0x1000 ≤ tupAddr c k ∧ tupAddr c k + 4 ≤ encBase c + 0x1000 + 4 * cap p ∧ 4 * cap p < 0x1000 := by
  have := cap_lt h
  unfold tupAddr
  omega

/-- INV's used bytes of channel c: inside its sub-window of 0x4000. -/
theorem invAddr_bounds {p : Params} {c : Chan} {k : Nat} (h : legalBuild p = true) (hk : k < cap p) :
    encBase c + 0x2000 ≤ invAddr p c k ∧
      invAddr p c k + coefBytes p ≤ encBase c + 0x2000 + coefBytes p * cap p ∧ coefBytes p * cap p < 0x2000 := by
  have := cap_lt h
  unfold invAddr
  rcases coefBytes_cases p with hb | hb <;> rw [hb] <;> omega

/-- The sub-windows of ENC lie one after another, from 0x040000 to 0x04C000. -/
theorem encBase_bounds (c : Chan) : 0x040000 ≤ encBase c ∧ encBase c + 0x4000 ≤ 0x04C000 := by
  have := Chan.idx_lt c
  unfold encBase
  omega

theorem encBase_apart {c d : Chan} (h : c ≠ d) : encBase c + 0x4000 ≤ encBase d ∨ encBase d + 0x4000 ≤ encBase c := by
  have : Chan.idx c ≠ Chan.idx d := fun e => h (Chan.idx_inj e)
  unfold encBase
  omega

/-! ### Slots -/

/-- The parts of a channel section in order: lengths, tuples, table codes, padding, table values, padding. -/
theorem section_bounds (p : Params) :
    tcOff p = 4 + 4 * cap p ∧ 4 + 6 * cap p ≤ tvOff p ∧ tvOff p + coefBytes p * cap p ≤ chBytes p ∧
      3 * coefBytes p ≤ dcBytes p ∧ slotBytes p = dcBytes p + 3 * chBytes p := by
  have h1 := align8_bounds (4 + 6 * cap p)
  have h2 := align8_bounds (tvOff p + coefBytes p * cap p)
  have h3 := align8_bounds (3 * coefBytes p)
  refine ⟨rfl, ?_, ?_, ?_, rfl⟩ <;> simp only [tvOff, chBytes, dcBytes] at * <;> omega

/-- A slot of the build lies in TR. -/
theorem slot_bounds {p : Params} {s : Nat} (h : legalBuild p = true) (hs : s < p.nSlot) :
    0x100000 ≤ trAddr p s 0 ∧ trAddr p s 0 + slotBytes p ≤ 0x100000 + p.nSlot * slotBytes p ∧
      trAddr p s 0 + slotBytes p ≤ 0x200000 := by
  have h1 := (legalBuild_iff p).1 h
  have h2 : (s + 1) * slotBytes p ≤ p.nSlot * slotBytes p := Nat.mul_le_mul_right _ hs
  rw [Nat.add_mul, Nat.one_mul] at h2
  unfold trAddr
  omega

theorem trAddr_add (p : Params) (s a b : Nat) : trAddr p s (a + b) = trAddr p s a + b := by unfold trAddr; omega

theorem secAddr_eq (p : Params) (s : Nat) (c : Chan) (off : Nat) :
    secAddr p s c off = trAddr p s 0 + dcBytes p + Chan.idx c * chBytes p + off := by
  unfold secAddr trAddr chOff; omega

theorem trDcAddr_eq (p : Params) (s : Nat) (c : Chan) :
    trDcAddr p s c = trAddr p s 0 + coefBytes p * Chan.idx c := by
  unfold trDcAddr trAddr; omega

/-- A channel section lies in its slot, behind the DC section, and the sections of two channels lie apart. -/
theorem sec_in_slot (p : Params) (s : Nat) (c : Chan) :
    trAddr p s 0 + dcBytes p ≤ secAddr p s c 0 ∧ secAddr p s c 0 + chBytes p ≤ trAddr p s 0 + slotBytes p := by
  have := (section_bounds p).2.2.2.2
  rw [secAddr_eq, this]
  cases c <;> simp only [Chan.idx] <;> omega

theorem sec_apart (p : Params) (s : Nat) {c d : Chan} (h : c ≠ d) :
    secAddr p s c 0 + chBytes p ≤ secAddr p s d 0 ∨ secAddr p s d 0 + chBytes p ≤ secAddr p s c 0 := by
  simp only [secAddr_eq]
  cases c <;> cases d <;> simp only [Chan.idx] <;> first | exact absurd rfl h | omega

theorem trDc_in_slot (p : Params) (s : Nat) (c : Chan) :
    trAddr p s 0 ≤ trDcAddr p s c ∧ trDcAddr p s c + coefBytes p ≤ trAddr p s 0 + 3 * coefBytes p := by
  rw [trDcAddr_eq]
  cases c <;> simp only [Chan.idx] <;> omega

end Sys2Proof.Machine
end

