-- ==== Sys2Proof/Laws/Commits.lean ====
section
/-! SUPPORT. What each commit phase leaves: the elements it stores, and every byte outside them as before
(30_encoding.md R111). Proofs about the commands cite these instead of unfolding the stores. -/

namespace Sys2Proof.Machine
open Sys2Proof

/-! ### Patterns in width -/

theorem norm_lt {p : Params} {v : Coef} (h : v.toNat < 2 ^ coefW p) : (norm p v).toNat < 2 ^ coefW p := by
  unfold norm
  split_ifs
  · simp
  · exact h

theorem acSeq_inWidth (s : State) (c : Chan) (n : Nat) : inWidth s.params (s.acSeq c n) := by
  intro v hv
  obtain ⟨i, _, rfl⟩ := List.mem_map.1 hv
  exact s.coef_lt _

@[simp] theorem acSeq_length (s : State) (c : Chan) (n : Nat) : (s.acSeq c n).length = n - 1 := by
  simp [State.acSeq]

theorem mem_acSeq {s : State} {c : Chan} {n : Nat} {v : Coef} :
    v ∈ s.acSeq c n ↔ ∃ i, 1 ≤ i ∧ i < n ∧ s.seq c i = v := by
  simp only [State.acSeq, List.mem_map, List.mem_range]
  constructor
  · rintro ⟨i, hi, rfl⟩; exact ⟨i + 1, by omega, by omega, rfl⟩
  · rintro ⟨i, h1, h2, rfl⟩; exact ⟨i - 1, by omega, by rw [Nat.sub_add_cancel h1]⟩

/-! ### The forward table -/

/-- FWD answers the least code whose value is the pattern (10_state.md R44). -/
theorem fwd_eq_some {s : State} {c : Chan} {v : Coef} {k : Nat} :
    s.fwd c v = some k ↔ k < (s.head c).ndist.toNat ∧ s.inv c k = v ∧ ∀ j, j < k → s.inv c j ≠ v := by
  rw [State.fwd, List.find?_range_eq_some]
  simp only [beq_iff_eq, List.mem_range, Bool.not_eq_true', beq_eq_false_iff_ne]
  tauto

theorem fwd_eq_none {s : State} {c : Chan} {v : Coef} :
    s.fwd c v = none ↔ ∀ k, k < (s.head c).ndist.toNat → s.inv c k ≠ v := by
  simp [State.fwd]

theorem fwd_isSome {s : State} {c : Chan} {v : Coef} :
    (s.fwd c v).isSome = true ↔ ∃ k, k < (s.head c).ndist.toNat ∧ s.inv c k = v := by
  rw [← not_iff_not, Bool.not_eq_true, Option.isSome_eq_false_iff, Option.isNone_iff_eq_none, fwd_eq_none]
  simp

/-- FWD reads the table alone. -/
theorem fwd_congr {s t : State} {c : Chan} (hn : (t.head c).ndist = (s.head c).ndist)
    (hi : ∀ k, k < (s.head c).ndist.toNat → t.inv c k = s.inv c k) (v : Coef) : t.fwd c v = s.fwd c v := by
  cases h : s.fwd c v with
  | none =>
    rw [fwd_eq_none] at h ⊢
    rw [hn]
    exact fun k hk => by rw [hi k hk]; exact h k hk
  | some k =>
    rw [fwd_eq_some] at h ⊢
    refine ⟨hn ▸ h.1, by rw [hi k h.1]; exact h.2.1, fun j hj => ?_⟩
    rw [hi j (hj.trans h.1)]
    exact h.2.2 j hj

/-! ### EXTRACT -/

theorem mem_extractCells {s : State} {c : Chan} {n b : Nat} :
    b ∈ cellAddrs (extractCells c n s) ↔
      seqAddr s.params c 0 ≤ b ∧ b < seqAddr s.params c 0 + n * coefBytes s.params := by
  rw [extractCells, mem_cellAddrs_coefCells, ← seqAddr_in]
  simp

/-- EXTRACT's commit: every byte outside SEQ[c][0..<n] is as before. -/
theorem byte_commitExtract {s : State} {c : Chan} {n a : Nat}
    (h : ¬(seqAddr s.params c 0 ≤ a ∧ a < seqAddr s.params c 0 + n * coefBytes s.params)) :
    (commitExtract c n s).byte a = s.byte a :=
  State.byte_store_of_not_mem _ _ _ fun hm => h (mem_extractCells.1 hm)

/-- EXTRACT's commit: SEQ[c][i] is the normalised input (40_extract.md R121). -/
theorem seq_commitExtract {s : State} {c : Chan} {n i : Nat} (hi : i < n) :
    (commitExtract c n s).seq c i = norm s.params (s.blkIn c i) := by
  have h := State.coef_store_coefCells s (seqAddr s.params c)
    ((List.range n).map fun i => norm s.params (s.blkIn c i)) [] (seqAddr_stride _ _) i
    (norm s.params (s.blkIn c i)) (by simp [hi]) (norm_lt (s.coef_lt _)) (by simp)
  rw [List.append_nil] at h
  exact h

/-! ### BUILD_TABLE -/

theorem mem_tableCells {s : State} {c : Chan} {n b : Nat} :
    b ∈ cellAddrs (tableCells c n s) ↔
      invAddr s.params c 0 ≤ b ∧
        b < invAddr s.params c 0 + (canonOrder s.params (s.acSeq c n)).length * coefBytes s.params := by
  rw [tableCells, mem_cellAddrs_coefCells, ← invAddr_in]

/-- BUILD_TABLE's commit: every byte outside the table is as before. -/
theorem byte_commitBuildTable {s : State} {c : Chan} {n a : Nat}
    (h : ¬(invAddr s.params c 0 ≤ a ∧
      a < invAddr s.params c 0 + (canonOrder s.params (s.acSeq c n)).length * coefBytes s.params)) :
    (commitBuildTable c n s).byte a = s.byte a :=
  State.byte_store_of_not_mem _ _ _ fun hm => h (mem_tableCells.1 hm)

/-- BUILD_TABLE's commit: INV[c][k] is the k-th value of the canonical order (41_freq_table.md R133). -/
theorem inv_commitBuildTable {s : State} {c : Chan} {n k : Nat} {v : Coef}
    (h : (canonOrder s.params (s.acSeq c n))[k]? = some v) : (commitBuildTable c n s).inv c k = v := by
  have hv : v.toNat < 2 ^ coefW s.params :=
    acSeq_inWidth s c n v (mem_canonOrder.1 (List.mem_of_getElem? h))
  have h1 := State.coef_store_coefCells s (invAddr s.params c) (canonOrder s.params (s.acSeq c n)) []
    (invAddr_stride _ _) k v h hv (by simp)
  rw [List.append_nil] at h1
  exact (State.inv_setHead _ c c _ k).trans h1

theorem table_length_le (s : State) (c : Chan) (n : Nat) :
    (canonOrder s.params (s.acSeq c n)).length ≤ n - 1 :=
  (canonOrder_length_le _ _).trans (acSeq_length s c n).le

theorem head_commitBuildTable (s : State) (c d : Chan) (n : Nat) :
    (commitBuildTable c n s).head d =
      if d = c then { s.head c with ndist := BitVec.ofNat 16 (canonOrder s.params (s.acSeq c n)).length }
      else s.head d := by
  rw [commitBuildTable, State.head_setHead, State.head_store]

/-! ### RLE_ENCODE -/

theorem mem_tupleCells {c : Chan} {k b : Nat} {ts : List (Nat × Nat)} :
    b ∈ cellAddrs (tupleCells c k ts) ↔ tupAddr c k ≤ b ∧ b < tupAddr c k + 4 * ts.length := by
  induction ts generalizing k with
  | nil => simp [tupleCells]
  | cons t ts ih =>
    simp only [tupleCells, cellAddrs_append, List.mem_append, mem_cellAddrs_leCells, ih, List.length_cons]
    unfold tupAddr
    omega

/-- A stored tuple is read back. -/
theorem tuple_store (s : State) (xs : List Host.Cell) (c : Chan) (k i : Nat) (ts : List (Nat × Nat)) (code run : Nat)
    (h : ts[i]? = some (code, run)) :
    (s.store (xs ++ tupleCells c k ts)).tupCode c (k + i) = BitVec.ofNat 16 code ∧
      (s.store (xs ++ tupleCells c k ts)).tupRun c (k + i) = BitVec.ofNat 16 run := by
  induction ts generalizing k i xs with
  | nil => simp at h
  | cons t ts ih =>
    obtain ⟨code', run'⟩ := t
    cases i with
    | zero =>
      simp only [List.getElem?_cons_zero, Option.some.injEq, Prod.mk.injEq] at h
      obtain ⟨rfl, rfl⟩ := h
      constructor
      · refine State.half_eq_of_readLE (State.readLE_store s xs _ _ 2 code' fun b h1 h2 => ?_)
        simp only [cellAddrs_append, List.mem_append, mem_cellAddrs_leCells, mem_tupleCells, not_or]
        unfold tupAddr at *
        omega
      · refine State.half_eq_of_readLE ?_
        have h1 := State.readLE_store s (xs ++ leCells (tupAddr c k) 2 code') (tupleCells c (k + 1) ts)
          (tupAddr c k + 2) 2 run' fun b h1 h2 => by
            rw [mem_tupleCells]
            unfold tupAddr at *
            omega
        simpa only [tupleCells, List.append_assoc, Nat.add_zero] using h1
    | succ i =>
      simp only [List.getElem?_cons_succ] at h
      have h1 := ih (k := k + 1) (xs := xs ++ (leCells (tupAddr c k) 2 code' ++ leCells (tupAddr c k + 2) 2 run')) i h
      simp only [List.append_assoc] at h1
      rw [show k + (i + 1) = k + 1 + i by omega]
      exact h1

theorem encodeTuples_length (s : State) (c : Chan) (n : Nat) :
    (encodeTuples c n s).length = (runs (s.acSeq c n)).length := by simp [encodeTuples]

theorem runs_acSeq_length_le (s : State) (c : Chan) (n : Nat) : (runs (s.acSeq c n)).length ≤ n - 1 :=
  (runs_length_le _).trans (acSeq_length s c n).le

/-- RLE_ENCODE's commit: every byte outside the stored tuples is as before. -/
theorem byte_commitEncode {s : State} {c : Chan} {n a : Nat}
    (h : ¬(tupAddr c 0 ≤ a ∧ a < tupAddr c 0 + 4 * (runs (s.acSeq c n)).length)) :
    (commitEncode c n s).byte a = s.byte a := by
  refine State.byte_store_of_not_mem _ _ _ fun hm => h ?_
  rw [mem_tupleCells, encodeTuples_length] at hm
  exact hm

/-- RLE_ENCODE's commit: tuple k is the k-th run with its value's code (42_rle_encode.md R141). -/
theorem tuple_commitEncode {s : State} {c : Chan} {n k : Nat} {v : Coef} {r : Nat}
    (h : (runs (s.acSeq c n))[k]? = some (v, r)) :
    (commitEncode c n s).tupCode c k = BitVec.ofNat 16 ((s.fwd c v).getD 0) ∧
      (commitEncode c n s).tupRun c k = BitVec.ofNat 16 r := by
  have h1 := tuple_store s [] c 0 k (encodeTuples c n s) ((s.fwd c v).getD 0) r (by simp [encodeTuples, h])
  simpa only [commitEncode, State.tupCode_setHead, State.tupRun_setHead, List.nil_append, Nat.zero_add] using h1

theorem head_commitEncode (s : State) (c d : Chan) (n : Nat) :
    (commitEncode c n s).head d =
      if d = c then
        { s.head c with dc := s.seq c 0, tlen := BitVec.ofNat 16 (runs (s.acSeq c n)).length }
      else s.head d := by
  rw [commitEncode, State.head_setHead, State.head_store, encodeTuples_length]

/-- RLE_ENCODE's check passes exactly when every AC value has a code (42_rle_encode.md R141). -/
theorem encodeCheck_eq_none {s : State} {c : Chan} {n : Nat} :
    encodeCheck c n s = none ↔ ∀ i, 1 ≤ i → i < n → (s.fwd c (s.seq c i)).isSome = true := by
  unfold encodeCheck
  split
  · next i h =>
    have h1 := List.find?_some h
    have h2 := List.mem_of_find?_eq_some h
    simp only [List.mem_range'_1] at h2
    simp only [reduceCtorEq, false_iff, not_forall]
    refine ⟨i, h2.1, by omega, ?_⟩
    simpa using h1
  · next h =>
    simp only [List.find?_eq_none, List.mem_range'_1] at h
    simp only [true_iff]
    intro i h1 h2
    have := h i ⟨h1, by omega⟩
    simpa [Option.isSome_iff_ne_none] using this

/-! ### RLE_DECODE -/

theorem decodedLane_length (s : State) (c : Chan) : (decodedLane c s).length = totalRun c s + 1 := by
  simp [decodedLane, totalRun, List.length_flatMap]

theorem mem_decodeCells {s : State} {c : Chan} {b : Nat} :
    b ∈ cellAddrs (decodeCells c s) ↔ inLane s.params c (totalRun c s + 1) b := by
  rw [decodeCells, mem_cellAddrs_coefCells, decodedLane_length]
  rfl

/-- RLE_DECODE's commit: every byte outside lane c of the written pixels is as before. -/
theorem byte_commitDecode {s : State} {c : Chan} {a : Nat} (h : ¬inLane s.params c (totalRun c s + 1) a) :
    (commitDecode c s).byte a = s.byte a :=
  State.byte_store_of_not_mem _ _ _ fun hm => h (mem_decodeCells.1 hm)

theorem decodedLane_inWidth {s : State} {c : Chan} (h : (s.head c).dc.toNat < 2 ^ coefW s.params) :
    ∀ v ∈ decodedLane c s, v.toNat < 2 ^ coefW s.params := by
  intro v hv
  rcases List.mem_cons.1 hv with rfl | hv
  · exact h
  · obtain ⟨k, _, hv⟩ := List.mem_flatMap.1 hv
    rw [(List.mem_replicate.1 hv).2]
    exact s.coef_lt _

/-- RLE_DECODE's commit: lane c of BLK_OUT holds the decoded lane (43_rle_decode.md R150, R151). -/
theorem blkOut_commitDecode {s : State} {c : Chan} {i : Nat} {v : Coef} (hv : (decodedLane c s)[i]? = some v)
    (h : (s.head c).dc.toNat < 2 ^ coefW s.params) : (commitDecode c s).blkOut c i = v := by
  have h1 := State.coef_store_coefCells s (blkOutAddr s.params c) (decodedLane c s) [] (blkOutAddr_stride _ _) i v hv
    (decodedLane_inWidth h v (List.mem_of_getElem? hv)) (by simp)
  rw [List.append_nil] at h1
  exact h1

/-- RLE_DECODE's check passes exactly when every code is in the table and the runs sum to n - 1 (43_rle_decode.md
R150). -/
theorem decodeCheck_eq_none {s : State} {c : Chan} {n : Nat} : decodeCheck c n s = none ↔ decodable c n s := by
  unfold decodeCheck decodable
  split
  · next k h =>
    have h1 := List.find?_some h
    have h2 := List.mem_range.1 (List.mem_of_find?_eq_some h)
    simp only [decide_eq_true_eq] at h1
    simp only [reduceCtorEq, false_iff, not_and]
    intro h3
    have := h3 k h2
    omega
  · next h =>
    simp only [List.find?_eq_none, List.mem_range, decide_eq_true_eq, not_le] at h
    split_ifs with h1
    · simp only [true_iff]; exact ⟨h, h1⟩
    · simp only [false_iff, not_and]; exact fun _ => h1

/-! ### Stores of numbered groups of bytes -/

/-- The bytes of group `k` among those of groups 0..<n: what is before, the group, and what is after. -/
theorem flatMap_range_split {n k : Nat} (hk : k < n) (f : Nat → List Host.Cell) :
    (List.range n).flatMap f =
      (List.range k).flatMap f ++ (f k ++ (List.range' (k + 1) (n - k - 1)).flatMap f) := by
  have h : List.range n = List.range k ++ (k :: List.range' (k + 1) (n - k - 1)) := by
    have h1 := List.range'_append_1 (s := 0) (m := k) (n := n - k)
    rw [Nat.zero_add, Nat.add_sub_cancel' hk.le, show n - k = n - k - 1 + 1 by omega, List.range'_succ] at h1
    rw [List.range_eq_range', List.range_eq_range', ← h1]
  rw [h, List.flatMap_append, List.flatMap_cons]

theorem mem_cellAddrs_flatMap {α : Type} {ks : List α} {f : α → List Host.Cell} {b : Nat} :
    b ∈ cellAddrs (ks.flatMap f) ↔ ∃ k ∈ ks, b ∈ cellAddrs (f k) := by
  induction ks with
  | nil => simp
  | cons k ks ih => simp [ih]

end Sys2Proof.Machine
end

