-- ==== Sys2Proof/Laws/Commands.lean ====
section
/-! SUPPORT. The shared operations of the commands: the operand checks, recording an error, completion, and which
parts of the state a meaning leaves alone. Proofs about the commands cite these. -/

namespace Sys2Proof.Machine
open Sys2Proof

/-! ### Operand checks -/

@[simp] theorem withChannel_field (c : Chan) (s : State) (k : Chan → Execution) :
    withChannel (Chan.field c) s k = k c := by
  simp [withChannel]

theorem withChannel_three (s : State) (k : Chan → Execution) :
    withChannel 3 s k = raise s { cause := .badChannel, ch := 3, pos := 0, lo := 3, hi := 0 } := rfl

/-- The channel operand either names a channel or raises BAD_CHANNEL. -/
theorem withChannel_cases (ch : BitVec 2) (s : State) (k : Chan → Execution) :
    (∃ c, ch = Chan.field c ∧ withChannel ch s k = k c) ∨
      withChannel ch s k = raise s { cause := .badChannel, ch := ch, pos := 0, lo := ch.setWidth 32, hi := 0 } := by
  cases h : Chan.ofField ch with
  | none => exact .inr (by simp [withChannel, h])
  | some c => exact .inl ⟨c, Chan.ofField_eq_some.1 h, by simp [withChannel, h]⟩

theorem withLen_of_legal {ch : BitVec 2} {s : State} {n : Nat} (k : Nat → Execution) (hn : s.len = n) (h1 : 1 ≤ n)
    (h2 : n ≤ s.params.nMax) : withLen ch s k = k n := by
  subst hn
  simp [withLen, h1, h2]

theorem withLen_of_illegal {ch : BitVec 2} {s : State} (k : Nat → Execution)
    (h : ¬(1 ≤ s.len ∧ s.len ≤ s.params.nMax)) :
    withLen ch s k = raise s
      { cause := .badLen, ch := ch, pos := 0, lo := BitVec.ofNat 32 s.len, hi := BitVec.ofNat 32 s.params.nMax } := by
  rw [withLen, if_neg h]

theorem withSlot_of_legal {ch : BitVec 2} {slot : Half} {s : State} (k : Nat → Execution)
    (h : slot.toNat < s.params.nSlot) : withSlot ch slot s k = k slot.toNat := by
  rw [withSlot, if_pos h]

theorem withSlot_of_illegal {ch : BitVec 2} {slot : Half} {s : State} (k : Nat → Execution)
    (h : s.params.nSlot ≤ slot.toNat) :
    withSlot ch slot s k = raise s
      { cause := .slotRange, ch := ch, pos := 0, lo := slot.setWidth 32, hi := BitVec.ofNat 32 s.params.nSlot } := by
  rw [withSlot, if_neg (not_lt.2 h)]

theorem withCheck_none (s t : State) : withCheck s none t = commit t := rfl
theorem withCheck_some (s t : State) (e : CmdError) : withCheck s (some e) t = raise s e := rfl

theorem runningWithLen_len {s : State} {n : Nat} (h : runningWithLen s n) : s.len = n := by
  obtain ⟨_, ⟨l, hl, hn⟩, _, _⟩ := h
  rw [State.len_of_latch hl, hn]

/-- With LEN legal, the LEN check goes on. -/
theorem withLen_of_running {ch : BitVec 2} {s : State} {n : Nat} (h : runningWithLen s n) (k : Nat → Execution) :
    withLen ch s k = k n :=
  withLen_of_legal k (runningWithLen_len h) h.2.2.1 h.2.2.2

/-! ### What a meaning leaves alone -/

/-- `t` differs from `s` in the data state alone: the memories and the Encoded Channel heads. -/
def onlyData (s t : State) : Prop := t = { s with mem := t.mem, enc := t.enc }

theorem onlyData.refl (s : State) : onlyData s s := rfl

theorem onlyData.trans {s t u : State} (h1 : onlyData s t) (h2 : onlyData t u) : onlyData s u := by
  unfold onlyData at *
  rw [h2, h1]

theorem onlyData_store (s : State) (cs : List Host.Cell) : onlyData s (s.store cs) := rfl
theorem onlyData_setHead (s : State) (c : Chan) (h : EncHead) : onlyData s (s.setHead c h) := rfl
theorem onlyData_commitExtract (c : Chan) (n : Nat) (s : State) : onlyData s (commitExtract c n s) := rfl
theorem onlyData_commitBuildTable (c : Chan) (n : Nat) (s : State) : onlyData s (commitBuildTable c n s) := rfl
theorem onlyData_commitEncode (c : Chan) (n : Nat) (s : State) : onlyData s (commitEncode c n s) := rfl
theorem onlyData_commitDecode (c : Chan) (s : State) : onlyData s (commitDecode c s) := rfl
theorem onlyData_commitPack (slot : Nat) (c : Chan) (s : State) : onlyData s (commitPack slot c s) := rfl
theorem onlyData_unpackChannel (slot : Nat) (c : Chan) (s : State) : onlyData s (unpackChannel slot c s) := rfl

theorem onlyData_encodeChannel (c : Chan) (n : Nat) (s : State) : onlyData s (encodeChannel c n s) :=
  ((onlyData_commitExtract c n s).trans (onlyData_commitBuildTable c n _)).trans (onlyData_commitEncode c n _)

theorem onlyData_commitEncodeBlock (n : Nat) (s : State) : onlyData s (commitEncodeBlock n s) :=
  ((onlyData_encodeChannel .y n s).trans (onlyData_encodeChannel .cr n _)).trans (onlyData_encodeChannel .cb n _)

theorem onlyData_commitUnpack (slot : Nat) (s : State) : onlyData s (commitUnpack slot s) :=
  ((onlyData_unpackChannel slot .y s).trans (onlyData_unpackChannel slot .cr _)).trans (onlyData_unpackChannel slot .cb _)

theorem onlyData_decodeChannel (c : Chan) (n : Nat) (x : Execution) : onlyData x.after (decodeChannel c n x).after := by
  unfold decodeChannel
  split
  · rfl
  · exact onlyData_commitDecode c _

theorem onlyData_decodeChannels (n : Nat) (s : State) : onlyData s (decodeChannels n s).after :=
  ((onlyData_decodeChannel .y n _).trans (onlyData_decodeChannel .cr n _)).trans (onlyData_decodeChannel .cb n _)

theorem onlyData_unpackSlot (slot : Nat) (s : State) : onlyData s (unpackSlot slot s).after := by
  simp only [unpackSlot]
  split_ifs
  · exact onlyData_commitUnpack slot s
  · rfl

theorem onlyData.sameControl {s t : State} (h : onlyData s t) : sameControl s t := by
  rw [h]
  exact ⟨rfl, rfl, rfl, rfl, rfl, rfl, rfl, rfl, rfl⟩

theorem onlyData.params {s t : State} (h : onlyData s t) : t.params = s.params := by rw [h]
theorem onlyData.len {s t : State} (h : onlyData s t) : t.len = s.len := by rw [h]; rfl

/-! ### Completion -/

/-- A command whose execution touches only data state keeps all control state at completion. -/
theorem sameControl_complete {s : State} {x : Execution} (slot : Half) (h : onlyData s x.after) :
    sameControl s (complete slot x) := by
  have h1 := h.sameControl
  unfold Machine.sameControl at *
  simpa using h1

/-- Completion without error (30_encoding.md R107). -/
theorem completedOk_commit {s t : State} (slot : Half) (h : onlyData s t) : completedOk s (complete slot (commit t)) := by
  refine ⟨sameControl_complete slot h, rfl, ?_, ?_, ?_⟩ <;> rw [h] <;> rfl

/-- Completion with errors: the first of them is recorded, with the mask of the failing channels (R107, R212). -/
theorem completedErr_complete {s : State} {x : Execution} (slot : Half) (h : onlyData s x.after) (e : CmdError)
    (es : List CmdError) (he : x.errs = e :: es) :
    completedErr s (complete slot x)
      { cause := e.cause, slot := slot, ch := e.ch, mask := chMask x.errs, pos := e.pos, lo := e.lo, hi := e.hi } := by
  refine ⟨sameControl_complete slot h, rfl, ?_, ?_, ?_⟩
  · rw [complete_irqStatus, he, recordErrors_cons_irqStatus, h]
  · rw [complete_statusErr, he, recordErrors_cons_statusErr]
  · rw [complete_err, he, recordErrors_cons_err]

theorem sameData_raise (s : State) (slot : Half) (e : CmdError) : sameData s (complete slot (raise s e)) :=
  ⟨fun a => by simp, by simp⟩

theorem chMask_command {e : CmdError} (h : e.cause.isData = false) : chMask [e] = 0 := by simp [chMask, h]

theorem chMask_data {e : CmdError} {c : Chan} (h : e.cause.isData = true) (hc : e.ch = Chan.field c) :
    chMask [e] = 1 <<< Chan.idx c := by
  simp only [chMask, h, hc]
  cases c <;> decide

/-- A command-level error (R212). -/
theorem completedErr_command (s : State) (slot : Half) (e : CmdError) (h : e.cause.isData = false) (hp : e.pos = 0) :
    completedErr s (complete slot (raise s e)) (commandRecord e.cause slot e.ch e.lo e.hi) := by
  have h1 := completedErr_complete (x := raise s e) slot (onlyData.refl s) e [] rfl
  rw [raise_errs, chMask_command h, hp] at h1
  exact h1

/-- A data error of one channel (R212). -/
theorem completedErr_data (s : State) (slot : Half) (e : CmdError) (c : Chan) (h : e.cause.isData = true)
    (hc : e.ch = Chan.field c) :
    completedErr s (complete slot (raise s e)) (dataRecord e.cause slot c e.pos e.lo e.hi) := by
  have h1 := completedErr_complete (x := raise s e) slot (onlyData.refl s) e [] rfl
  rw [raise_errs, chMask_data h hc, hc] at h1
  exact h1

/-- The mask of the failing channels of a command that checks all three (R214). -/
theorem chMask_filterMap (f : Chan → Option CmdError) (h : ∀ c e, f c = some e → e.cause.isData = true ∧ e.ch = Chan.field c) :
    chMask (Chan.all.filterMap f) = failMask fun c => (f c).isSome := by
  have key : ∀ c es, chMask ((f c).toList ++ es) = (if (f c).isSome then (1 : BitVec 3) <<< Chan.idx c else 0) ||| chMask es := by
    intro c es
    rcases he : f c with _ | e
    · simp
    · obtain ⟨h1, h2⟩ := h c e he
      simp only [Option.toList_some, List.singleton_append, chMask, h1, h2, if_true, Option.isSome]
      cases c <;> rfl
  have split : Chan.all.filterMap f = (f .y).toList ++ ((f .cr).toList ++ ((f .cb).toList ++ [])) := by
    simp only [Chan.all, List.filterMap_cons, List.filterMap_nil]
    rcases f .y <;> rcases f .cr <;> rcases f .cb <;> rfl
  rw [split, key, key, key, failMask]
  cases (f .y).isSome <;> cases (f .cr).isSome <;> cases (f .cb).isSome <;> decide

/-! ### Validation and checks: which errors they give -/

theorem decodeCheck_error {s : State} {c : Chan} {n : Nat} {e : CmdError} (h : decodeCheck c n s = some e) :
    e.cause.isData = true ∧ e.ch = Chan.field c := by
  unfold decodeCheck at h
  split at h
  · cases h; exact ⟨rfl, rfl⟩
  · split_ifs at h
    cases h; exact ⟨rfl, rfl⟩

theorem capacityCheck_error {p : Params} {c : Chan} {tl n : Half} {e : CmdError} (h : capacityCheck p c tl n = some e) :
    e.cause = .capacity ∧ e.ch = Chan.field c := by
  unfold capacityCheck at h
  split_ifs at h <;> cases h <;> exact ⟨rfl, rfl⟩

theorem capacityCheck_eq_none {p : Params} {c : Chan} {tl n : Half} :
    capacityCheck p c tl n = none ↔ tl.toNat ≤ cap p ∧ n.toNat ≤ cap p := by
  unfold capacityCheck
  split_ifs <;> simp <;> omega

theorem tableEntryCheck_error {s : State} {slot k : Nat} {c : Chan} {e : CmdError}
    (h : tableEntryCheck slot c s k = some e) :
    (e.cause = .tableBadCode ∨ e.cause = .tableDupValue) ∧ e.ch = Chan.field c ∧ e.pos = BitVec.ofNat 16 k := by
  simp only [tableEntryCheck] at h
  split_ifs at h <;> cases h <;> simp

theorem tableEntryCheck_eq_none {s : State} {slot k : Nat} {c : Chan} :
    tableEntryCheck slot c s k = none ↔
      (s.trTabCode slot c k).toNat < (s.trTabLen slot c).toNat ∧
        ∀ j, j < k → s.trTabCode slot c j ≠ s.trTabCode slot c k ∧ s.trTabVal slot c j ≠ s.trTabVal slot c k := by
  simp only [tableEntryCheck]
  split_ifs with h1 h2
  · simp only [Bool.or_eq_true, decide_eq_true_eq, List.any_eq_true, List.mem_range, beq_iff_eq] at h1
    simp only [false_iff, not_and, not_forall]
    intro h3
    rcases h1 with h1 | ⟨j, hj, h1⟩
    · omega
    · exact ⟨j, hj, fun h4 _ => h4 h1⟩
  · simp only [List.any_eq_true, List.mem_range, beq_iff_eq] at h2
    obtain ⟨j, hj, h2⟩ := h2
    simp only [false_iff, not_and, not_forall]
    exact fun _ => ⟨j, hj, fun _ h5 => h5 h2⟩
  · simp only [Bool.or_eq_true, decide_eq_true_eq, List.any_eq_true, List.mem_range, beq_iff_eq, not_or, not_le,
      not_exists, not_and] at h1 h2
    simp only [true_iff]
    exact ⟨h1.1, fun j hj => ⟨h1.2 j hj, h2 j hj⟩⟩

theorem tupleRunCheck_eq_none {s : State} {slot k : Nat} {c : Chan} :
    tupleRunCheck slot c s k = none ↔ s.trTupRun slot c k ≠ 0 := by
  unfold tupleRunCheck
  split_ifs with h
  · simp [h]
  · simpa using h

theorem tupleRunCheck_error {s : State} {slot k : Nat} {c : Chan} {e : CmdError}
    (h : tupleRunCheck slot c s k = some e) :
    e.cause = .badRun ∧ e.ch = Chan.field c ∧ e.pos = BitVec.ofNat 16 k ∧ s.trTupRun slot c k = 0 := by
  unfold tupleRunCheck at h
  split_ifs at h with h0
  cases h
  exact ⟨rfl, rfl, rfl, h0⟩

theorem validate_error {s : State} {slot : Nat} {c : Chan} {e : CmdError} (h : validate slot c s = some e) :
    e.cause.isData = true ∧ e.ch = Chan.field c := by
  unfold validate at h
  rcases Option.or_eq_some_iff.1 h with h | ⟨_, h⟩
  · rcases Option.or_eq_some_iff.1 h with h | ⟨_, h⟩
    · obtain ⟨h1, h2⟩ := capacityCheck_error h
      exact ⟨by rw [h1]; rfl, h2⟩
    · obtain ⟨k, _, h⟩ := List.exists_of_findSome?_eq_some h
      obtain ⟨h1, h2, _⟩ := tableEntryCheck_error h
      exact ⟨by rcases h1 with h1 | h1 <;> rw [h1] <;> rfl, h2⟩
  · obtain ⟨k, _, h⟩ := List.exists_of_findSome?_eq_some h
    obtain ⟨h1, h2, _⟩ := tupleRunCheck_error h
    exact ⟨by rw [h1]; rfl, h2⟩

end Sys2Proof.Machine
end

