-- ==== Sys2Proof/Laws/Bus.lean ====
section
/-! SUPPORT. The port and the step: what each address is mapped to, what a transaction can do, and which turn a step
takes. Proofs about the port and about runs cite these. -/

namespace Sys2Proof.Machine
open Sys2Proof

/-! ### The address map -/

theorem inRange_iff {lo n a : Nat} : inRange lo n a = true ↔ lo ≤ a ∧ a < lo + n := by
  simp [inRange]

theorem windowOf_low {p : Params} {a : Nat} (h : a < 0x10000) : windowOf p a = none := by
  unfold windowOf
  repeat rw [if_neg (by rw [inRange_iff]; omega)]

/-- Below the data windows stand the registers alone. -/
theorem targetOf_low {p : Params} {a : Nat} (h : a < 0x10000) :
    targetOf p a = (Csr.ofOffset a).elim .unmapped .csr := by
  unfold targetOf
  rw [windowOf_low h]
  cases Csr.ofOffset a <;> rfl

theorem windowOf_none_of_csr {p : Params} {a : Nat} {r : Csr} (h : targetOf p a = .csr r) : windowOf p a = none := by
  unfold targetOf at h
  split at h
  · cases h
  · cases h
  · split at h <;> cases h
  · unfold encTarget at h
    dsimp only at h
    split at h
    · cases h
    · split at h <;> cases h
  · cases h
  · assumption

/-- Host-writable data memory is BLK_IN and TR. -/
theorem targetOf_eq_ram {p : Params} {a : Nat} :
    targetOf p a = .ram ↔ windowOf p a = some .blkIn ∨ windowOf p a = some .tr := by
  unfold targetOf
  split
  · simp_all
  · simp_all
  · split <;> simp_all
  · unfold encTarget
    dsimp only
    split
    · simp_all
    · split <;> simp_all
  · simp_all
  · split <;> simp_all

theorem windowOf_eq_blkIn {p : Params} {a : Nat} :
    windowOf p a = some .blkIn ↔ 0x010000 ≤ a ∧ a < 0x010000 + 3 * coefBytes p * p.nMax := by
  unfold windowOf
  rw [← inRange_iff]
  split_ifs <;> simp_all

theorem windowOf_eq_tr {p : Params} {a : Nat} (h : legalBuild p = true) :
    windowOf p a = some .tr ↔ 0x100000 ≤ a ∧ a < 0x100000 + p.nSlot * slotBytes p := by
  have h1 := (legalBuild_iff p).1 h
  have h2 : 3 * coefBytes p * p.nMax ≤ 0x6000 := by
    rcases coefBytes_cases p with hb | hb <;> rw [hb] <;> omega
  unfold windowOf
  constructor
  · intro h3
    split_ifs at h3 <;> simp_all [inRange_iff]
  · intro h3
    rw [if_neg (by rw [inRange_iff]; omega), if_neg (by rw [inRange_iff]; omega),
      if_neg (by rw [inRange_iff]; omega), if_neg (by rw [inRange_iff]; omega), if_pos (inRange_iff.2 h3)]

/-! ### Transactions -/

theorem perform_misformed {t : Txn} {s : State} (h : Txn.misformed t = true) : perform t s = busError s := by
  unfold perform
  rw [if_pos h]

theorem perform_read {a : BitVec 21} {s : State} (h : a.toNat % 4 = 0) : perform (.read a 0xF) s = hostRead a.toNat s := by
  rw [perform, if_neg (by simp [Txn.misformed, Txn.addr, Txn.strobes, h])]

theorem perform_write {a : BitVec 21} {w : Word} {s : State} (h : a.toNat % 4 = 0) :
    perform (.write a w 0xF) s = hostWrite a.toNat w s := by
  rw [perform, if_neg (by simp [Txn.misformed, Txn.addr, Txn.strobes, h])]

theorem hostRead_csr {a : Nat} {s : State} {r : Csr} (h : targetOf s.params a = .csr r) :
    hostRead a s = s.answer (csrRead r s) := by rw [hostRead, h]

theorem hostWrite_csr {a : Nat} {w : Word} {s : State} {r : Csr} (h : targetOf s.params a = .csr r)
    (hr : Csr.access r ≠ .ro) : hostWrite a w s = (csrWrite r w s).answer 0 := by
  rw [hostWrite, h]
  exact if_neg hr

theorem hostWrite_ram {a : Nat} {w : Word} {s : State} (h : targetOf s.params a = .ram) :
    hostWrite a w s = (s.store (leCells a 4 w.toNat)).answer 0 := by rw [hostWrite, h]

/-- A read is a bus error or an answer, and nothing else. -/
theorem hostRead_cases (a : Nat) (s : State) : hostRead a s = busError s ∨ ∃ w, hostRead a s = s.answer w := by
  unfold hostRead
  split <;> first | exact .inl rfl | exact .inr ⟨_, rfl⟩

/-- A write is a bus error, a register write, or a store to BLK_IN or TR. -/
theorem hostWrite_cases (a : Nat) (w : Word) (s : State) :
    hostWrite a w s = busError s ∨
      (∃ r, targetOf s.params a = .csr r ∧ hostWrite a w s = (csrWrite r w s).answer 0) ∨
      (targetOf s.params a = .ram ∧ hostWrite a w s = (s.store (leCells a 4 w.toNat)).answer 0) := by
  unfold hostWrite
  split
  · next r h =>
    split
    · exact .inl rfl
    · exact .inr (.inl ⟨r, h, rfl⟩)
  · next h => exact .inr (.inr ⟨h, rfl⟩)
  all_goals exact .inl rfl

/-- A register write resets, replaces CFG.LEN, IRQ_EN or IRQ_STATUS, is a CMD write, or does nothing. -/
theorem csrWrite_cases (r : Csr) (w : Word) (s : State) :
    (r = .ctrl ∧ csrWrite r w s = writeCtrl w s) ∨ (∃ n, csrWrite r w s = { s with cfgLen := n }) ∨
      (r = .cmd ∧ csrWrite r w s = writeCmd w s) ∨ (∃ e, csrWrite r w s = { s with irqEn := e }) ∨
      (∃ e, csrWrite r w s = { s with irqStatus := e }) ∨ csrWrite r w s = s := by
  cases r <;> first
    | exact .inr (.inr (.inr (.inr (.inr rfl))))
    | exact .inl ⟨rfl, rfl⟩
    | exact .inr (.inl ⟨_, rfl⟩)
    | exact .inr (.inr (.inl ⟨rfl, rfl⟩))
    | exact .inr (.inr (.inr (.inl ⟨_, rfl⟩)))
    | exact .inr (.inr (.inr (.inr (.inl ⟨_, rfl⟩))))

theorem writeCmd_of_busy {w : Word} {s : State} (h : s.busy = true) : writeCmd w s = s.setIrq irqOvr := by
  rw [writeCmd, if_pos h]

theorem writeCmd_of_idle {w : Word} {s : State} (h : s.busy = false) : writeCmd w s = accept w s := by
  rw [writeCmd, if_neg (by simp [h])]

/-- A transaction changes no build parameter, pin level, input or reset count. -/
theorem perform_keeps (t : Txn) (s : State) :
    (perform t s).params = s.params ∧ (perform t s).rstN = s.rstN ∧ (perform t s).held = s.held ∧
      (perform t s).events = s.events ∧ (perform t s).resets = s.resets := by
  unfold perform
  split
  · exact ⟨rfl, rfl, rfl, rfl, rfl⟩
  · split
    · rcases hostRead_cases _ s with h | ⟨w, h⟩ <;> rw [h] <;> exact ⟨rfl, rfl, rfl, rfl, rfl⟩
    · next a w b _ =>
      rcases hostWrite_cases a.toNat w s with h | ⟨r, _, h⟩ | ⟨_, h⟩ <;> rw [h]
      · exact ⟨rfl, rfl, rfl, rfl, rfl⟩
      · rcases csrWrite_cases r w s with ⟨_, h⟩ | ⟨_, h⟩ | ⟨_, h⟩ | ⟨_, h⟩ | ⟨_, h⟩ | h <;> rw [h]
        · unfold writeCtrl; split <;> exact ⟨rfl, rfl, rfl, rfl, rfl⟩
        · exact ⟨rfl, rfl, rfl, rfl, rfl⟩
        · unfold writeCmd; split <;> exact ⟨rfl, rfl, rfl, rfl, rfl⟩
        all_goals exact ⟨rfl, rfl, rfl, rfl, rfl⟩
      · exact ⟨rfl, rfl, rfl, rfl, rfl⟩

/-! ### Steps -/

theorem step_of_legal {s : State} (h : legalBuild s.params = true) : step s = turn s := by
  rw [step, if_pos h]

/-- Every meaning completes: `exec` answers a completion of an execution that touches data state alone. -/
theorem exec_completes (i : Instr) (s : State) :
    ∃ slot x, exec i s = .next (complete slot x) ∧ onlyData s x.after := by
  have hr : ∀ e, onlyData s (raise s e).after := fun _ => rfl
  have hlen : ∀ (ch : BitVec 2) (k : Nat → Execution), (∀ n, onlyData s (k n).after) →
      onlyData s (withLen ch s k).after := by
    intro ch k hk
    unfold withLen
    split
    · exact hk _
    · exact hr _
  have hslot : ∀ (ch : BitVec 2) (n : Half) (k : Nat → Execution), (∀ n, onlyData s (k n).after) →
      onlyData s (withSlot ch n s k).after := by
    intro ch n k hk
    unfold withSlot
    split
    · exact hk _
    · exact hr _
  have hch : ∀ (ch : BitVec 2) (k : Chan → Execution), (∀ c, onlyData s (k c).after) →
      onlyData s (withChannel ch s k).after := by
    intro ch k hk
    unfold withChannel
    split
    · exact hk _
    · exact hr _
  have hcheck : ∀ e t, onlyData s t → onlyData s (withCheck s e t).after := by
    intro e t ht
    cases e
    · exact ht
    · rfl
  cases i with
  | nop tag => exact ⟨tag, _, rfl, rfl⟩
  | extract ch tag => exact ⟨tag, _, rfl, hch _ _ fun c => hlen _ _ fun n => onlyData_commitExtract c n s⟩
  | buildTable ch tag => exact ⟨tag, _, rfl, hch _ _ fun c => hlen _ _ fun n => onlyData_commitBuildTable c n s⟩
  | rleEncode ch tag =>
    exact ⟨tag, _, rfl, hch _ _ fun c => hlen _ _ fun n => hcheck _ _ (onlyData_commitEncode c n s)⟩
  | rleDecode ch tag =>
    exact ⟨tag, _, rfl, hch _ _ fun c => hlen _ _ fun n => hcheck _ _ (onlyData_commitDecode c s)⟩
  | encodeBlock tag => exact ⟨tag, _, rfl, hlen _ _ fun n => onlyData_commitEncodeBlock n s⟩
  | decodeBlock tag => exact ⟨tag, _, rfl, hlen _ _ fun n => onlyData_decodeChannels n s⟩
  | pack slot ch =>
    exact ⟨slot, _, rfl, hch _ _ fun c => hslot _ _ _ fun n => hcheck _ _ (onlyData_commitPack n c s)⟩
  | unpack slot => exact ⟨slot, _, rfl, hslot _ _ _ fun n => onlyData_unpackSlot n s⟩

/-- The engine's turn on any word completes it (30_encoding.md R107, R108). -/
theorem runWord_completes (w : Word) (s : State) :
    ∃ slot x, runWord w s = .next (complete slot x) ∧ onlyData s x.after := by
  unfold runWord
  split
  · exact exec_completes _ s
  · exact ⟨_, _, rfl, rfl⟩

/-- What a turn can be: the engine's, a transaction held or performed, an edge of `rst_n`, or an input lost. -/
theorem turn_cases {s t : State} (h : turn s = .next t) :
    (∃ (l : Latch) (es : List Event), s.rstN = true ∧ s.latch = some l ∧
        runWord l.cmd { s with events := es } = .next t) ∨
      (∃ (x : Txn) (es : List Event), s.rstN = true ∧ s.held = none ∧ s.busy = true ∧
        heldWhileBusy s.params x = true ∧ t = { s with held := some x, events := es }) ∨
      (∃ (x : Txn) (es : List Event), s.rstN = true ∧ s.held = none ∧
        (s.busy = true → heldWhileBusy s.params x = false) ∧ t = perform x { s with events := es }) ∨
      (∃ x, s.rstN = true ∧ s.held = some x ∧ s.busy = false ∧ t = perform x { s with held := none }) ∨
      (∃ es, s.rstN = true ∧ t = resetFall { s with events := es }) ∨
      (∃ es, s.rstN = false ∧ t = resetRise { s with events := es }) ∨
      ∃ es, t = { s with events := es } := by
  have hengine : ∀ es, s.rstN = true → engineTurn { s with events := es } = .next t →
      (∃ (l : Latch) (es : List Event), s.rstN = true ∧ s.latch = some l ∧
        runWord l.cmd { s with events := es } = .next t) ∨ ∃ es, t = { s with events := es } := by
    intro es h1 h2
    unfold engineTurn at h2
    split at h2
    · next l hl => exact .inl ⟨l, es, h1, hl, h2⟩
    · cases h2; exact .inr ⟨es, rfl⟩
  have hhost : ∀ x es, s.rstN = true → s.held = none → hostTurn x { s with events := es } = t →
      (∃ (x : Txn) (es : List Event), s.rstN = true ∧ s.held = none ∧ s.busy = true ∧
        heldWhileBusy s.params x = true ∧ t = { s with held := some x, events := es }) ∨
      (∃ (x : Txn) (es : List Event), s.rstN = true ∧ s.held = none ∧
        (s.busy = true → heldWhileBusy s.params x = false) ∧ t = perform x { s with events := es }) := by
    intro x es h1 h2 h3
    unfold hostTurn at h3
    split at h3
    · next h4 =>
      rw [Bool.and_eq_true] at h4
      exact .inl ⟨x, es, h1, h2, h4.1, h4.2, h3.symm⟩
    · next h4 =>
      rw [Bool.and_eq_true, not_and, Bool.not_eq_true] at h4
      exact .inr ⟨x, es, h1, h2, h4, h3.symm⟩
  unfold turn at h
  split at h
  · next hr =>
    split at h
    · next x hx =>
      unfold heldTurn at h
      split at h
      · next es _ => cases h; exact .inr (.inr (.inr (.inr (.inl ⟨es, hr, rfl⟩))))
      · split at h
        · rcases hengine s.events hr h with h | h
          · exact .inl h
          · exact .inr (.inr (.inr (.inr (.inr (.inr h)))))
        · next hb => cases h; exact .inr (.inr (.inr (.inl ⟨x, hr, hx, by simpa using hb, rfl⟩)))
    · next hx =>
      have hcases : (∃ es, engineTurn { s with events := es } = .next t) ∨
          (∃ x es, hostTurn x { s with events := es } = t) ∨ (∃ es, t = resetFall { s with events := es }) ∨
          ∃ es, t = { s with events := es } := by
        unfold takeEvent at h
        split at h
        · exact .inl ⟨s.events, h⟩
        · next es _ => exact .inl ⟨es, h⟩
        · next x es _ => cases h; exact .inr (.inl ⟨x, es, rfl⟩)
        · next x f es _ =>
          split at h
          · cases h; exact .inr (.inl ⟨x, .engine :: es, rfl⟩)
          · exact .inl ⟨.host x :: es, h⟩
        · next es _ => cases h; exact .inr (.inr (.inl ⟨es, rfl⟩))
        · next es _ => cases h; exact .inr (.inr (.inr ⟨es, rfl⟩))
      rcases hcases with ⟨es, h⟩ | ⟨x, es, h⟩ | ⟨es, h⟩ | h
      · rcases hengine es hr h with h | h
        · exact .inl h
        · exact .inr (.inr (.inr (.inr (.inr (.inr h)))))
      · rcases hhost x es hr hx h with h | h
        · exact .inr (.inl h)
        · exact .inr (.inr (.inl h))
      · exact .inr (.inr (.inr (.inr (.inl ⟨es, hr, h⟩))))
      · exact .inr (.inr (.inr (.inr (.inr (.inr h)))))
  · next hr =>
    cases h
    unfold resetTurn
    split
    · next es _ => exact .inr (.inr (.inr (.inr (.inr (.inl ⟨es, by simpa using hr, rfl⟩)))))
    · next es _ => exact .inr (.inr (.inr (.inr (.inr (.inr ⟨_, rfl⟩)))))
    · exact .inr (.inr (.inr (.inr (.inr (.inr ⟨s.events, rfl⟩)))))

end Sys2Proof.Machine
end

