-- ==== Sys2Proof/Laws/Marshaller.lean ====
section
/-! SUPPORT. What PACK and UNPACK store (45_marshaller.md R170 to R173): the bytes they touch and the fields a reader
then finds. -/

namespace Sys2Proof.Machine
open Sys2Proof

/-! ### Fields among stored bytes -/

/-- A field stored in group `k` of numbered groups is read back, if neither the rest of its group, nor a later group,
nor anything stored later touches it. -/
theorem State.readLE_store_group (s : State) (xs ys : List Host.Cell) (f : Nat → List Host.Cell) {m k : Nat} (hk : k < m)
    (pre post : List Host.Cell) (a n v : Nat) (hf : f k = pre ++ (leCells a n v ++ post))
    (hpost : ∀ b, a ≤ b → b < a + n → b ∉ cellAddrs post)
    (hlater : ∀ j, k < j → j < m → ∀ b, a ≤ b → b < a + n → b ∉ cellAddrs (f j))
    (hys : ∀ b, a ≤ b → b < a + n → b ∉ cellAddrs ys) :
    (s.store (xs ++ ((List.range m).flatMap f ++ ys))).readLE a n = v % 256 ^ n := by
  have h := State.readLE_store s (xs ++ ((List.range k).flatMap f ++ pre))
    (post ++ ((List.range' (k + 1) (m - k - 1)).flatMap f ++ ys)) a n v (fun b h1 h2 => by
      simp only [cellAddrs_append, List.mem_append, not_or, mem_cellAddrs_flatMap, List.mem_range'_1, not_exists, not_and]
      exact ⟨hpost b h1 h2, fun j hj => hlater j (by omega) (by omega) b h1 h2, hys b h1 h2⟩)
  rw [flatMap_range_split hk, hf]
  simpa only [List.append_assoc] using h

/-- The same where nothing stands after the groups. -/
theorem State.readLE_store_last_group (s : State) (xs : List Host.Cell) (f : Nat → List Host.Cell) {m k : Nat} (hk : k < m)
    (pre post : List Host.Cell) (a n v : Nat) (hf : f k = pre ++ (leCells a n v ++ post))
    (hpost : ∀ b, a ≤ b → b < a + n → b ∉ cellAddrs post)
    (hlater : ∀ j, k < j → j < m → ∀ b, a ≤ b → b < a + n → b ∉ cellAddrs (f j)) :
    (s.store (xs ++ (List.range m).flatMap f)).readLE a n = v % 256 ^ n := by
  have h := State.readLE_store_group s xs [] f hk pre post a n v hf hpost hlater (by simp)
  rwa [List.append_nil] at h

/-! ### PACK -/

/-- The used fields lie in the channel section. -/
theorem mem_packFieldCells {s : State} {slot : Nat} {c : Chan} {b : Nat} (ht : (s.head c).tlen.toNat ≤ cap s.params)
    (hn : (s.head c).ndist.toNat ≤ cap s.params) (h : b ∈ cellAddrs (packFieldCells slot c s)) :
    secAddr s.params slot c 0 ≤ b ∧ b < secAddr s.params slot c 0 + chBytes s.params := by
  obtain ⟨h1, h2, h3, _⟩ := section_bounds s.params
  simp only [packFieldCells, cellAddrs_append, List.mem_append, mem_cellAddrs_leCells, mem_cellAddrs_flatMap,
    List.mem_range, secAddr_eq] at h ⊢
  have hm : ∀ k, k < (s.head c).ndist.toNat →
      coefBytes s.params * k + coefBytes s.params ≤ coefBytes s.params * cap s.params := fun k hk => by
    rw [← Nat.mul_succ]
    exact Nat.mul_le_mul_left _ (by omega)
  rcases h with h | h | ⟨k, hk, h⟩ | ⟨k, hk, h⟩
  · omega
  · omega
  · omega
  · have := hm k hk
    omega

/-- PACK stores the DC section and every byte of the channel section, and nothing else (45_marshaller.md R170). -/
theorem mem_packCells {s : State} {slot : Nat} {c : Chan} {b : Nat} (ht : (s.head c).tlen.toNat ≤ cap s.params)
    (hn : (s.head c).ndist.toNat ≤ cap s.params) :
    b ∈ cellAddrs (packCells slot c s) ↔
      (trAddr s.params slot 0 ≤ b ∧ b < trAddr s.params slot 0 + dcBytes s.params) ∨
        (secAddr s.params slot c 0 ≤ b ∧ b < secAddr s.params slot c 0 + chBytes s.params) := by
  have h4 := (section_bounds s.params).2.2.2.1
  simp only [packCells, packDcCells, cellAddrs_append, List.mem_append, mem_cellAddrs_zeroCells, mem_cellAddrs_flatMap,
    mem_cellAddrs_leCells]
  constructor
  · rintro ((h | ⟨d, _, h⟩) | h | h)
    · exact .inl h
    · have := trDc_in_slot s.params slot d
      exact .inl (by omega)
    · exact .inr h
    · exact .inr (mem_packFieldCells ht hn h)
  · rintro (h | h)
    · exact .inl (.inl h)
    · exact .inr (.inl h)

theorem byte_commitPack {s : State} {slot : Nat} {c : Chan} {a : Nat} (ht : (s.head c).tlen.toNat ≤ cap s.params)
    (hn : (s.head c).ndist.toNat ≤ cap s.params)
    (h1 : ¬(trAddr s.params slot 0 ≤ a ∧ a < trAddr s.params slot 0 + dcBytes s.params))
    (h2 : ¬(secAddr s.params slot c 0 ≤ a ∧ a < secAddr s.params slot c 0 + chBytes s.params)) :
    (commitPack slot c s).byte a = s.byte a :=
  State.byte_store_of_not_mem _ _ _ fun hm => by
    rcases (mem_packCells ht hn).1 hm with h | h
    · exact h1 h
    · exact h2 h

/-! ### UNPACK -/

theorem mem_unpackCells {s : State} {slot : Nat} {c : Chan} {b : Nat} :
    b ∈ cellAddrs (unpackCells slot c s) ↔
      (∃ k, k < (s.trTupLen slot c).toNat ∧ tupAddr c k ≤ b ∧ b < tupAddr c k + 4) ∨
        ∃ k, k < (s.trTabLen slot c).toNat ∧ invAddr s.params c (s.trTabCode slot c k).toNat ≤ b ∧
          b < invAddr s.params c (s.trTabCode slot c k).toNat + coefBytes s.params := by
  simp only [unpackCells, cellAddrs_append, List.mem_append, mem_cellAddrs_flatMap, List.mem_range, mem_cellAddrs_leCells]
  constructor
  · rintro (⟨k, hk, h⟩ | h)
    · exact .inl ⟨k, hk, by omega, by omega⟩
    · exact .inr h
  · rintro (⟨k, hk, h⟩ | h)
    · exact .inl ⟨k, hk, by omega⟩
    · exact .inr h

/-- UNPACK's commit of one channel: every byte but its tuples and the table entries it places is as before. -/
theorem byte_unpackChannel {s : State} {slot : Nat} {c : Chan} {a : Nat}
    (h1 : ∀ k, k < (s.trTupLen slot c).toNat → ¬(tupAddr c k ≤ a ∧ a < tupAddr c k + 4))
    (h2 : ∀ k, k < (s.trTabLen slot c).toNat → ¬(invAddr s.params c (s.trTabCode slot c k).toNat ≤ a ∧
      a < invAddr s.params c (s.trTabCode slot c k).toNat + coefBytes s.params)) :
    (unpackChannel slot c s).byte a = s.byte a := by
  rw [unpackChannel, State.byte_setHead]
  refine State.byte_store_of_not_mem _ _ _ fun hm => ?_
  rcases mem_unpackCells.1 hm with ⟨k, hk, h⟩ | ⟨k, hk, h⟩
  · exact h1 k hk h
  · exact h2 k hk h

theorem head_unpackChannel (s : State) (slot : Nat) (c d : Chan) :
    (unpackChannel slot c s).head d =
      if d = c then { dc := s.trDc slot c, tlen := s.trTupLen slot c, ndist := s.trTabLen slot c } else s.head d := by
  rw [unpackChannel, State.head_setHead, State.head_store]

end Sys2Proof.Machine
end

