-- ==== Sys2Proof/Laws/PerInstr.lean ====
section
/-! SUPPORT. What the word of each command is, command by command: the family `EncodedWord` says, of every command as
syntax, which number its word is and that no field of it is reserved or illegal (30_encoding.md R100 to R106). -/

namespace Sys2Proof.Laws
open Sys2Proof

/-- The OP field of a command (30_encoding.md R101). -/
def opcode : Instr → Nat
  | .nop _ => 0
  | .extract _ _ => 1
  | .buildTable _ _ => 2
  | .rleEncode _ _ => 3
  | .rleDecode _ _ => 4
  | .encodeBlock _ => 5
  | .decodeBlock _ => 6
  | .pack _ _ => 7
  | .unpack _ => 8

/-- The CH field of a command: 0 where it has no channel operand (30_encoding.md R102). -/
def channelBits : Instr → BitVec 2
  | .nop _ => 0
  | .extract ch _ => ch
  | .buildTable ch _ => ch
  | .rleEncode ch _ => ch
  | .rleDecode ch _ => ch
  | .encodeBlock _ => 0
  | .decodeBlock _ => 0
  | .pack _ ch => ch
  | .unpack _ => 0

/-- The SLOT field of a command: its tag or its slot (30_encoding.md R103). -/
def slotBits : Instr → Half
  | .nop tag => tag
  | .extract _ tag => tag
  | .buildTable _ tag => tag
  | .rleEncode _ tag => tag
  | .rleDecode _ tag => tag
  | .encodeBlock tag => tag
  | .decodeBlock tag => tag
  | .pack slot _ => slot
  | .unpack slot => slot

theorem toNat_append_eq {m n : Nat} (x : BitVec m) (y : BitVec n) : (x ++ y).toNat = x.toNat * 2 ^ n + y.toNat := by
  rw [BitVec.toNat_append, ← Nat.shiftLeft_add_eq_or_of_lt y.isLt, Nat.shiftLeft_eq]

/-- The number of a word put together from its fields (30_encoding.md R100). -/
theorem assemble_toNat (slot : Half) (ch : BitVec 2) (op : BitVec 4) :
    (assemble slot 0 ch op).toNat = slot.toNat * 65536 + ch.toNat * 16 + op.toNat := by
  have h : (0 : BitVec 10).toNat = 0 := rfl
  simp only [assemble, toNat_append_eq, h]
  omega

/-- The word of `i` is `(SLOT << 16) | (CH << 4) | OP`, and a non-channel command has CH = 0. -/
def EncodedWord.Statement (i : Instr) : Prop :=
  (encode i).toNat = (slotBits i).toNat * 65536 + (channelBits i).toNat * 16 + opcode i ∧
    (opcode i ∈ [0, 5, 6, 8] → channelBits i = 0)

theorem EncodedWord.nop (tag : Half) : EncodedWord.Statement (.nop tag) :=
  ⟨assemble_toNat tag 0 0x0, fun _ => rfl⟩

theorem EncodedWord.extract (ch : BitVec 2) (tag : Half) : EncodedWord.Statement (.extract ch tag) :=
  ⟨assemble_toNat tag ch 0x1, by simp [opcode]⟩

theorem EncodedWord.buildTable (ch : BitVec 2) (tag : Half) : EncodedWord.Statement (.buildTable ch tag) :=
  ⟨assemble_toNat tag ch 0x2, by simp [opcode]⟩

theorem EncodedWord.rleEncode (ch : BitVec 2) (tag : Half) : EncodedWord.Statement (.rleEncode ch tag) :=
  ⟨assemble_toNat tag ch 0x3, by simp [opcode]⟩

theorem EncodedWord.rleDecode (ch : BitVec 2) (tag : Half) : EncodedWord.Statement (.rleDecode ch tag) :=
  ⟨assemble_toNat tag ch 0x4, by simp [opcode]⟩

theorem EncodedWord.encodeBlock (tag : Half) : EncodedWord.Statement (.encodeBlock tag) :=
  ⟨assemble_toNat tag 0 0x5, fun _ => rfl⟩

theorem EncodedWord.decodeBlock (tag : Half) : EncodedWord.Statement (.decodeBlock tag) :=
  ⟨assemble_toNat tag 0 0x6, fun _ => rfl⟩

theorem EncodedWord.pack (slot : Half) (ch : BitVec 2) : EncodedWord.Statement (.pack slot ch) :=
  ⟨assemble_toNat slot ch 0x7, by simp [opcode]⟩

theorem EncodedWord.unpack (slot : Half) : EncodedWord.Statement (.unpack slot) :=
  ⟨assemble_toNat slot 0 0x8, fun _ => rfl⟩

end Sys2Proof.Laws
end

