-- ==== Sys2Proof/Laws/Reads.lean ====
section
/-! SUPPORT. The numbers that reads and checks answer: the words and half-words of an element in memory, the registers
that are put together from fields, and the two checks of a slot's entries. -/

namespace Sys2Proof.Machine
open Sys2Proof

/-! ### Words of memory (20_memory.md R61, R62) -/

theorem State.word_toNat (s : State) (a : Nat) : (s.word a).toNat = s.readLE a 4 :=
  Nat.mod_eq_of_lt (s.readLE_lt a 4)

theorem State.half_toNat (s : State) (a : Nat) : (s.half a).toNat = s.readLE a 2 :=
  Nat.mod_eq_of_lt (s.readLE_lt a 2)

theorem State.coef_toNat (s : State) (a : Nat) : (s.coef a).toNat = s.readLE a (coefBytes s.params) := by
  have h := s.readLE_lt a (coefBytes s.params)
  rw [pow_coefBytes] at h
  exact Nat.mod_eq_of_lt (h.trans_le (two_pow_coefW_le s.params))

/-- A read of `m + n` bytes is the read of the first `m`, and above it that of the `n` behind them. -/
theorem State.readLE_add (s : State) (a m n : Nat) :
    s.readLE a (m + n) = s.readLE a m + 256 ^ m * s.readLE (a + m) n := by
  induction m generalizing a with
  | zero => simp [State.readLE]
  | succ m ih =>
    rw [show m + 1 + n = (m + n) + 1 by omega]
    simp only [State.readLE, ih, show a + 1 + m = a + (m + 1) by omega, pow_succ]
    ring

/-- The low word of an element. -/
theorem State.word_eq_coef_lo (s : State) (a : Nat) : (s.word a).toNat = (s.coef a).toNat % 2 ^ 32 := by
  have h := s.readLE_lt a 4
  rw [s.word_toNat, s.coef_toNat]
  rcases coefBytes_cases s.params with hb | hb
  · rw [hb]
    exact (Nat.mod_eq_of_lt h).symm
  · rw [hb, s.readLE_add a 4 4]
    omega

/-- The high word of an element of 64 bits. -/
theorem State.word_eq_coef_hi (s : State) (a : Nat) (hw : s.params.coef64 = true) :
    (s.word (a + 4)).toNat = (s.coef a).toNat / 2 ^ 32 := by
  have h := s.readLE_lt a 4
  have hb : coefBytes s.params = 8 := by rw [coefBytes, if_pos hw]
  rw [s.word_toNat, s.coef_toNat, hb, s.readLE_add a 4 4]
  omega

/-- A word holds two half-words, the lower one first. -/
theorem State.word_eq_halves (s : State) (a : Nat) :
    (s.word a).toNat = (s.half a).toNat + 65536 * (s.half (a + 2)).toNat := by
  rw [s.word_toNat, s.half_toNat, s.half_toNat]
  exact s.readLE_add a 2 2

/-! ### Fields of registers -/

theorem coefLo_toNat (v : Coef) : (coefLo v).toNat = v.toNat % 2 ^ 32 := by
  simp [coefLo]

theorem coefHi_toNat (p : Params) (v : Coef) : (coefHi p v).toNat = if p.coef64 then v.toNat / 2 ^ 32 else 0 := by
  have h := v.isLt
  unfold coefHi
  split
  · simp only [BitVec.extractLsb'_toNat, Nat.shiftRight_eq_div_pow]
    omega
  · rfl

/-- STATUS: BUSY in bit 0, ERR in bit 1 (10_state.md R29). -/
theorem State.status_toNat (s : State) : s.status.toNat = (if s.busy then 1 else 0) + if s.statusErr then 2 else 0 := by
  unfold State.status
  cases s.busy <;> cases s.statusErr <;> rfl

/-- ERR_CH: CH from bit 0 on, CHMASK from bit 4 on (10_state.md R32). -/
theorem errChWord_toNat (e : ErrRecord) : (errChWord e).toNat = e.ch.toNat + 16 * e.mask.toNat := by
  have h : (0 : BitVec 25).toNat = 0 ∧ (0 : BitVec 2).toNat = 0 := ⟨rfl, rfl⟩
  simp only [errChWord, Laws.toNat_append_eq, h.1, h.2]
  omega

/-- Each cause stands once in the list of codes (60_exceptions.md R201). -/
theorem mem_causeCodes {c : Cause} {n : Nat} : (c, n) ∈ causeCodes ↔ n = c.code.toNat := by
  cases c <;> simp [causeCodes, Cause.code]

/-! ### The checks of a slot's entries (45_marshaller.md R172, R173) -/

theorem capacityError_eq (p : Params) (c : Chan) (pos used : Half) :
    capacityError p c pos used = failure .capacity c pos.toNat used.toNat (cap p) := by
  simp [capacityError, failure]

theorem codeClashes_iff {slot : Nat} {c : Chan} {s : State} {k : Nat} :
    codeClashes slot c s k ↔
      (decide ((s.trTabLen slot c).toNat ≤ (s.trTabCode slot c k).toNat) ||
        (List.range k).any fun j => s.trTabCode slot c j == s.trTabCode slot c k) = true := by
  simp [codeClashes]

theorem valueClashes_iff {slot : Nat} {c : Chan} {s : State} {k : Nat} :
    valueClashes slot c s k ↔ ((List.range k).any fun j => s.trTabVal slot c j == s.trTabVal slot c k) = true := by
  simp [valueClashes]

theorem trTabVal_hi (slot : Nat) (c : Chan) (s : State) (k : Nat) :
    coefHi s.params (s.trTabVal slot c k) = BitVec.ofNat 32 ((s.trTabVal slot c k).toNat / 2 ^ 32) := by
  have h := s.coef_lt (secAddr s.params slot c (tvOff s.params + coefBytes s.params * k))
  refine BitVec.eq_of_toNat_eq ?_
  have h64 := (s.trTabVal slot c k).isLt
  rw [coefHi_toNat, BitVec.toNat_ofNat, Nat.mod_eq_of_lt (by omega)]
  split
  · rfl
  · next hw =>
    rw [coefW, if_neg hw] at h
    exact (Nat.div_eq_of_lt h).symm

/-- An entry's code is checked before its value. -/
theorem tableEntryCheck_of_code {slot : Nat} {c : Chan} {s : State} {k : Nat} (h : codeClashes slot c s k) :
    tableEntryCheck slot c s k =
      some (failure .tableBadCode c k (s.trTabCode slot c k).toNat (s.trTabLen slot c).toNat) := by
  unfold tableEntryCheck
  rw [if_pos (codeClashes_iff.1 h)]
  simp [failure]

theorem tableEntryCheck_of_value {slot : Nat} {c : Chan} {s : State} {k : Nat} (h : ¬codeClashes slot c s k)
    (hv : valueClashes slot c s k) :
    tableEntryCheck slot c s k =
      some (failure .tableDupValue c k ((s.trTabVal slot c k).toNat % 2 ^ 32)
        ((s.trTabVal slot c k).toNat / 2 ^ 32)) := by
  unfold tableEntryCheck
  rw [if_neg (fun hc => h (codeClashes_iff.2 hc)), if_pos (valueClashes_iff.1 hv), trTabVal_hi]
  simp only [failure, Option.some.injEq, CmdError.mk.injEq, true_and, and_true]
  exact BitVec.eq_of_toNat_eq (by simp [coefLo_toNat])

theorem tableEntryCheck_of_pass {slot : Nat} {c : Chan} {s : State} {k : Nat} (h : ¬codeClashes slot c s k)
    (hv : ¬valueClashes slot c s k) : tableEntryCheck slot c s k = none := by
  unfold tableEntryCheck
  rw [if_neg (fun hc => h (codeClashes_iff.2 hc)), if_neg (fun hc => hv (valueClashes_iff.2 hc))]

theorem tupleRunCheck_eq (slot : Nat) (c : Chan) (s : State) (k : Nat) :
    tupleRunCheck slot c s k =
      if s.trTupRun slot c k = 0 then some (failure .badRun c k (s.trTupCode slot c k).toNat 0) else none := by
  unfold tupleRunCheck
  split
  · simp [failure]
  · rfl

/-- What a check of every index reports is its first failure. -/
theorem findSome_range_iff {α : Type} (f : Nat → Option α) (n : Nat) (e : α) :
    (List.range n).findSome? f = some e ↔ ∃ k, k < n ∧ (∀ j, j < k → f j = none) ∧ f k = some e := by
  induction n with
  | zero => simp
  | succ n ih =>
    rw [List.range_succ, List.findSome?_append, Option.or_eq_some_iff, ih]
    constructor
    · rintro (⟨k, hk, h⟩ | ⟨h0, h⟩)
      · exact ⟨k, by omega, h⟩
      · rw [List.findSome?_eq_none_iff] at h0
        exact ⟨n, by omega, fun j hj => h0 j (List.mem_range.2 hj), by simpa using h⟩
    · rintro ⟨k, hk, hb, h⟩
      rcases Nat.lt_or_ge k n with hk' | hk'
      · exact .inl ⟨k, hk', hb, h⟩
      · obtain rfl : k = n := by omega
        exact .inr ⟨List.findSome?_eq_none_iff.2 fun j hj => hb j (List.mem_range.1 hj), by simpa using h⟩

end Sys2Proof.Machine
end

