-- ==== Sys2Proof/Tests/Slice0.lean ====
section
/-! SUPPORT. The model's own tests: well-formedness, decoding of words written out bit by bit, one step of each command
on the spec's own examples, and for every statement with hypotheses a state that meets them. -/

namespace Sys2Proof.Tests
open Sys2Proof Sys2Proof.Machine

-- One test at a time: many kernel evaluations at once need more memory than a check may use.
set_option Elab.async false

/-! ### Well-formedness: CH = 3 names no channel (30_encoding.md R102) -/

theorem test_wf_refuses_extract_ch3 : Instr.wf (.extract 3 0) = false := by decide
theorem test_wf_refuses_buildTable_ch3 : Instr.wf (.buildTable 3 0) = false := by decide
theorem test_wf_refuses_rleEncode_ch3 : Instr.wf (.rleEncode 3 0) = false := by decide
theorem test_wf_refuses_rleDecode_ch3 : Instr.wf (.rleDecode 3 0) = false := by decide
theorem test_wf_refuses_pack_ch3 : Instr.wf (.pack 0 3) = false := by decide
theorem test_wf_takes_the_others : Instr.wf (.pack 0xFFFF 2) = true ∧ Instr.wf (.nop 3) = true := by decide

/-! ### Decoding: SLOT, RSV, CH, OP written out from 30_encoding.md R100, R101, R109 -/

theorem test_decode_nop : decodeTableWord 32 0b00000000000001010000000000000000 = some (.nop 5) := by decide
theorem test_decode_extract : decodeTableWord 32 0b00000000000001110000000000010001 = some (.extract 1 7) := by decide
theorem test_decode_buildTable : decodeTableWord 32 0b00000000000000000000000000100010 = some (.buildTable 2 0) := by
  decide
theorem test_decode_rleEncode : decodeTableWord 32 0b10000000000000000000000000000011 = some (.rleEncode 0 0x8000) := by
  decide
theorem test_decode_rleDecode : decodeTableWord 32 0b00000000000000010000000000110100 = some (.rleDecode 3 1) := by
  decide
theorem test_decode_encodeBlock : decodeTableWord 32 0b11111111111111110000000000000101 = some (.encodeBlock 0xFFFF) := by
  decide
theorem test_decode_decodeBlock : decodeTableWord 32 0b00000000000000110000000000000110 = some (.decodeBlock 3) := by
  decide
theorem test_decode_pack : decodeTableWord 32 0b00000000000000110000000000100111 = some (.pack 3 2) := by decide
theorem test_decode_unpack : decodeTableWord 32 0b00000000000000110000000000001000 = some (.unpack 3) := by decide

/-- A table word of fewer bits has zeros above them. -/
theorem test_decode_short : decodeTableWord 16 0xFFFF0001 = some (.extract 0 0) := by decide

theorem test_decode_refuses_reserved_op : decodeTableWord 32 0x00000009 = none := by decide
theorem test_decode_refuses_rsv : decodeTableWord 32 0x00008001 = none ∧ decodeTableWord 32 0x00000041 = none := by decide
theorem test_decode_refuses_ch_on_unpack : decodeTableWord 32 0x00000018 = none := by decide

/-! ### Small states -/

/-- N_MAX = 4, the build of the spec's transport vectors (95_test_vectors.md), with two slots. -/
def p4 : Params := { coef64 := false, nMax := 4, nSlot := 2 }

/-- A build of 64-bit coefficients, N_MAX = 2. -/
def p2w : Params := { coef64 := true, nMax := 2, nSlot := 1 }

/-- N_MAX = 8, for the example of 41_freq_table.md R133. -/
def p8 : Params := { coef64 := false, nMax := 8, nSlot := 1 }

def idle (p : Params) : State := State.afterHardReset p 0 []

/-- Consecutive words stored from an address on. -/
def put (a : Nat) (ws : List Nat) (s : State) : State := s.store (arrayCells (fun k => a + 4 * k) 4 0 ws)

/-- The state in which a command runs with a latched LEN. -/
def running' (i : Instr) (n : Half) (s : State) : State :=
  { accept (encode i) s with latch := some { cmd := encode i, len := n } }

/-- The state a command leaves. -/
def after (i : Instr) (n : Half) (s : State) : State :=
  match exec i (running' i n s) with
  | .next t => t
  | .fault _ => s
  | .refused _ => s

/-- The state a step leaves. -/
def stepped (s : State) : State :=
  match step s with
  | .next t => t
  | .fault _ => s
  | .refused _ => s

/-- The block of 44_block_codec.md R160's example, pixel by pixel. -/
def block : State :=
  put 0x010000
    [0x41200000, 0x3F800000, 0x00000000,
     0x40A00000, 0x40000000, 0x80000000,
     0x40A00000, 0x40000000, 0x40E00000,
     0x40A00000, 0x3F800000, 0x40E00000] (idle p4)

/-- Channel Y of the Encoded Block of R160's example, with its sequence: SEQ = [10, 5, 5, 5], INV = [5],
TUP = [(0, 3)]. -/
def encodedY : State :=
  (put 0x030000 [0x41200000, 0x40A00000, 0x40A00000, 0x40A00000]
    (put 0x042000 [0x40A00000] (put 0x041000 [0x00030000] (idle p4)))).setHead .y { dc := 0x41200000, tlen := 1, ndist := 1 }

/-- A slot 1 whose Y section holds the tuple (1, 3) and the pairs (1, 5.0), (0, 7.0), the others being empty. -/
def slotY : State :=
  put 0x100088
    [0x41200000, 0, 0, 0,
     0x00020001, 0x00030001, 0, 0, 0x00000001, 0, 0x40A00000, 0x40E00000, 0, 0,
     0, 0, 0, 0, 0, 0, 0, 0, 0, 0,
     0, 0, 0, 0, 0, 0, 0, 0, 0, 0] (idle p4)

/-! ### One step of each command -/

/-- 46_housekeeping.md R190's example: STATUS = 0, ERR_CAUSE = 0, DONE = 1. -/
theorem test_nop : (after (.nop 5) 0 (idle p4)).status = 0 ∧ (after (.nop 5) 0 (idle p4)).irqStatus = 1 ∧
    csrRead .errCause (after (.nop 5) 0 (idle p4)) = 0 := by decide +kernel

/-- 40_extract.md R121's example. -/
theorem test_extract :
    let s := put 0x010000 [0x41200000, 0, 0, 0x80000000, 0, 0, 0x40A00000, 0, 0, 0x80000000, 0, 0] (idle p4)
    (List.range 4).map ((after (.extract 0 0) 4 s).seq .y) = [0x41200000, 0x00000000, 0x40A00000, 0x00000000] := by
  decide +kernel

/-- 60_exceptions.md R207: LEN = 5 with N_MAX = 4. -/
theorem test_extract_bad_len :
    (after (.extract 1 0x1234) 5 (idle p4)).err =
      { cause := .badLen, slot := 0x1234, ch := 1, mask := 0, pos := 0, lo := 5, hi := 4 } := by decide +kernel

/-- 41_freq_table.md R133's example: SEQ[0] = [9, 3, 1, 3, 2, 1, 3] gives INV[0] = [3, 1, 2]. -/
theorem test_buildTable :
    let s := put 0x030000 [0x41100000, 0x40400000, 0x3F800000, 0x40400000, 0x40000000, 0x3F800000, 0x40400000] (idle p8)
    let t := after (.buildTable 0 0) 7 s
    (t.head .y).ndist = 3 ∧ (List.range 3).map (t.inv .y) = [0x40400000, 0x3F800000, 0x40000000] := by decide +kernel

/-- 41_freq_table.md R131: among equal counts, −1 stands before +0 and 1 (95_test_vectors.md's keys). -/
theorem test_buildTable_key_order :
    let s := put 0x034000 [0x41100000, 0x3F800000, 0x00000000, 0xBF800000] (idle p4)
    let t := after (.buildTable 2 0) 4 s
    (List.range 3).map (t.inv .cb) = [0xBF800000, 0x00000000, 0x3F800000] := by decide +kernel

/-- 42_rle_encode.md R141's example: DC = 10, TUP = [(0, 3)]. -/
theorem test_rleEncode :
    let t := after (.rleEncode 0 0) 4 encodedY
    (t.head .y).dc = 0x41200000 ∧ (t.head .y).tlen = 1 ∧ t.tupCode .y 0 = 0 ∧ t.tupRun .y 0 = 3 := by decide +kernel

/-- R141: a value with no code is reported with its index. -/
theorem test_rleEncode_miss :
    (after (.rleEncode 0 0) 4 (put 0x030008 [0x7FC00000] encodedY)).err =
      { cause := .lookupMiss, slot := 0, ch := 0, mask := 1, pos := 2, lo := 0x7FC00000, hi := 0 } := by decide +kernel

/-- 43_rle_decode.md R150's example: BLK_OUT[0..3][0] = [10, 5, 5, 5]. -/
theorem test_rleDecode :
    (List.range 4).map ((after (.rleDecode 0 0) 4 encodedY).blkOut .y) =
      [0x41200000, 0x40A00000, 0x40A00000, 0x40A00000] := by decide +kernel

/-- R150: LEN = 3 does not fit runs that sum to 3. -/
theorem test_rleDecode_length :
    (after (.rleDecode 0 2) 3 encodedY).err =
      { cause := .lengthMismatch, slot := 2, ch := 0, mask := 1, pos := 1, lo := 3, hi := 2 } := by decide +kernel

/-- 44_block_codec.md R160's example. -/
theorem test_encodeBlock :
    let t := after (.encodeBlock 0) 4 block
    Chan.all.map (fun c => (t.head c).dc) = [0x41200000, 0x3F800000, 0] ∧
      (List.range 2).map (t.inv .cb) = [0x40E00000, 0] ∧ (t.tupCode .cb 0, t.tupRun .cb 0) = (1, 1) ∧
      (t.tupCode .cb 1, t.tupRun .cb 1) = (0, 2) ∧ (List.range 2).map (t.inv .cr) = [0x40000000, 0x3F800000] := by
  decide +kernel

/-- 44_block_codec.md R161's example, on the block just encoded: pixel 2 is (5, 2, 7). -/
theorem test_decodeBlock :
    let t := after (.decodeBlock 0) 4 (after (.encodeBlock 0) 4 block)
    t.statusErr = false ∧ Chan.all.map (fun c => t.blkOut c 2) = [0x40A00000, 0x40000000, 0x40E00000] := by
  decide +kernel

/-- R161: Cr and Cb are empty, so they fail with LEN = 4; Y is decoded. -/
theorem test_decodeBlock_partial :
    let t := after (.decodeBlock 9) 4 encodedY
    t.err = { cause := .lengthMismatch, slot := 9, ch := 1, mask := 6, pos := 0, lo := 0, hi := 3 } ∧
      t.blkOut .y 3 = 0x40A00000 := by decide +kernel

/-- 45_marshaller.md R170's example: the words of slot 0's DC section and Y section. -/
theorem test_pack :
    let t := after (.pack 0 0) 0 ((encodedY.setHead .cr { EncHead.empty with dc := 0x3F800000 }))
    (List.range 14).map (fun k => t.word (0x100000 + 4 * k)) =
      [0x41200000, 0x3F800000, 0x00000000, 0x00000000,
       0x00010001, 0x00030000, 0, 0, 0x00000000, 0x00000000, 0x40A00000, 0, 0, 0] := by decide +kernel

/-- 60_exceptions.md R208: s = NSLOT. -/
theorem test_pack_slot_range :
    (after (.pack 2 1) 0 (idle p4)).err =
      { cause := .slotRange, slot := 2, ch := 1, mask := 0, pos := 0, lo := 2, hi := 2 } := by decide +kernel

/-- 45_marshaller.md R171: INV is placed by code. -/
theorem test_unpack :
    let t := after (.unpack 1) 0 slotY
    t.head .y = { dc := 0x41200000, tlen := 1, ndist := 2 } ∧ (t.tupCode .y 0, t.tupRun .y 0) = (1, 3) ∧
      (List.range 2).map (t.inv .y) = [0x40E00000, 0x40A00000] := by decide +kernel

/-- 45_marshaller.md R172: a repeated code in Y and a run of 0 in Cr; the lowest channel is reported, both are masked. -/
theorem test_unpack_rejects :
    (after (.unpack 1) 0 (put 0x1000C0 [0x00000001, 0] (put 0x1000A8 [0] slotY))).err =
      { cause := .tableBadCode, slot := 1, ch := 0, mask := 3, pos := 1, lo := 0, hi := 2 } := by decide +kernel

/-! ### Steps -/

/-- The word placed for the fetch runs as the next command. -/
theorem test_step_runs_the_word :
    (stepped (State.reset.withFetchWord 32 0x00050000)).busy = false ∧
      (stepped (State.reset.withFetchWord 32 0x00050000)).lastCmd = 0x00050000 := by decide +kernel

/-- R105: an illegal word completes with BAD_CMD. -/
theorem test_step_bad_cmd :
    (stepped (State.reset.withFetchWord 32 0x00070019)).err =
      { cause := .badCmd, slot := 7, ch := 1, mask := 0, pos := 0, lo := 0x00070019, hi := 0 } := by decide +kernel

/-! ### Witnesses: every statement's hypotheses are met by a state -/

/-- A command runs with LEN = n on the build p4. -/
def runs4 (n : Half) (s : State) : State := { s with latch := some { cmd := 0, len := n } }

/-- Channel Y encoded on the build p4, with DC and table; a command runs with LEN = n. -/
def encodedRuns (n : Half) : State := runs4 n encodedY

theorem runningWithLen_of {s : State} {l : Latch} {n : Nat} (h1 : legalBuild s.params = true) (h2 : s.latch = some l)
    (h3 : l.len.toNat = n) (h4 : 1 ≤ n) (h5 : n ≤ s.params.nMax) : runningWithLen s n := ⟨h1, ⟨l, h2, h3⟩, h4, h5⟩

theorem legal_p4 : legalBuild p4 = true := by decide

/-- LEN = 1 and LEN = N_MAX, the ends of its range. -/
theorem witness_runningWithLen : runningWithLen (encodedRuns 1) 1 ∧ runningWithLen (encodedRuns 4) 4 ∧
    runningWithLen (runs4 4 block) 4 :=
  ⟨runningWithLen_of legal_p4 rfl rfl (by decide) (by decide), runningWithLen_of legal_p4 rfl rfl (by decide) (by decide),
    runningWithLen_of legal_p4 rfl rfl (by decide) (by decide)⟩

/-- For `NopOnlyCompletes`: LEN = 0 is no obstacle. -/
theorem witness_NopOnlyCompletes : running (runs4 0 (idle p4)) := ⟨legal_p4, _, rfl⟩

theorem witness_DecodedWordIsItsEncoding : decode 0xFFFF0037 = .ok (.pack 0xFFFF 3) := rfl

/-- Each way of `illegal` at a boundary, and legal neighbours. -/
theorem witness_DecodeRefusesExactlyTheIllegalWords :
    decode 9 = .error (.reservedOp 9) ∧ decode 0x41 = .error (.reservedBits 1) ∧
      decode 0x10 = .error (.channelNotZero 1) ∧ decode 8 = .ok (.unpack 0) ∧ decode 0x31 = .ok (.extract 3 0) :=
  ⟨rfl, rfl, rfl, rfl, rfl⟩

/-- NOP #5 accepted on the build p4, with a given input behind it. -/
def nopRuns (es : List Event) : State :=
  { idle p4 with latch := some { cmd := 0x00050000, len := 4 }, lastCmd := 0x00050000, events := es }

/-- For the clauses of `StepRunsTheDecodedCommand`. -/
theorem witness_StepRunsTheDecodedCommand :
    decode 0x00050000 = .ok (.nop 5) ∧
    (legalBuild (nopRuns []).params = true ∧ (nopRuns []).rstN = true ∧ (nopRuns []).held = none ∧
      (nopRuns []).latch = some { cmd := 0x00050000, len := 4 }) ∧
    (nopRuns [.engine]).events = .engine :: [] ∧
    ({ nopRuns [.engine] with held := some (.read 0x020000 0xF) }.held = some (.read 0x020000 0xF) ∧ noReset [.engine]) ∧
    (nopRuns [.sameCycle (.read 0x01C 0xF) false]).events = .sameCycle (.read 0x01C 0xF) false :: [] ∧
    Txn.writesIrqStatus (.read 0x01C 0xF) = false :=
  ⟨rfl, ⟨legal_p4, rfl, rfl, rfl⟩, rfl, ⟨rfl, fun _ h => by cases h⟩, rfl, rfl⟩

theorem dcInWidth_encodedY (n : Half) : dcInWidth (encodedRuns n) := by
  have h : ∀ c, (encodedY.head c).dc.toNat < 2 ^ coefW p4 := fun c => by cases c <;> decide
  exact h

/-- For `RleEncodeStoresOneTuplePerRun` and `EncodedRunsAreConservedAndMaximal`, at LEN = 1 and LEN = 4. -/
theorem witness_RleEncodeStoresOneTuplePerRun :
    (runningWithLen (encodedRuns 4) 4 ∧ encodable .y 4 (encodedRuns 4)) ∧
      (runningWithLen (encodedRuns 1) 1 ∧ encodable .y 1 (encodedRuns 1)) :=
  ⟨⟨witness_runningWithLen.2.1, encodeCheck_eq_none.1 (by decide +kernel)⟩,
    ⟨witness_runningWithLen.1, encodeCheck_eq_none.1 (by decide +kernel)⟩⟩

/-- For `RleDecodeWritesTheLane`. -/
theorem witness_RleDecodeWritesTheLane :
    runningWithLen (encodedRuns 4) 4 ∧ dcInWidth (encodedRuns 4) ∧ decodable .y 4 (encodedRuns 4) :=
  ⟨witness_runningWithLen.2.1, dcInWidth_encodedY 4, decodeCheck_eq_none.1 (by decide +kernel)⟩

/-- For the clauses of `DecodeBlockWritesThePassingLanes`: Y passes and Cr fails first; and with LEN = 1 the empty
channels of a reset state all pass. -/
theorem witness_DecodeBlockWritesThePassingLanes :
    (runningWithLen (encodedRuns 4) 4 ∧ dcInWidth (encodedRuns 4) ∧ decodable .y 4 (encodedRuns 4) ∧
      decodeCheck .cr 4 (encodedRuns 4) =
        some { cause := .lengthMismatch, ch := 1, pos := 0, lo := 0, hi := 3 } ∧
      ∀ d, Chan.idx d < Chan.idx .cr → decodeCheck d 4 (encodedRuns 4) = none) ∧
    (runningWithLen (runs4 1 (idle p4)) 1 ∧ dcInWidth (runs4 1 (idle p4)) ∧ ∀ c, decodable c 1 (runs4 1 (idle p4))) :=
  ⟨⟨witness_runningWithLen.2.1, dcInWidth_encodedY 4, decodeCheck_eq_none.1 (by decide +kernel), by decide +kernel,
      fun d h => by cases d <;> first | decide +kernel | exact absurd h (by decide)⟩,
    ⟨runningWithLen_of legal_p4 rfl rfl (by decide) (by decide), fun c => by cases c <;> decide,
      fun c => decodeCheck_eq_none.1 (by cases c <;> decide +kernel)⟩⟩

/-- A channel at full capacity: TLEN = NDIST = CAP = 3. -/
def fullY : State :=
  (put 0x042000 [7, 8, 9] (put 0x041000 [0x00010000, 0x00010001, 0x00010002] (runs4 4 (idle p4)))).setHead .y
    { dc := 0xFFFFFFFF, tlen := 3, ndist := 3 }

/-- For `PackWritesTheSection`: the last slot, lengths of CAP, and a DC of all bits set. -/
theorem witness_PackWritesTheSection :
    running fullY ∧ (1 : Half).toNat < fullY.params.nSlot ∧ dcInWidth fullY ∧
      (fullY.head .y).tlen.toNat ≤ cap fullY.params ∧ (fullY.head .y).ndist.toNat ≤ cap fullY.params :=
  ⟨⟨legal_p4, _, rfl⟩, by decide, fun c => by cases c <;> decide, by decide, by decide⟩

/-- For `UnpackLoadsAValidSlot`. -/
theorem witness_UnpackLoadsAValidSlot :
    running (runs4 0 slotY) ∧ (1 : Half).toNat < (runs4 0 slotY).params.nSlot ∧
      ∀ c, validate (1 : Half).toNat c (runs4 0 slotY) = none :=
  ⟨⟨legal_p4, _, rfl⟩, by decide, fun c => by cases c <;> decide +kernel⟩

/-- A state whose running word spells no operation. -/
def illegalRuns (es : List Event) : State := { nopRuns es with latch := some { cmd := 0x00000009, len := 4 } }

/-- For the three cases of `IllegalWordCompletesWithBadCmd`. -/
theorem witness_IllegalWordCompletesWithBadCmd :
    illegal 0x00000009 = true ∧ legalBuild (illegalRuns []).params = true ∧ (illegalRuns []).rstN = true ∧
      (illegalRuns []).latch = some { cmd := 0x00000009, len := 4 } ∧
      ((illegalRuns []).held = none ∧ (illegalRuns []).events = []) ∧
      ((illegalRuns [.engine]).held = none ∧ (illegalRuns [.engine]).events = .engine :: []) ∧
      ({ illegalRuns [] with held := some (.read 0x020000 0xF) }.held.isSome = true ∧ noReset []) :=
  ⟨rfl, legal_p4, rfl, rfl, ⟨rfl, rfl⟩, ⟨rfl, rfl⟩, ⟨rfl, fun _ h => by cases h⟩⟩

theorem witness_ChannelThreeRaisesBadChannel :
    running (runs4 0 (idle p4)) ∧ Instr.pack 0xFFFF 3 ∈
      [Instr.extract 3 0xFFFF, .buildTable 3 0xFFFF, .rleEncode 3 0xFFFF, .rleDecode 3 0xFFFF, .pack 0xFFFF 3] :=
  ⟨⟨legal_p4, _, rfl⟩, by decide⟩

/-- LEN = 0 and LEN = N_MAX + 1. -/
theorem witness_LenOutOfRangeRaisesBadLen :
    legalBuild (runs4 0 (idle p4)).params = true ∧ (runs4 0 (idle p4)).latch = some { cmd := 0, len := 0 } ∧
      ¬(1 ≤ (0 : Half).toNat ∧ (0 : Half).toNat ≤ (runs4 0 (idle p4)).params.nMax) ∧
      (runs4 5 (idle p4)).latch = some { cmd := 0, len := 5 } ∧
      ¬(1 ≤ (5 : Half).toNat ∧ (5 : Half).toNat ≤ (runs4 5 (idle p4)).params.nMax) :=
  ⟨legal_p4, rfl, by decide, rfl, by decide⟩

theorem witness_SlotBeyondNslotRaisesSlotRange :
    running (runs4 4 (idle p4)) ∧ (runs4 4 (idle p4)).params.nSlot ≤ (2 : Half).toNat :=
  ⟨⟨legal_p4, _, rfl⟩, by decide⟩

/-- Channel Y with a value at index 3 that the table does not hold. -/
def missY : State := put 0x03000C [0x7FC00000] (encodedRuns 4)

theorem witness_RleEncodeReportsTheFirstMiss :
    runningWithLen missY 4 ∧ missY.fwd .y (missY.seq .y 3) = none ∧
      ∀ j, 1 ≤ j → j < 3 → (missY.fwd .y (missY.seq .y j)).isSome = true :=
  ⟨runningWithLen_of legal_p4 rfl rfl (by decide) (by decide), by decide +kernel,
    encodeCheck_eq_none.1 (show encodeCheck .y 3 missY = none by decide +kernel)⟩

/-- Tuples (0, 1), (2, 1) with a table of two entries. -/
def badCodeY : State :=
  (put 0x042000 [7, 8] (put 0x041000 [0x00010000, 0x00010002] (runs4 4 (idle p4)))).setHead .y
    { dc := 0, tlen := 2, ndist := 2 }

theorem witness_RleDecodeReportsTheFirstMiss :
    runningWithLen badCodeY 4 ∧ 1 < (badCodeY.head .y).tlen.toNat ∧
      (badCodeY.head .y).ndist.toNat ≤ (badCodeY.tupCode .y 1).toNat ∧
      ∀ j, j < 1 → (badCodeY.tupCode .y j).toNat < (badCodeY.head .y).ndist.toNat :=
  ⟨runningWithLen_of legal_p4 rfl rfl (by decide) (by decide), by decide, by decide +kernel, by decide +kernel⟩

theorem witness_RleDecodeReportsAWrongLength :
    runningWithLen (encodedRuns 3) 3 ∧
      (∀ k, k < ((encodedRuns 3).head .y).tlen.toNat →
        ((encodedRuns 3).tupCode .y k).toNat < ((encodedRuns 3).head .y).ndist.toNat) ∧
      totalRun .y (encodedRuns 3) ≠ 3 - 1 :=
  ⟨runningWithLen_of legal_p4 rfl rfl (by decide) (by decide), by decide +kernel, by decide +kernel⟩

/-- Lengths beyond CAP, which no run reaches. -/
def beyondCap (tlen ndist : Half) : State := (runs4 4 (idle p4)).setHead .cb { dc := 0, tlen := tlen, ndist := ndist }

theorem witness_PackRefusesLengthsBeyondCap :
    (running (beyondCap 4 9) ∧ (0 : Half).toNat < (beyondCap 4 9).params.nSlot ∧
      cap (beyondCap 4 9).params < ((beyondCap 4 9).head .cb).tlen.toNat) ∧
    (((beyondCap 3 4).head .cb).tlen.toNat ≤ cap (beyondCap 3 4).params ∧
      cap (beyondCap 3 4).params < ((beyondCap 3 4).head .cb).ndist.toNat) :=
  ⟨⟨⟨legal_p4, _, rfl⟩, by decide, by decide⟩, by decide, by decide⟩

/-- A slot 1 whose Cr section alone fails, by a tuple of run 0. -/
def badRunSlot : State := put 0x1000C0 [0x00000001, 0x00000002] (runs4 4 slotY)

theorem witness_UnpackRejectsAnInvalidSlotWhole :
    running badRunSlot ∧ (1 : Half).toNat < badRunSlot.params.nSlot ∧
      validate (1 : Half).toNat .cr badRunSlot = some { cause := .badRun, ch := 1, pos := 0, lo := 2, hi := 0 } ∧
      ∀ d, Chan.idx d < Chan.idx .cr → validate (1 : Half).toNat d badRunSlot = none :=
  ⟨⟨legal_p4, _, rfl⟩, by decide, by decide +kernel,
    fun d h => by cases d <;> first | decide +kernel | exact absurd h (by decide)⟩

/-- A slot 1 whose Y section holds the given first word, table codes and second table value. -/
def sectionY (first codes val1 : Nat) : State :=
  put 0x1000B4 [val1] (put 0x1000A8 [codes] (put 0x100098 [first] slotY))

/-- Each clause, with its position and data words: CAP + 1 tuples; CAP + 1 entries; a code equal to TAB_LEN; an entry
whose code and whose value both repeat, which reports its code; a repeated value; a run of 0. -/
theorem witness_ValidationReportsTheFirstFailure :
    validate 1 .y (sectionY 0x00040004 1 0) = some { cause := .capacity, ch := 0, pos := 0, lo := 4, hi := 3 } ∧
      validate 1 .y (sectionY 0x00040003 1 0) = some { cause := .capacity, ch := 0, pos := 1, lo := 4, hi := 3 } ∧
      validate 1 .y (sectionY 0x00020001 0x00020001 0) =
        some { cause := .tableBadCode, ch := 0, pos := 1, lo := 2, hi := 2 } ∧
      validate 1 .y (sectionY 0x00020001 0x00010001 0x40A00000) =
        some { cause := .tableBadCode, ch := 0, pos := 1, lo := 1, hi := 2 } ∧
      validate 1 .y (sectionY 0x00020001 1 0x40A00000) =
        some { cause := .tableDupValue, ch := 0, pos := 1, lo := 0x40A00000, hi := 0 } ∧
      validate 1 .cr badRunSlot = some { cause := .badRun, ch := 1, pos := 0, lo := 2, hi := 0 } := by
  decide +kernel

theorem witness_NormalisationChangesOnlyNegativeZero : (0x80000001 : Coef) ≠ negZero p4 ∧ (0 : Coef) ≠ negZero p4 := by
  decide

/-- Each clause of the key's order, at the ends of the two halves. -/
theorem witness_KeyIsATotalOrderKey :
    (0xFFFFFFFF : Coef).toNat < 2 ^ coefW p4 ∧
      ((0x7FFFFFFF : Coef).toNat < 2 ^ (coefW p4 - 1) ∧ 2 ^ (coefW p4 - 1) ≤ (0x80000000 : Coef).toNat) ∧
      (0x7FFFFFFE : Coef).toNat < (0x7FFFFFFF : Coef).toNat ∧
      (2 ^ (coefW p4 - 1) ≤ (0x80000000 : Coef).toNat ∧ (0x80000000 : Coef).toNat < (0xFFFFFFFF : Coef).toNat) ∧
      key p4 0x7FFFFFFF = key p4 0x7FFFFFFF := by decide +kernel

theorem witness_CanonicalOrderIsTheSortByCountThenKey :
    (∀ v ∈ ([3, 1, 3, 0xFFFFFFFF] : List Coef), v.toNat < 2 ^ coefW p4) ∧
      (∀ v, v ∈ ([3, 0xFFFFFFFF, 1] : List Coef) ↔ v ∈ ([3, 1, 3, 0xFFFFFFFF] : List Coef)) ∧
      ([3, 0xFFFFFFFF, 1] : List Coef).Pairwise (fun u v => canonBefore p4 [3, 1, 3, 0xFFFFFFFF] u v = true) ∧
      canonBefore p4 [3, 1, 3, 0xFFFFFFFF] 3 0xFFFFFFFF = true ∧ canonBefore p4 [3, 1, 3, 0xFFFFFFFF] 0xFFFFFFFF 1 = true :=
  ⟨fun v hv => by fin_cases hv <;> decide +kernel,
    fun v => ⟨fun h => by fin_cases h <;> decide +kernel, fun h => by fin_cases h <;> decide +kernel⟩,
    by decide +kernel, by decide +kernel, by decide +kernel⟩

/-- Both sides of the equivalence: W2 of 95_test_vectors.md, [1, 2, 1], and the empty list. -/
theorem witness_RunsIsTheMaximalRunDecomposition : runs [1, 2, 1] = [(1, 1), (2, 1), (1, 1)] ∧ runs [] = [] := by decide

/-- A channel with AC values [5, 5, 5]: its table is not empty. -/
theorem witness_BuiltTableIsABijection :
    runningWithLen (encodedRuns 4) 4 ∧ (0x40A00000 : Coef) ∈ (encodedRuns 4).acSeq .y 4 ∧
      0 < ((after (.buildTable 0 0) 4 encodedY).head .y).ndist.toNat :=
  ⟨witness_runningWithLen.2.1, by decide +kernel, by decide +kernel⟩

/-- Two runs, so that there are adjacent tuples. -/
theorem witness_EncodedRunsAreConservedAndMaximal :
    (runningWithLen (encodedRuns 4) 4 ∧ encodable .y 4 (encodedRuns 4)) ∧
      0 + 1 < ((after (.encodeBlock 0) 4 block).head .cr).tlen.toNat :=
  ⟨witness_RleEncodeStoresOneTuplePerRun.1, by decide +kernel⟩

/-- For `DecodeAfterEncodeGivesTheSequence`: LEN is CFG.LEN = N_MAX = 4. -/
theorem witness_DecodeAfterEncodeGivesTheSequence :
    legalBuild encodedY.params = true ∧ 1 ≤ encodedY.cfgLen.toNat ∧ encodedY.cfgLen.toNat ≤ encodedY.params.nMax ∧
      encodable .y encodedY.cfgLen.toNat encodedY :=
  ⟨legal_p4, by decide, by decide, encodeCheck_eq_none.1 (by decide +kernel)⟩

/-- For `EncodeAfterBuildTableNeverMisses`, `EncodeBlockEqualsTheNineCommands` and
`BlockRoundTripGivesTheNormalisedBlock`: LEN = 1 and LEN = N_MAX. -/
theorem witness_LegalCfgLen :
    (legalBuild block.params = true ∧ 1 ≤ block.cfgLen.toNat ∧ block.cfgLen.toNat ≤ block.params.nMax) ∧
      1 ≤ ({ block with cfgLen := 1 } : State).cfgLen.toNat ∧
      ({ block with cfgLen := 1 } : State).cfgLen.toNat ≤ block.params.nMax :=
  ⟨⟨legal_p4, by decide, by decide⟩, by decide, by decide⟩

/-- Y with AC values all equal, Cr with AC values pairwise different. -/
def extremes : State := put 0x010000 [1, 1, 0, 5, 9, 0, 5, 8, 0, 5, 7, 0] (idle p4)

/-- For the clauses of `DegenerateAndDistinctChannels`. -/
theorem witness_DegenerateAndDistinctChannels :
    runningWithLen (runs4 4 extremes) 4 ∧ 2 ≤ 4 ∧
      ((after (.encodeBlock 0) 4 extremes).acSeq .y 4 = [5, 5, 5] ∧
        (after (.encodeBlock 0) 4 extremes).acSeq .cr 4 = [9, 8, 7]) :=
  ⟨runningWithLen_of legal_p4 rfl rfl (by decide) (by decide), by decide, by decide +kernel⟩

/-- For the clauses of `ChannelsAreIndependent`: two states that differ in channels Cr and Cb only. -/
theorem witness_ChannelsAreIndependent :
    let s₁ := runs4 4 block
    let s₂ := put 0x010004 [0x7FC00000, 0x80000000] s₁
    let u₁ := encodedRuns 4
    let u₂ := u₁.setHead .cr { dc := 5, tlen := 3, ndist := 1 }
    runningWithLen s₁ 4 ∧ runningWithLen s₂ 4 ∧ s₁.params = s₂.params ∧ (∀ i, i < 4 → s₁.blkIn .y i = s₂.blkIn .y i) ∧
      s₁.blkIn .cr 0 ≠ s₂.blkIn .cr 0 ∧
      runningWithLen u₁ 4 ∧ runningWithLen u₂ 4 ∧ u₁.params = u₂.params ∧ u₁.head .y = u₂.head .y ∧ dcInWidth u₁ ∧
      dcInWidth u₂ ∧ decodable .y 4 u₁ :=
  ⟨witness_runningWithLen.2.2, runningWithLen_of legal_p4 rfl rfl (by decide) (by decide), rfl, by decide +kernel,
    by decide +kernel, witness_runningWithLen.2.1, runningWithLen_of legal_p4 rfl rfl (by decide) (by decide), rfl, rfl,
    dcInWidth_encodedY 4, fun c => by cases c <;> decide, decodeCheck_eq_none.1 (by decide +kernel)⟩

/-! ### The Encoded Block's invariants, on concrete states -/

/-- I2 and I3, checked. -/
def tablesChecked (s : State) : Bool :=
  Chan.all.all fun c =>
    ((List.range (s.head c).ndist.toNat).all fun k => (List.range k).all fun j => s.inv c j != s.inv c k) &&
      (List.range (s.head c).tlen.toNat).all fun k => s.tupRun c k != 0

theorem invariants_of_checked {s : State} (h : tablesChecked s = true) : tableDistinct s ∧ runsPositive s := by
  simp only [tablesChecked, List.all_eq_true, Bool.and_eq_true, List.mem_range, bne_iff_ne, ne_eq] at h
  exact ⟨fun c j k hj hk => (h c (Chan.mem_all c)).1 k hk j hj, fun c k hk => (h c (Chan.mem_all c)).2 k hk⟩

theorem encodedOk_of_checked {s : State} (h1 : Memory.wf s.mem = true ∧ ∀ cell ∈ s.mem, isDataByte s.params cell.1 = true)
    (h2 : ∀ c, (s.head c).ndist.toNat ≤ cap s.params ∧ (s.head c).tlen.toNat ≤ cap s.params)
    (h3 : tablesChecked s = true) (h4 : dcInWidth s) : encodedOk s :=
  ⟨h1, h2, (invariants_of_checked h3).1, (invariants_of_checked h3).2, h4⟩

theorem encodedOk_fullY : encodedOk fullY :=
  encodedOk_of_checked (by decide +kernel) (fun c => by cases c <;> decide) (by decide +kernel)
    (fun c => by cases c <;> decide)

theorem witness_UnpackAfterPackGivesTheEncodedBlock :
    legalBuild fullY.params = true ∧ lengthsWithinCap fullY ∧ tableDistinct fullY ∧ runsPositive fullY ∧
      dcInWidth fullY ∧ (1 : Half).toNat < fullY.params.nSlot ∧ [Chan.cb, .y, .cr].Perm Chan.all :=
  ⟨legal_p4, encodedOk_fullY.2.1, encodedOk_fullY.2.2.1, encodedOk_fullY.2.2.2.1, encodedOk_fullY.2.2.2.2, by decide,
    by decide⟩

/-- Its inner premises: PACK leaves the Encoded Block, and the slot may be read by the instance that packed it. -/
theorem witness_UnpackAfterPack_between :
    sameSlot 1 (after (.pack 1 2) 4 fullY) (after (.pack 1 2) 4 fullY) ∧
      sameEncodedBlock fullY (after (.pack 1 2) 4 fullY) :=
  ⟨⟨rfl, fun _ _ _ => rfl⟩, fun c => by cases c <;> decide +kernel⟩

/-! ### The port -/

theorem witness_MappedWordsAreTheAddressMap :
    legalBuild p4 = true ∧ 0x040 % 4 = 0 ∧ targetOf p4 0x040 = .csr .lastCmd ∧ targetOf p4 0x044 = .unmapped ∧
      targetOf p4 0x01002C = .ram ∧ targetOf p4 0x010030 = .unmapped ∧ targetOf p4 0x02002C = .rom ∧
      targetOf p4 0x03400C = .rom ∧ targetOf p4 0x034010 = .unmapped ∧ targetOf p4 0x04800C = .head .cb .ndist ∧
      targetOf p4 0x048010 = .unmapped ∧ targetOf p4 0x049008 = .rom ∧ targetOf p4 0x04900C = .unmapped ∧
      targetOf p4 0x04A008 = .rom ∧ targetOf p4 0x04A00C = .unmapped ∧ targetOf p4 0x10010C = .ram ∧
      targetOf p4 0x100110 = .unmapped := by decide +kernel

/-- The port of an idle instance is offered a transaction. -/
def offers (t : Txn) (es : List Event) : State := { idle p4 with events := .host t :: es }

/-- The same while NOP #5 runs. -/
def offersBusy (t : Txn) (es : List Event) : State := nopRuns (.host t :: es)

theorem offered_idle (t : Txn) (es : List Event) : offered (offers t es) t es := ⟨legal_p4, rfl, rfl, rfl⟩
theorem offered_busy (t : Txn) (es : List Event) : offered (offersBusy t es) t es := ⟨legal_p4, rfl, rfl, rfl⟩

/-- Each way of a bus error, idle, and one that is not held while BUSY = 1. -/
theorem witness_BusErrorSetsOnlyBerr :
    (∀ t, offered (offers t []) t [] ∧ (offers t []).busy = false) ∧
      Txn.addr (.read 0x01D 0xF) % 4 ≠ 0 ∧ Txn.strobes (.write 0x014 0 0x7) ≠ 0xF ∧
      targetOf p4 (Txn.addr (.read 0x044 0xF)) = .unmapped ∧ targetOf p4 (0x020000 : BitVec 21).toNat = .rom ∧
      targetOf p4 (0x040008 : BitVec 21).toNat = .head .y .tlen ∧
      (targetOf p4 (0x040 : BitVec 21).toNat = .csr .lastCmd ∧ Csr.access .lastCmd = .ro) ∧
      (offered (offersBusy (.write 0x000 0 0xF) []) (.write 0x000 0 0xF) [] ∧
        heldWhileBusy (offersBusy (.write 0x000 0 0xF) []).params (.write 0x000 0 0xF) = false) :=
  ⟨fun t => ⟨offered_idle t [], rfl⟩, by decide, by decide, by decide +kernel, by decide +kernel, by decide +kernel,
    ⟨by decide +kernel, rfl⟩, offered_busy _ _, by decide +kernel⟩

/-- A window read on an idle instance, a register read on a busy one. -/
theorem witness_MappedReadsHaveNoSideEffect :
    (offered (offers (.read 0x02002C 0xF) []) (.read 0x02002C 0xF) [] ∧ (0x02002C : BitVec 21).toNat % 4 = 0 ∧
      targetOf p4 (0x02002C : BitVec 21).toNat ≠ .unmapped ∧ (offers (.read 0x02002C 0xF) []).busy = false) ∧
    (offered (offersBusy (.read 0x040 0xF) []) (.read 0x040 0xF) [] ∧ (0x040 : BitVec 21).toNat % 4 = 0 ∧
      targetOf p4 (0x040 : BitVec 21).toNat ≠ .unmapped ∧ windowOf p4 (0x040 : BitVec 21).toNat = none) :=
  ⟨⟨offered_idle _ _, by decide, by decide +kernel, rfl⟩, offered_busy _ _, by decide, by decide +kernel, by decide +kernel⟩

/-- A state with an error recorded of channel Cb, DONE and OVR pending. -/
def recorded : State :=
  { idle p4 with
    statusErr := true, irqStatus := 5, irqEn := 4, lastCmd := 0x00070008
    err := { cause := .tableDupValue, slot := 7, ch := 2, mask := 4, pos := 3, lo := 0x40A00000, hi := 0 } }

/-- What the state's port answers to a read. -/
def readBack (s : State) (a : BitVec 21) : Option Nat :=
  (stepped { s with events := [.host (.read a 0xF)] }).resp.map fun r => r.data.toNat

/-- 10_state.md R29 to R38 on that state: STATUS.ERR is bit 1; CH = 2 and CHMASK = 4 are 0x42. -/
theorem test_registers_read :
    [0x01C, 0x020, 0x024, 0x028, 0x02C, 0x030, 0x034, 0x038, 0x03C, 0x040].map (readBack recorded) =
      [some 2, some 9, some 7, some 0x42, some 3, some 0x40A00000, some 0, some 4, some 5, some 0x00070008] := by
  decide +kernel

/-- 20_memory.md R68 to R71, at the last element or word of a window: BLK_OUT[3][Cb], SEQ[Cr][3], the four head words of
channel Y, TUP[Y][0] with its code below its run, INV[Y][0], and a word of TR; and STATUS.BUSY is bit 0. -/
theorem test_windows_read :
    readBack (put 0x02002C [77] (idle p4)) 0x02002C = some 77 ∧ readBack (put 0x03200C [78] (idle p4)) 0x03200C = some 78 ∧
      [0x040000, 0x040004, 0x040008, 0x04000C, 0x041000, 0x042000].map (readBack encodedY) =
        [some 0x41200000, some 0, some 1, some 1, some 0x00030000, some 0x40A00000] ∧
      readBack (put 0x10010C [0x04030201] (idle p4)) 0x10010C = some 0x04030201 ∧ readBack (nopRuns []) 0x01C = some 1 := by
  decide +kernel

/-- R62: the high word of a 64-bit element and of DC stands behind the low one. -/
theorem test_wide_reads :
    let s := (put 0x042000 [1, 2] (idle p2w)).setHead .y { dc := 0x0000000400000003, tlen := 0, ndist := 0 }
    [0x042000, 0x042004, 0x040000, 0x040004].map (readBack s) = [some 1, some 2, some 3, some 4] ∧
      s.inv .y 0 = 0x0000000200000001 := by decide +kernel

theorem witness_IdentificationRegistersRead :
    offered (offers (.read 0x000 0xF) []) (.read 0x000 0xF) [] ∧ offered (offers (.read 0x004 0xF) []) (.read 0x004 0xF) [] ∧
      offered (offers (.read 0x008 0xF) []) (.read 0x008 0xF) [] ∧
      offered (offersBusy (.read 0x00C 0xF) []) (.read 0x00C 0xF) [] :=
  ⟨offered_idle _ _, offered_idle _ _, offered_idle _ _, offered_busy _ _⟩

/-- The last word of BLK_IN and the last word of TR. -/
theorem witness_HostWritesAreReadBack :
    (offered (offers (.write 0x01002C 5 0xF) [.host (.read 0x01002C 0xF)]) (.write 0x01002C 5 0xF)
        (.host (.read 0x01002C 0xF) :: []) ∧ targetOf p4 (0x01002C : BitVec 21).toNat = .ram) ∧
      (offered (offers (.write 0x10010C 5 0xF) [.host (.read 0x10010C 0xF)]) (.write 0x10010C 5 0xF)
        (.host (.read 0x10010C 0xF) :: []) ∧ targetOf p4 (0x10010C : BitVec 21).toNat = .ram) ∧
      (offers (.write 0x01002C 5 0xF) []).busy = false ∧ (0x10010C : BitVec 21).toNat % 4 = 0 :=
  ⟨⟨offered_idle _ _, by decide +kernel⟩, ⟨offered_idle _ _, by decide +kernel⟩, rfl, by decide⟩

theorem witness_CmdWriteIsAcceptedOrDropped :
    (offered (offers (.write 0x018 0x21 0xF) []) (.write 0x018 0x21 0xF) [] ∧
      (offers (.write 0x018 0x21 0xF) []).busy = false) ∧
    (offered (offersBusy (.write 0x018 0x21 0xF) []) (.write 0x018 0x21 0xF) [] ∧
      (offersBusy (.write 0x018 0x21 0xF) []).busy = true) :=
  ⟨⟨offered_idle _ _, rfl⟩, offered_busy _ _, rfl⟩

/-- CFG is written while a command runs. -/
theorem witness_CfgWriteKeepsTheLatchedLen :
    offered (offersBusy (.write 0x014 0xFFFFFFFF 0xF) [.host (.read 0x014 0xF)]) (.write 0x014 0xFFFFFFFF 0xF)
      (.host (.read 0x014 0xF) :: []) ∧
    (offersBusy (.write 0x014 0xFFFFFFFF 0xF) []).latch = some { cmd := 0x00050000, len := 4 } :=
  ⟨offered_busy _ _, rfl⟩

theorem witness_IrqStatusIsWriteOneToClear :
    offered { offers (.write 0x03C 9 0xF) [] with irqStatus := 0xF } (.write 0x03C 9 0xF) [] ∧
      (stepped { offers (.write 0x03C 9 0xF) [] with irqStatus := 0xF }).irqStatus = 6 :=
  ⟨⟨legal_p4, rfl, rfl, rfl⟩, by decide +kernel⟩

/-- Enabling a pending event raises `irq`; disabling it lets `irq` fall. -/
theorem witness_IrqFollowsEnableAndStatus :
    offered { offers (.write 0x038 8 0xF) [] with irqStatus := 8 } (.write 0x038 8 0xF) [] ∧
      (stepped { offers (.write 0x038 8 0xF) [] with irqStatus := 8 }).irq = true ∧
      (stepped { offers (.write 0x038 7 0xF) [] with irqStatus := 8 }).irq = false :=
  ⟨⟨legal_p4, rfl, rfl, rfl⟩, by decide +kernel, by decide +kernel⟩

theorem witness_SetWinsOverSameCycleClear :
    let s := nopRuns [.sameCycle (.write 0x03C 0xF 0xF) false]
    legalBuild s.params = true ∧ s.rstN = true ∧ s.held = none ∧
      s.events = .sameCycle (.write 0x03C 0xF 0xF) false :: [] ∧ s.busy = true ∧ s.statusErr = false :=
  ⟨legal_p4, rfl, rfl, rfl, rfl, rfl⟩

/-- A window read and a CTRL write with SRST = 1 are held; a held transaction on an idle engine. -/
theorem witness_AccessesAreHeldUntilCompletion :
    (offered (offersBusy (.read 0x020000 0xF) []) (.read 0x020000 0xF) [] ∧
      (offersBusy (.read 0x020000 0xF) []).busy = true ∧ heldWhileBusy p4 (.read 0x020000 0xF) = true) ∧
    heldWhileBusy p4 (.write 0x010 1 0xF) = true ∧ heldWhileBusy p4 (.write 0x010 2 0xF) = false ∧
    (legalBuild p4 = true ∧ ({ idle p4 with held := some (.read 0x020000 0xF) } : State).held = some (.read 0x020000 0xF) ∧
      (idle p4).rstN = true ∧ (idle p4).busy = false ∧ noReset (idle p4).events) :=
  ⟨⟨offered_busy _ _, rfl, by decide +kernel⟩, by decide +kernel, by decide +kernel, legal_p4, rfl, rfl, rfl,
    fun _ h => by cases h⟩

theorem witness_SoftResetClearsRegistersOnly :
    offered (offers (.write 0x010 1 0xF) []) (.write 0x010 1 0xF) [] ∧ (offers (.write 0x010 1 0xF) []).busy = false ∧
      (1 : Word).getLsbD 0 = true :=
  ⟨offered_idle _ _, rfl, rfl⟩

theorem witness_SoftResetWaitsForCompletion :
    offered (offersBusy (.write 0x010 1 0xF) [.engine]) (.write 0x010 1 0xF) [.engine] ∧
      (offersBusy (.write 0x010 1 0xF) [.engine]).latch = some { cmd := 0x00050000, len := 4 } ∧
      (1 : Word).getLsbD 0 = true ∧ noReset [.engine] :=
  ⟨offered_busy _ _, rfl, rfl, fun _ h => by cases h⟩

/-- For the four clauses of `HardResetGivesTheResetState`: the fall while NOP #5 runs, and while a transaction is held;
an engine turn and a transaction while `rst_n` is low; no input while it is low; the rise. -/
theorem witness_HardResetGivesTheResetState :
    let s : State := nopRuns [.rstFall]
    let h : State := { s with held := some (.read 0x020000 0xF) }
    let low (es : List Event) : State := { idle p4 with rstN := false, irqEn := 0xF, irqStatus := 0xF, events := es }
    (legalBuild s.params = true ∧ s.rstN = true ∧ s.events = .rstFall :: [] ∧ s.busy = true) ∧
      (h.events = .rstFall :: [] ∧ (stepped h).held = none ∧ (stepped h).busy = false) ∧
      ((low [.engine]).rstN = false ∧ (low [.engine]).events = .engine :: [] ∧ Event.engine ≠ .rstRise) ∧
      (stepped (low [.host (.write 0x018 0 0xF)])).busy = false ∧
      (low []).events = [] ∧ (low [.rstRise]).events = .rstRise :: [] :=
  ⟨⟨legal_p4, rfl, rfl, rfl⟩, ⟨rfl, by decide +kernel, by decide +kernel⟩, ⟨rfl, rfl, by decide⟩, by decide +kernel, rfl,
    rfl⟩

theorem witness_ResetValues : legalBuild p2w = true := by decide

theorem witness_DecodeAndPackRightAfterReset : legalBuild p4 = true ∧ (1 : Half).toNat < p4.nSlot := by decide

theorem witness_RunningCommandCompletes :
    legalBuild (nopRuns []).params = true ∧ (nopRuns []).rstN = true ∧ (nopRuns []).held = none ∧
      (nopRuns []).events = [] ∧ (nopRuns []).busy = true :=
  ⟨legal_p4, rfl, rfl, rfl, rfl⟩

/-- The default build and the widest coefficients are legal builds. -/
theorem witness_EveryStepHasANextState :
    legalBuild State.reset.params = true ∧ legalBuild { coef64 := true, nMax := 1024, nSlot := 24 } = true ∧
      legalBuild { coef64 := true, nMax := 1024, nSlot := 25 } = false := by decide

/-! ### The invariants, on a state in which a command runs -/

/-- ENCODE_BLOCK runs with LEN = 4 on R160's block. -/
def encoding : State :=
  { block with latch := some { cmd := 0x00000005, len := 4 }, lastCmd := 0x00000005, events := [.engine] }

theorem step_encoding : ∃ t, step encoding = .next t ∧ (t.head .cr).ndist = 2 := by
  refine ⟨stepped encoding, ?_, by decide +kernel⟩
  obtain ⟨slot, x, h, _⟩ := exec_completes (.encodeBlock 0) { encoding with events := [] }
  have h1 : step encoding = exec (.encodeBlock 0) { encoding with events := [] } := rfl
  rw [stepped, h1, h]

theorem encodedOk_encoding : encodedOk encoding :=
  encodedOk_of_checked (by decide +kernel) (fun c => by cases c <;> decide) (by decide +kernel)
    (fun c => by cases c <;> decide)

theorem witness_StepKeepsTheMemoryForm : memoryOk encoding ∧ ∃ t, step encoding = .next t :=
  ⟨encodedOk_encoding.1, step_encoding.imp fun _ h => h.1⟩

theorem witness_StepKeepsTheEncodedBlockInvariants : encodedOk encoding ∧ ∃ t, step encoding = .next t :=
  ⟨encodedOk_encoding, step_encoding.imp fun _ h => h.1⟩

theorem encoding_control : encoding.latch = some { cmd := 0x00000005, len := 4 } ∧ encoding.lastCmd = 0x00000005 ∧
    encoding.held = none ∧ encoding.rstN = true ∧ encoding.err = ErrRecord.clear ∧ encoding.statusErr = false := by
  decide +kernel

theorem controlOk_encoding : controlOk encoding := by
  obtain ⟨h1, h2, h3, h4, h5, h6⟩ := encoding_control
  refine ⟨fun l h => ?_, ⟨⟨fun _ => h5, fun _ => h6⟩, fun _ => h5, fun _ => h5⟩, fun t h => ?_, fun h => ?_⟩
  · rw [h1] at h
    rw [h2, ← Option.some.inj h]
  · rw [h3] at h
    cases h
  · rw [h4] at h
    cases h

theorem witness_StepKeepsTheControlInvariants : controlOk encoding ∧ ∃ t, step encoding = .next t :=
  ⟨controlOk_encoding, step_encoding.imp fun _ h => h.1⟩

end Sys2Proof.Tests
end

section
/-! PROOFS. What a step can do to the state: the checked writes of a meaning and the causes it raises, the effects of a
transaction, and the step of an offered register access (10_state.md, 20_memory.md R60, 30_encoding.md R107). -/

namespace Sys2Proof.Machine
open Sys2Proof

/-! ### Validation of a channel section (45_marshaller.md R172, R173) -/

/-- A section passes exactly when its lengths are within CAP, its codes and its values are new and in range, and no run
is 0. -/
theorem validate_eq_none {slot : Nat} {c : Chan} {s : State} :
    validate slot c s = none ↔
      lengthsPass slot c s ∧
        (∀ k, k < (s.trTabLen slot c).toNat → (s.trTabCode slot c k).toNat < (s.trTabLen slot c).toNat ∧
          ∀ j, j < k → s.trTabCode slot c j ≠ s.trTabCode slot c k ∧ s.trTabVal slot c j ≠ s.trTabVal slot c k) ∧
        ∀ k, k < (s.trTupLen slot c).toNat → s.trTupRun slot c k ≠ 0 := by
  simp only [validate, Option.or_eq_none_iff, List.findSome?_eq_none_iff, List.mem_range, capacityCheck_eq_none,
    tableEntryCheck_eq_none, tupleRunCheck_eq_none, lengthsPass, and_assoc]

/-- Validation reads TR alone. -/
theorem validate_congr {s t : State} (hp : t.params = s.params) (hb : ∀ a, 0x100000 ≤ a → t.byte a = s.byte a)
    (slot : Nat) (c : Chan) : validate slot c t = validate slot c s := by
  have hsec : ∀ off, 0x100000 ≤ secAddr s.params slot c off := fun off => by
    unfold secAddr trAddr
    omega
  have hhalf : ∀ off, t.half (secAddr s.params slot c off) = s.half (secAddr s.params slot c off) := fun off =>
    State.half_congr fun b h _ => hb b ((hsec off).trans h)
  have hcoef : ∀ off, t.coef (secAddr s.params slot c off) = s.coef (secAddr s.params slot c off) := fun off =>
    State.coef_congr hp fun b h _ => hb b ((hsec off).trans h)
  have htupLen : t.trTupLen slot c = s.trTupLen slot c := by rw [State.trTupLen, hp, hhalf]; rfl
  have htabLen : t.trTabLen slot c = s.trTabLen slot c := by rw [State.trTabLen, hp, hhalf]; rfl
  have htupCode : t.trTupCode slot c = s.trTupCode slot c := funext fun k => by rw [State.trTupCode, hp, hhalf]; rfl
  have htupRun : t.trTupRun slot c = s.trTupRun slot c := funext fun k => by rw [State.trTupRun, hp, hhalf]; rfl
  have htabCode : t.trTabCode slot c = s.trTabCode slot c := funext fun k => by rw [State.trTabCode, hp, hhalf]; rfl
  have htabVal : t.trTabVal slot c = s.trTabVal slot c := funext fun k => by rw [State.trTabVal, hp, hcoef]; rfl
  have hentry : tableEntryCheck slot c t = tableEntryCheck slot c s := funext fun k => by
    unfold tableEntryCheck
    rw [htabCode, htabVal, htabLen, hp]
  have hrun : tupleRunCheck slot c t = tupleRunCheck slot c s := funext fun k => by
    unfold tupleRunCheck
    rw [htupCode, htupRun]
  rw [validate, hentry, hrun, htupLen, htabLen, hp]
  rfl

theorem validateAll_eq_nil {slot : Nat} {s : State} :
    validateAll slot s = [] ↔ ∀ c, validate slot c s = none := by
  simp only [validateAll, List.filterMap_eq_nil_iff]
  exact ⟨fun h c => h c (Chan.mem_all c), fun h c _ => h c⟩

/-! ### What an execution writes and raises -/

/-- One write to the data state by a meaning whose checks have passed, with what those checks leave. -/
inductive DataCommit : State → State → Prop
  | extract (c : Chan) (n : Nat) (s : State) (hn : n ≤ s.params.nMax) : DataCommit s (commitExtract c n s)
  | buildTable (c : Chan) (n : Nat) (s : State) (hn : n ≤ s.params.nMax) : DataCommit s (commitBuildTable c n s)
  | encode (c : Chan) (n : Nat) (s : State) (hn : n ≤ s.params.nMax) : DataCommit s (commitEncode c n s)
  | decode (c : Chan) (n : Nat) (s : State) (h1 : 1 ≤ n) (hn : n ≤ s.params.nMax) (hd : decodable c n s) :
      DataCommit s (commitDecode c s)
  | pack (slot : Nat) (c : Chan) (s : State) (hs : slot < s.params.nSlot) (ht : (s.head c).tlen.toNat ≤ cap s.params)
      (hn : (s.head c).ndist.toNat ≤ cap s.params) : DataCommit s (commitPack slot c s)
  | unpack (slot : Nat) (c : Chan) (s : State) (hv : validate slot c s = none) : DataCommit s (unpackChannel slot c s)

/-- Several such writes, one after another. -/
def dataCommits : State → State → Prop := Relation.ReflTransGen DataCommit

theorem DataCommit.onlyData {s t : State} (h : DataCommit s t) : onlyData s t := by
  cases h <;> rfl

theorem dataCommits.onlyData {s t : State} (h : dataCommits s t) : onlyData s t := by
  induction h with
  | refl => exact onlyData.refl s
  | tail _ h ih => exact ih.trans h.onlyData

theorem dataCommits_refl (s : State) : dataCommits s s := .refl

theorem DataCommit.dataCommits {s t : State} (h : DataCommit s t) : dataCommits s t := .single h

/-- A property of the data state that each write keeps on a legal build is kept by all of them. -/
theorem dataCommits.induct {P : State → Prop}
    (hP : ∀ s t, legalBuild s.params = true → P s → DataCommit s t → P t) {s t : State}
    (hl : legalBuild s.params = true) (hs : P s) (h : dataCommits s t) : P t := by
  induction h with
  | refl => exact hs
  | tail h1 h2 ih => exact hP _ _ (by rw [dataCommits.onlyData h1 |>.params]; exact hl) ih h2

/-- What every meaning hands to `complete`: checked writes, and errors with a cause. -/
structure SoundExecution (s : State) (x : Execution) : Prop where
  writes : dataCommits s x.after
  causes : ∀ e ∈ x.errs, e.cause ≠ .none

theorem soundExecution_raise (s : State) {e : CmdError} (h : e.cause ≠ .none) : SoundExecution s (raise s e) :=
  ⟨dataCommits_refl s, by simpa using h⟩

theorem soundExecution_commit {s t : State} (h : dataCommits s t) : SoundExecution s (commit t) :=
  ⟨h, by simp⟩

theorem soundExecution_withChannel (ch : BitVec 2) {s : State} {k : Chan → Execution}
    (h : ∀ c, SoundExecution s (k c)) : SoundExecution s (withChannel ch s k) := by
  rcases withChannel_cases ch s k with ⟨c, _, hk⟩ | hk <;> rw [hk]
  · exact h c
  · exact soundExecution_raise s (by simp)

theorem soundExecution_withLen (ch : BitVec 2) {s : State} {k : Nat → Execution}
    (h : ∀ n, 1 ≤ n → n ≤ s.params.nMax → SoundExecution s (k n)) : SoundExecution s (withLen ch s k) := by
  by_cases hl : 1 ≤ s.len ∧ s.len ≤ s.params.nMax
  · rw [withLen_of_legal k rfl hl.1 hl.2]
    exact h _ hl.1 hl.2
  · rw [withLen_of_illegal k hl]
    exact soundExecution_raise s (by simp)

theorem soundExecution_withSlot (ch : BitVec 2) (slot : Half) {s : State} {k : Nat → Execution}
    (h : ∀ n, n < s.params.nSlot → SoundExecution s (k n)) : SoundExecution s (withSlot ch slot s k) := by
  rcases Nat.lt_or_ge slot.toNat s.params.nSlot with hs | hs
  · rw [withSlot_of_legal k hs]
    exact h _ hs
  · rw [withSlot_of_illegal k hs]
    exact soundExecution_raise s (by simp)

theorem soundExecution_withCheck {s t : State} {e : Option CmdError} (hpass : e = none → dataCommits s t)
    (hfail : ∀ e', e = some e' → e'.cause ≠ .none) : SoundExecution s (withCheck s e t) := by
  cases e with
  | none => exact soundExecution_commit (hpass rfl)
  | some e => exact soundExecution_raise s (hfail e rfl)

theorem Cause.ne_none_of_isData {c : Cause} (h : c.isData = true) : c ≠ .none := by
  rintro rfl
  cases h

theorem encodeCheck_error {s : State} {c : Chan} {n : Nat} {e : CmdError} (h : encodeCheck c n s = some e) :
    e.cause = .lookupMiss ∧ e.ch = Chan.field c := by
  unfold encodeCheck at h
  split at h
  · cases h; exact ⟨rfl, rfl⟩
  · cases h

/-- ENCODE_BLOCK's writes: three per channel (44_block_codec.md R160). -/
theorem dataCommits_encodeChannel (c : Chan) (n : Nat) (s : State) (hn : n ≤ s.params.nMax) :
    dataCommits s (encodeChannel c n s) :=
  ((DataCommit.extract c n s hn).dataCommits.tail (.buildTable c n _ hn)).tail (.encode c n _ hn)

theorem dataCommits_commitEncodeBlock (n : Nat) (s : State) (hn : n ≤ s.params.nMax) :
    dataCommits s (commitEncodeBlock n s) :=
  ((dataCommits_encodeChannel .y n s hn).trans (dataCommits_encodeChannel .cr n _ hn)).trans
    (dataCommits_encodeChannel .cb n _ hn)

/-- One channel of DECODE_BLOCK writes its lane or adds its error (44_block_codec.md R161). -/
theorem soundExecution_decodeChannel {s : State} {x : Execution} (c : Chan) {n : Nat} (h1 : 1 ≤ n)
    (hn : n ≤ s.params.nMax) (h : SoundExecution s x) : SoundExecution s (decodeChannel c n x) := by
  unfold decodeChannel
  split
  · next e he =>
    refine ⟨h.writes, fun e' hm => ?_⟩
    rcases List.mem_append.1 hm with hm | hm
    · exact h.causes e' hm
    · rw [List.mem_singleton.1 hm]
      exact Cause.ne_none_of_isData (decodeCheck_error he).1
  · next he =>
    exact ⟨h.writes.tail (.decode c n _ h1 (by rw [h.writes.onlyData.params]; exact hn) (decodeCheck_eq_none.1 he)),
      h.causes⟩

theorem soundExecution_decodeChannels {s : State} {n : Nat} (h1 : 1 ≤ n) (hn : n ≤ s.params.nMax) :
    SoundExecution s (decodeChannels n s) :=
  soundExecution_decodeChannel .cb h1 hn (soundExecution_decodeChannel .cr h1 hn
    (soundExecution_decodeChannel .y h1 hn (soundExecution_commit (dataCommits_refl s))))

/-- UNPACK of a valid section stores inside ENC alone. -/
theorem byte_unpackChannel_outside_enc {s : State} {slot : Nat} {c : Chan} {a : Nat} (hl : legalBuild s.params = true)
    (hv : validate slot c s = none) (ha : ¬(encBase c ≤ a ∧ a < encBase c + 0x4000)) :
    (unpackChannel slot c s).byte a = s.byte a := by
  obtain ⟨⟨htup, htab⟩, hentry, _⟩ := validate_eq_none.1 hv
  refine byte_unpackChannel (fun k hk h => ha ?_) fun k hk h => ha ?_
  · have := tupAddr_bounds (c := c) hl (hk.trans_le htup)
    omega
  · have := invAddr_bounds (c := c) hl ((hentry k hk).1.trans_le htab)
    omega

/-- UNPACK of one channel leaves every section of the slot valid that was so before. -/
theorem validate_unpackChannel {s : State} {slot : Nat} {c : Chan} (hl : legalBuild s.params = true)
    (hv : validate slot c s = none) (d : Chan) : validate slot d (unpackChannel slot c s) = validate slot d s := by
  have hbase := encBase_bounds c
  exact validate_congr (onlyData_unpackChannel slot c s).params
    (fun a ha => byte_unpackChannel_outside_enc hl hv (by omega)) slot d

/-- UNPACK's channels are written one after another, each from a section that is still valid (45_marshaller.md R171). -/
theorem dataCommits_commitUnpack {slot : Nat} {s : State} (hl : legalBuild s.params = true)
    (hv : ∀ c, validate slot c s = none) : dataCommits s (commitUnpack slot s) := by
  have h1 : ∀ d, validate slot d (unpackChannel slot .y s) = none := fun d =>
    (validate_unpackChannel hl (hv .y) d).trans (hv d)
  have h2 : ∀ d, validate slot d (unpackChannel slot .cr (unpackChannel slot .y s)) = none := fun d =>
    (validate_unpackChannel (s := unpackChannel slot .y s) hl (h1 .cr) d).trans (h1 d)
  exact ((DataCommit.unpack slot .y s (hv .y)).dataCommits.trans
    (DataCommit.unpack slot .cr (unpackChannel slot .y s) (h1 .cr)).dataCommits).trans
    (DataCommit.unpack slot .cb (unpackChannel slot .cr (unpackChannel slot .y s)) (h2 .cb)).dataCommits

theorem soundExecution_unpackSlot {slot : Nat} {s : State} (hl : legalBuild s.params = true) :
    SoundExecution s (unpackSlot slot s) := by
  refine ⟨?_, fun e he => ?_⟩
  · simp only [unpackSlot]
    split_ifs with h
    · exact dataCommits_commitUnpack hl (validateAll_eq_nil.1 h)
    · exact dataCommits_refl s
  · obtain ⟨c, _, he⟩ := List.mem_filterMap.1 he
    exact Cause.ne_none_of_isData (validate_error he).1

/-- Every meaning completes an execution of checked writes and errors with a cause. -/
theorem exec_sound (i : Instr) {s : State} (hl : legalBuild s.params = true) :
    ∃ slot x, exec i s = .next (complete slot x) ∧ SoundExecution s x := by
  cases i with
  | nop tag => exact ⟨tag, _, rfl, soundExecution_commit (dataCommits_refl s)⟩
  | extract ch tag =>
    exact ⟨tag, _, rfl, soundExecution_withChannel ch fun c => soundExecution_withLen ch fun n _ hn =>
      soundExecution_commit (DataCommit.extract c n s hn).dataCommits⟩
  | buildTable ch tag =>
    exact ⟨tag, _, rfl, soundExecution_withChannel ch fun c => soundExecution_withLen ch fun n _ hn =>
      soundExecution_commit (DataCommit.buildTable c n s hn).dataCommits⟩
  | rleEncode ch tag =>
    exact ⟨tag, _, rfl, soundExecution_withChannel ch fun c => soundExecution_withLen ch fun n _ hn =>
      soundExecution_withCheck (fun _ => (DataCommit.encode c n s hn).dataCommits)
        fun e he => by rw [(encodeCheck_error he).1]; simp⟩
  | rleDecode ch tag =>
    exact ⟨tag, _, rfl, soundExecution_withChannel ch fun c => soundExecution_withLen ch fun n h1 hn =>
      soundExecution_withCheck (fun h => (DataCommit.decode c n s h1 hn (decodeCheck_eq_none.1 h)).dataCommits)
        fun e he => Cause.ne_none_of_isData (decodeCheck_error he).1⟩
  | encodeBlock tag =>
    exact ⟨tag, _, rfl, soundExecution_withLen 0 fun n _ hn =>
      soundExecution_commit (dataCommits_commitEncodeBlock n s hn)⟩
  | decodeBlock tag =>
    exact ⟨tag, _, rfl, soundExecution_withLen 0 fun n h1 hn => soundExecution_decodeChannels h1 hn⟩
  | pack slot ch =>
    exact ⟨slot, _, rfl, soundExecution_withChannel ch fun c => soundExecution_withSlot ch slot fun n hn =>
      soundExecution_withCheck
        (fun h => (DataCommit.pack n c s hn (capacityCheck_eq_none.1 h).1 (capacityCheck_eq_none.1 h).2).dataCommits)
        fun e he => by rw [(capacityCheck_error he).1]; simp⟩
  | unpack slot =>
    exact ⟨slot, _, rfl, soundExecution_withSlot 0 slot fun n _ => soundExecution_unpackSlot hl⟩

/-- So does the engine's turn on any word, an illegal one included (30_encoding.md R107, R108). -/
theorem runWord_sound (w : Word) {s : State} (hl : legalBuild s.params = true) :
    ∃ slot x, runWord w s = .next (complete slot x) ∧ SoundExecution s x := by
  unfold runWord
  split
  · exact exec_sound _ hl
  · exact ⟨_, _, rfl, soundExecution_raise s (by simp [badCmd])⟩

/-! ### What a transaction can do -/

/-- A register write is a soft reset, an acceptance, or sets CFG.LEN, IRQ_EN and IRQ_STATUS. -/
theorem csrWrite_effect (r : Csr) (w : Word) (s : State) :
    csrWrite r w s = softReset s ∨ (s.busy = false ∧ csrWrite r w s = accept w s) ∨
      ∃ n e q, csrWrite r w s = { s with cfgLen := n, irqEn := e, irqStatus := q } := by
  rcases csrWrite_cases r w s with ⟨_, h⟩ | ⟨n, h⟩ | ⟨_, h⟩ | ⟨e, h⟩ | ⟨q, h⟩ | h <;> rw [h]
  · unfold writeCtrl
    split
    · exact .inl rfl
    · exact .inr (.inr ⟨_, _, _, rfl⟩)
  · exact .inr (.inr ⟨_, _, _, rfl⟩)
  · cases hb : s.busy
    · exact .inr (.inl ⟨rfl, writeCmd_of_idle hb⟩)
    · exact .inr (.inr ⟨_, _, _, writeCmd_of_busy hb⟩)
  · exact .inr (.inr ⟨_, _, _, rfl⟩)
  · exact .inr (.inr ⟨_, _, _, rfl⟩)
  · exact .inr (.inr ⟨_, _, _, rfl⟩)

/-- A transaction soft-resets, accepts a command in an idle engine, stores a word in BLK_IN or TR, or changes no more than
CFG.LEN, the two interrupt registers and the answer. -/
theorem perform_effect (t : Txn) (s : State) :
    perform t s = (softReset s).answer 0 ∨ (∃ w, s.busy = false ∧ perform t s = (accept w s).answer 0) ∨
      (∃ (a : Nat) (w : Word), a % 4 = 0 ∧ targetOf s.params a = .ram ∧
        perform t s = (s.store (leCells a 4 w.toNat)).answer 0) ∨
      ∃ n e q d, perform t s = { s with cfgLen := n, irqEn := e, irqStatus := q, resp := d } := by
  by_cases hm : Txn.misformed t = true
  · exact .inr (.inr (.inr ⟨_, _, _, _, perform_misformed hm⟩))
  · cases t with
    | read a b =>
      have hp : perform (.read a b) s = hostRead a.toNat s := if_neg hm
      rcases hostRead_cases a.toNat s with h | ⟨w, h⟩ <;> exact .inr (.inr (.inr ⟨_, _, _, _, hp.trans h⟩))
    | write a w b =>
      have hp : perform (.write a w b) s = hostWrite a.toNat w s := if_neg hm
      rcases hostWrite_cases a.toNat w s with h | ⟨r, _, h⟩ | ⟨hr, h⟩ <;> rw [hp, h]
      · exact .inr (.inr (.inr ⟨_, _, _, _, rfl⟩))
      · rcases csrWrite_effect r w s with h | ⟨hb, h⟩ | ⟨n, e, q, h⟩ <;> rw [h]
        · exact .inl rfl
        · exact .inr (.inl ⟨w, hb, rfl⟩)
        · exact .inr (.inr (.inr ⟨_, _, _, _, rfl⟩))
      · have ha : a.toNat % 4 = 0 := by
          by_contra ha
          exact hm (by simp [Txn.misformed, Txn.addr, ha])
        exact .inr (.inr (.inl ⟨a.toNat, w, ha, hr, rfl⟩))

theorem legalBuild_of_step {s t : State} (h : step s = .next t) : legalBuild s.params = true := by
  unfold step at h
  split at h
  · assumption
  · cases h

end Sys2Proof.Machine
end

section
/-! PROOFS. The control invariants: every step keeps the latch, the error record, the held transaction and the idle engine
in reset (10_state.md R29, R30, R47; 20_memory.md R75; 70_reset_and_hazards.md R230). -/

namespace Sys2Proof.Machine
open Sys2Proof

/-- No error is recorded. -/
def noError (s : State) : Prop := s.statusErr = false ∧ s.err = ErrRecord.clear

theorem errorRecordOk_of_noError {s : State} (h : noError s) : errorRecordOk s :=
  ⟨⟨fun _ => h.2, fun _ => h.1⟩, fun _ => h.2, fun _ => h.2⟩

/-- An idle engine's error record, with ERR set, names a cause. -/
theorem errorRecordOk_of_recorded {s : State} (h1 : s.statusErr = true) (h2 : s.err.cause ≠ .none)
    (hb : s.busy = false) : errorRecordOk s := by
  have hne : s.err ≠ ErrRecord.clear := fun h => h2 (by rw [h]; rfl)
  exact ⟨by simp [h1, hne], fun h => absurd h h2, by simp [hb]⟩

/-- The error record's invariant reads STATUS.ERR and the error registers, and does not mind an engine that goes idle. -/
theorem errorRecordOk_congr {s t : State} (h : errorRecordOk s) (h1 : t.statusErr = s.statusErr) (h2 : t.err = s.err)
    (hb : t.busy = true → s.busy = true) : errorRecordOk t := by
  obtain ⟨hiff, hcause, hbusy⟩ := h
  unfold errorRecordOk
  rw [h1, h2]
  exact ⟨hiff, hcause, fun hb' => hbusy (hb hb')⟩

/-! The other parts hold of an idle engine, with nothing held, and with `rst_n` high. -/

theorem latchIsLastCmd_of_idle {s : State} (h : s.latch = none) : latchIsLastCmd s := by
  simp [latchIsLastCmd, h]

theorem heldIsHoldable_of_none {s : State} (h : s.held = none) : heldIsHoldable s := by
  simp [heldIsHoldable, h]

theorem idleInReset_of_high {s : State} (h : s.rstN = true) : idleInReset s := by
  simp [idleInReset, h]

/-- The control invariant of a state that agrees with another on all that it reads. -/
theorem controlOk_congr {s t : State} (h : controlOk s) (hp : t.params = s.params) (hr : t.rstN = s.rstN)
    (hl : t.latch = s.latch) (hc : t.lastCmd = s.lastCmd) (h1 : t.statusErr = s.statusErr) (h2 : t.err = s.err)
    (hh : t.held = s.held) : controlOk t := by
  obtain ⟨hlatch, herr, hheld, hidle⟩ := h
  refine ⟨?_, errorRecordOk_congr herr h1 h2 (by rw [State.busy, State.busy, hl]; exact id), ?_, ?_⟩
  · unfold latchIsLastCmd
    rw [hl, hc]
    exact hlatch
  · unfold heldIsHoldable
    rw [hh, hp]
    exact hheld
  · unfold idleInReset
    rw [hr, hl, hh]
    exact hidle

/-- An idle engine with nothing held meets the control invariant if its error record does. -/
theorem controlOk_of_idle {s : State} (hl : s.latch = none) (hh : s.held = none) (he : errorRecordOk s) :
    controlOk s :=
  ⟨latchIsLastCmd_of_idle hl, he, heldIsHoldable_of_none hh, fun _ => ⟨hl, hh⟩⟩

theorem controlOk_withHeld_none {s : State} (h : controlOk s) : controlOk { s with held := none } := by
  obtain ⟨hlatch, herr, _, hidle⟩ := h
  exact ⟨hlatch, herr, heldIsHoldable_of_none rfl, fun hr => ⟨(hidle hr).1, rfl⟩⟩

/-- What a completion leaves in the error record: what stood there, or an error with a cause. -/
theorem errorRecordOk_complete {s : State} {x : Execution} (slot : Half) (h : errorRecordOk s)
    (hx : SoundExecution s x) : errorRecordOk (complete slot x) := by
  cases he : x.errs with
  | nil =>
    refine errorRecordOk_congr h ?_ ?_ (by simp [State.busy])
    · rw [complete_statusErr, he, recordErrors_nil, hx.writes.onlyData]
    · rw [complete_err, he, recordErrors_nil, hx.writes.onlyData]
  | cons e es =>
    refine errorRecordOk_of_recorded ?_ ?_ rfl
    · rw [complete_statusErr, he, recordErrors_cons_statusErr]
    · rw [complete_err, he, recordErrors_cons_err]
      exact hx.causes e (by simp [he])

/-- A completion while `rst_n` is high. -/
theorem controlOk_complete {s : State} {x : Execution} (slot : Half) (h : controlOk s) (hr : s.rstN = true)
    (hx : SoundExecution s x) : controlOk (complete slot x) := by
  obtain ⟨_, herr, hheld, _⟩ := h
  obtain ⟨hp, hrstN, _, _, _, hh, _⟩ := sameControl_complete slot hx.writes.onlyData
  refine ⟨latchIsLastCmd_of_idle rfl, errorRecordOk_complete slot herr hx, ?_, idleInReset_of_high (hrstN.trans hr)⟩
  unfold heldIsHoldable
  rw [hh, hp]
  exact hheld

/-- A transaction performed while `rst_n` is high and nothing is held. -/
theorem controlOk_perform {s : State} (t : Txn) (h : controlOk s) (hr : s.rstN = true) (hh : s.held = none) :
    controlOk (perform t s) := by
  rcases perform_effect t s with he | ⟨w, _, he⟩ | ⟨a, w, _, _, he⟩ | ⟨n, e, q, d, he⟩ <;> rw [he]
  · exact controlOk_of_idle rfl hh (errorRecordOk_of_noError ⟨rfl, rfl⟩)
  · refine ⟨fun l hl => ?_, errorRecordOk_of_noError ⟨rfl, rfl⟩, heldIsHoldable_of_none hh, idleInReset_of_high hr⟩
    rw [State.answer_latch, accept_latch, Option.some.injEq] at hl
    rw [← hl, State.answer_lastCmd, accept_lastCmd]
  · exact controlOk_congr h rfl rfl rfl rfl rfl rfl rfl
  · exact controlOk_congr h rfl rfl rfl rfl rfl rfl rfl

theorem controlOk_resetFall {s : State} (h : controlOk s) : controlOk (resetFall s) :=
  controlOk_of_idle rfl rfl (errorRecordOk_congr h.2.1 rfl rfl (by simp [State.busy]))

theorem controlOk_afterHardReset (p : Params) (r : Nat) (es : List Event) : controlOk (State.afterHardReset p r es) :=
  controlOk_of_idle rfl rfl (errorRecordOk_of_noError ⟨rfl, rfl⟩)

/-- Settles O60: each of the turns that `turn_cases` lists keeps the control invariant. -/
theorem stepKeepsTheControlInvariants : Obligations.StepKeepsTheControlInvariants := by
  intro s t h hstep
  have hl := legalBuild_of_step hstep
  have hev : ∀ es, controlOk { s with events := es } := fun es => controlOk_congr h rfl rfl rfl rfl rfl rfl rfl
  rw [step_of_legal hl] at hstep
  rcases turn_cases hstep with ⟨l, es, hr, _, hrun⟩ | ⟨x, es, hr, _, _, hx, rfl⟩ | ⟨x, es, hr, hh, _, rfl⟩ |
    ⟨x, hr, _, _, rfl⟩ | ⟨es, _, rfl⟩ | ⟨es, _, rfl⟩ | ⟨es, rfl⟩
  · obtain ⟨slot, x, hx, hsound⟩ := runWord_sound l.cmd (s := { s with events := es }) hl
    rw [hrun, Host.Outcome.next.injEq] at hx
    rw [hx]
    exact controlOk_complete slot (hev es) hr hsound
  · obtain ⟨hlatch, herr, _, _⟩ := h
    refine ⟨hlatch, herr, fun y hy => ?_, idleInReset_of_high hr⟩
    rw [← Option.some.inj hy]
    exact hx
  · exact controlOk_perform x (hev es) hr hh
  · exact controlOk_perform x (controlOk_withHeld_none h) hr rfl
  · exact controlOk_resetFall (hev es)
  · exact controlOk_afterHardReset _ _ _
  · exact hev es

end Sys2Proof.Machine
end

section
/-! PROOFS. The data invariants: every step keeps the memory's form and, in every channel, I1, I2, I3 and DC's width
(10_state.md R45). A channel's invariants read its Encoded Channel alone, so each write is either outside the channel's
ENC sub-window or is one of the three that fill it: BUILD_TABLE, RLE_ENCODE and UNPACK. -/

namespace Sys2Proof.Machine
open Sys2Proof

/-! ### The bytes of the data memories -/

theorem isDataByte_iff {p : Params} {a : Nat} :
    isDataByte p a = true ↔ targetOf p (a / 4 * 4) = .ram ∨ targetOf p (a / 4 * 4) = .rom := by
  simp [isDataByte]

theorem coefBytes_mul_nMax_le {p : Params} (h : legalBuild p = true) :
    coefBytes p * p.nMax ≤ 0x2000 ∧ 3 * coefBytes p * p.nMax ≤ 0x6000 := by
  have := (legalBuild_iff p).1 h
  rcases coefBytes_cases p with hb | hb <;> rw [hb] <;> omega

theorem windowOf_eq_blkOut {p : Params} {a : Nat} (h : legalBuild p = true) (h1 : 0x020000 ≤ a)
    (h2 : a < 0x020000 + 3 * coefBytes p * p.nMax) : windowOf p a = some .blkOut := by
  have := coefBytes_mul_nMax_le h
  unfold windowOf
  rw [if_neg (by rw [inRange_iff]; omega), if_pos (inRange_iff.2 ⟨h1, h2⟩)]

theorem windowOf_eq_seq {p : Params} {a : Nat} (h : legalBuild p = true) (h1 : 0x030000 ≤ a) (h2 : a < 0x036000) :
    windowOf p a = some .seq := by
  have := coefBytes_mul_nMax_le h
  unfold windowOf
  rw [if_neg (by rw [inRange_iff]; omega), if_neg (by rw [inRange_iff]; omega), if_pos (inRange_iff.2 ⟨h1, h2⟩)]

theorem windowOf_eq_enc {p : Params} {a : Nat} (h : legalBuild p = true) (h1 : 0x040000 ≤ a) (h2 : a < 0x04C000) :
    windowOf p a = some .enc := by
  have := coefBytes_mul_nMax_le h
  unfold windowOf
  rw [if_neg (by rw [inRange_iff]; omega), if_neg (by rw [inRange_iff]; omega), if_neg (by rw [inRange_iff]; omega),
    if_pos (inRange_iff.2 ⟨h1, h2⟩)]

theorem isDataByte_blkOut {p : Params} {a : Nat} (h : legalBuild p = true) (h1 : 0x020000 ≤ a)
    (h2 : a < 0x020000 + 3 * coefBytes p * p.nMax) : isDataByte p a = true := by
  refine isDataByte_iff.2 (.inr ?_)
  rw [targetOf, windowOf_eq_blkOut h (by omega) (by omega)]

theorem isDataByte_seq {p : Params} {c : Chan} {a : Nat} (h : legalBuild p = true)
    (h1 : 0x030000 + 0x2000 * Chan.idx c ≤ a) (h2 : a < 0x030000 + 0x2000 * Chan.idx c + coefBytes p * p.nMax) :
    isDataByte p a = true := by
  have hc := Chan.idx_lt c
  have hn := coefBytes_mul_nMax_le h
  refine isDataByte_iff.2 (.inr ?_)
  rw [targetOf, windowOf_eq_seq h (by omega) (by omega)]
  exact if_pos (by omega)

/-- The word of a TUP or INV byte is read only. -/
theorem isDataByte_enc {p : Params} {c : Chan} {a : Nat} (h : legalBuild p = true)
    (ha : (encBase c + 0x1000 ≤ a ∧ a < encBase c + 0x1000 + 4 * cap p) ∨
      (encBase c + 0x2000 ≤ a ∧ a < encBase c + 0x2000 + coefBytes p * cap p)) : isDataByte p a = true := by
  have hc := Chan.idx_lt c
  have hcap := cap_lt h
  have hn := coefBytes_mul_nMax_le h
  have hinv : coefBytes p * cap p ≤ coefBytes p * p.nMax := Nat.mul_le_mul_left _ (by omega)
  unfold encBase at ha
  refine isDataByte_iff.2 (.inr ?_)
  rw [targetOf, windowOf_eq_enc h (by omega) (by omega)]
  dsimp only
  rw [encTarget, if_pos]
  rw [Bool.or_eq_true, inRange_iff, inRange_iff]
  omega

theorem isDataByte_tr {p : Params} {a : Nat} (h : legalBuild p = true) (h1 : 0x100000 ≤ a)
    (h2 : a < 0x100000 + p.nSlot * slotBytes p) : isDataByte p a = true :=
  isDataByte_iff.2 (.inl (targetOf_eq_ram.2 (.inr ((windowOf_eq_tr h).2 (by omega)))))

/-- Every byte of a host-writable word is one. -/
theorem isDataByte_of_ram {p : Params} {a b : Nat} (h : targetOf p a = .ram) (ha : a % 4 = 0) (h1 : a ≤ b)
    (h2 : b < a + 4) : isDataByte p b = true := by
  refine isDataByte_iff.2 (.inl ?_)
  rw [show b / 4 * 4 = a by omega, h]

/-! ### Where each write of a command lands -/

/-- The bytes of lane c of the first N_MAX pixels lie in BLK_OUT. -/
theorem inLane_bounds {p : Params} {c : Chan} {n a : Nat} (h : legalBuild p = true) (hn : n ≤ p.nMax)
    (ha : inLane p c n a) : 0x020000 ≤ a ∧ a < 0x020000 + 3 * coefBytes p * p.nMax := by
  obtain ⟨i, hi, h1, h2⟩ := ha
  have := blkOutAddr_bounds (c := c) h (hi.trans_le hn)
  omega

/-- The bytes of an existing slot lie in TR. -/
theorem mem_packCells_bounds {s : State} {slot : Nat} {c : Chan} {a : Nat} (h : legalBuild s.params = true)
    (hs : slot < s.params.nSlot) (ht : (s.head c).tlen.toNat ≤ cap s.params)
    (hn : (s.head c).ndist.toNat ≤ cap s.params) (ha : a ∈ cellAddrs (packCells slot c s)) :
    0x100000 ≤ a ∧ a < 0x100000 + s.params.nSlot * slotBytes s.params := by
  obtain ⟨_, _, _, _, hslot⟩ := section_bounds s.params
  have := slot_bounds h hs
  have := sec_in_slot s.params slot c
  rcases (mem_packCells ht hn).1 ha with ha | ha <;> omega

/-- The bytes EXTRACT stores lie in the channel's SEQ. -/
theorem mem_extractCells_bounds {s : State} {c : Chan} {n a : Nat} (hn : n ≤ s.params.nMax)
    (ha : a ∈ cellAddrs (extractCells c n s)) :
    0x030000 + 0x2000 * Chan.idx c ≤ a ∧
      a < 0x030000 + 0x2000 * Chan.idx c + coefBytes s.params * s.params.nMax := by
  obtain ⟨h1, h2⟩ := mem_extractCells.1 ha
  have := Nat.mul_le_mul_right (coefBytes s.params) hn
  rw [Nat.mul_comm s.params.nMax] at this
  unfold seqAddr at h1 h2
  omega

/-- The bytes of up to CAP tuples lie in the channel's TUP. -/
theorem mem_tup_bounds {p : Params} {c : Chan} {k a : Nat} (hk : k ≤ cap p)
    (ha : tupAddr c 0 ≤ a ∧ a < tupAddr c 0 + 4 * k) :
    encBase c + 0x1000 ≤ a ∧ a < encBase c + 0x1000 + 4 * cap p := by
  unfold tupAddr at ha
  omega

/-- The bytes of up to CAP table values lie in the channel's INV. -/
theorem mem_inv_bounds {p : Params} {c : Chan} {k a : Nat} (hk : k ≤ cap p)
    (ha : invAddr p c 0 ≤ a ∧ a < invAddr p c 0 + k * coefBytes p) :
    encBase c + 0x2000 ≤ a ∧ a < encBase c + 0x2000 + coefBytes p * cap p := by
  have := Nat.mul_le_mul_right (coefBytes p) hk
  rw [Nat.mul_comm (cap p)] at this
  unfold invAddr at ha
  omega

/-- The bytes UNPACK stores for a valid section lie in the channel's TUP and INV. -/
theorem mem_unpackCells_bounds {s : State} {slot : Nat} {c : Chan} {a : Nat} (h : legalBuild s.params = true)
    (hv : validate slot c s = none) (ha : a ∈ cellAddrs (unpackCells slot c s)) :
    (encBase c + 0x1000 ≤ a ∧ a < encBase c + 0x1000 + 4 * cap s.params) ∨
      (encBase c + 0x2000 ≤ a ∧ a < encBase c + 0x2000 + coefBytes s.params * cap s.params) := by
  obtain ⟨⟨htup, htab⟩, hentry, _⟩ := validate_eq_none.1 hv
  rcases mem_unpackCells.1 ha with ⟨k, hk, ha⟩ | ⟨k, hk, ha⟩
  · have := tupAddr_bounds (c := c) h (hk.trans_le htup)
    omega
  · have := invAddr_bounds (c := c) h ((hentry k hk).1.trans_le htab)
    omega

/-! ### The memory's form -/

theorem memoryOk_congr {s t : State} (h : memoryOk s) (hp : t.params = s.params) (hm : t.mem = s.mem) : memoryOk t := by
  unfold memoryOk
  rw [hp, hm]
  exact h

/-- A store of data bytes keeps the memory's form. -/
theorem memoryOk_store {s : State} {cs : List Host.Cell} (h : memoryOk s)
    (hcs : ∀ a ∈ cellAddrs cs, isDataByte s.params a = true) : memoryOk (s.store cs) := by
  refine ⟨Memory.wf_writeAll cs h.1, fun cell hm => ?_⟩
  rcases Memory.mem_writeAll hm with hm | hm
  · exact hcs _ (List.mem_map_of_mem hm)
  · exact h.2 cell hm

theorem memoryOk_setHead {s : State} (h : memoryOk s) (c : Chan) (e : EncHead) : memoryOk (s.setHead c e) :=
  memoryOk_congr h rfl rfl

/-- Every write of a command stays in the data memories. -/
theorem memoryOk_dataCommit {s t : State} (hl : legalBuild s.params = true) (h : memoryOk s) (hc : DataCommit s t) :
    memoryOk t := by
  cases hc with
  | extract c n _ hn =>
    refine memoryOk_store h fun a ha => ?_
    obtain ⟨h1, h2⟩ := mem_extractCells_bounds hn ha
    exact isDataByte_seq hl h1 h2
  | buildTable c n _ hn =>
    refine memoryOk_setHead (memoryOk_store h fun a ha => ?_) c _
    exact isDataByte_enc hl (.inr (mem_inv_bounds ((table_length_le s c n).trans (pred_le_cap hn)) (mem_tableCells.1 ha)))
  | encode c n _ hn =>
    refine memoryOk_setHead (memoryOk_store h fun a ha => ?_) c _
    rw [mem_tupleCells, encodeTuples_length] at ha
    exact isDataByte_enc hl (.inl (mem_tup_bounds ((runs_acSeq_length_le s c n).trans (pred_le_cap hn)) ha))
  | decode c n _ h1 hn hd =>
    refine memoryOk_store h fun a ha => ?_
    rw [mem_decodeCells, hd.2, Nat.sub_add_cancel h1] at ha
    obtain ⟨h2, h3⟩ := inLane_bounds hl hn ha
    exact isDataByte_blkOut hl h2 h3
  | pack slot c _ hs ht hn =>
    refine memoryOk_store h fun a ha => ?_
    obtain ⟨h1, h2⟩ := mem_packCells_bounds hl hs ht hn ha
    exact isDataByte_tr hl h1 h2
  | unpack slot c _ hv =>
    exact memoryOk_setHead (memoryOk_store h fun a ha => isDataByte_enc hl (mem_unpackCells_bounds hl hv ha)) c _

/-! ### One channel's invariants -/

/-- I1, I2, I3 and DC's width in channel c. -/
structure ChannelOk (c : Chan) (s : State) : Prop where
  ndist_le : (s.head c).ndist.toNat ≤ cap s.params
  tlen_le : (s.head c).tlen.toNat ≤ cap s.params
  distinct : ∀ j k, j < k → k < (s.head c).ndist.toNat → s.inv c j ≠ s.inv c k
  runs : ∀ k, k < (s.head c).tlen.toNat → s.tupRun c k ≠ 0
  dc_lt : (s.head c).dc.toNat < 2 ^ coefW s.params

theorem encodedOk_iff {s : State} : encodedOk s ↔ memoryOk s ∧ ∀ c, ChannelOk c s := by
  constructor
  · rintro ⟨hm, hlen, htab, hrun, hdc⟩
    exact ⟨hm, fun c => ⟨(hlen c).1, (hlen c).2, htab c, hrun c, hdc c⟩⟩
  · rintro ⟨hm, hc⟩
    exact ⟨hm, fun c => ⟨(hc c).ndist_le, (hc c).tlen_le⟩, fun c => (hc c).distinct, fun c => (hc c).runs,
      fun c => (hc c).dc_lt⟩

/-- The table reads the same where INV's bytes do. -/
theorem inv_congr {s t : State} {c : Chan} (hl : legalBuild s.params = true) (hp : t.params = s.params)
    (hb : ∀ a, encBase c + 0x2000 ≤ a → a < encBase c + 0x4000 → t.byte a = s.byte a) {k : Nat} (hk : k < cap s.params) :
    t.inv c k = s.inv c k := by
  have := invAddr_bounds (c := c) hl hk
  unfold State.inv
  rw [hp]
  exact State.coef_congr hp fun b h1 h2 => hb b (by omega) (by omega)

/-- The runs read the same where TUP's bytes do. -/
theorem tupRun_congr {s t : State} {c : Chan} (hl : legalBuild s.params = true)
    (hb : ∀ a, encBase c + 0x1000 ≤ a → a < encBase c + 0x2000 → t.byte a = s.byte a) {k : Nat} (hk : k < cap s.params) :
    t.tupRun c k = s.tupRun c k := by
  have := tupAddr_bounds (c := c) hl hk
  exact State.half_congr fun b h1 h2 => hb b (by omega) (by omega)

/-- `t` is of the same build and has channel c's Encoded Channel: its head, and every byte of its ENC sub-window. -/
structure SameChannel (c : Chan) (s t : State) : Prop where
  params : t.params = s.params
  head : t.head c = s.head c
  bytes : ∀ a, encBase c ≤ a → a < encBase c + 0x4000 → t.byte a = s.byte a

theorem channelOk_congr {s t : State} {c : Chan} (hl : legalBuild s.params = true) (h : ChannelOk c s)
    (hs : SameChannel c s t) : ChannelOk c t := by
  obtain ⟨hp, hh, hb⟩ := hs
  refine ⟨by rw [hh, hp]; exact h.ndist_le, by rw [hh, hp]; exact h.tlen_le, fun j k hj hk => ?_, fun k hk => ?_,
    by rw [hh, hp]; exact h.dc_lt⟩
  · rw [hh] at hk
    have hcap := hk.trans_le h.ndist_le
    have hinv : ∀ i, i < cap s.params → t.inv c i = s.inv c i := fun i =>
      inv_congr hl hp fun a h1 h2 => hb a (by omega) h2
    rw [hinv j (hj.trans hcap), hinv k hcap]
    exact h.distinct j k hj hk
  · rw [hh] at hk
    rw [tupRun_congr hl (fun a h1 h2 => hb a (by omega) (by omega)) (hk.trans_le h.tlen_le)]
    exact h.runs k hk

theorem channelOk_of_empty {s : State} {c : Chan} (h : s.head c = EncHead.empty) : ChannelOk c s := by
  constructor <;> rw [h] <;> simp [EncHead.empty]

/-! ### Writes outside a channel -/

theorem sameChannel_store {s : State} {cs : List Host.Cell} (c : Chan)
    (h : ∀ a ∈ cellAddrs cs, ¬(encBase c ≤ a ∧ a < encBase c + 0x4000)) : SameChannel c s (s.store cs) :=
  ⟨rfl, rfl, fun a h1 h2 => State.byte_store_of_not_mem s cs a fun hm => h a hm ⟨h1, h2⟩⟩

/-- Bytes below or above the ENC window belong to no channel. -/
theorem sameChannel_store_outside {s : State} {cs : List Host.Cell} (c : Chan)
    (h : ∀ a ∈ cellAddrs cs, a < 0x040000 ∨ 0x04C000 ≤ a) : SameChannel c s (s.store cs) := by
  have := encBase_bounds c
  exact sameChannel_store c fun a ha hin => by
    have := h a ha
    omega

/-- What channel c's commits leave of another channel. -/
theorem sameChannel_setHead_store {s : State} {cs : List Host.Cell} {c d : Chan} (hd : d ≠ c) (e : EncHead)
    (h : ∀ a ∈ cellAddrs cs, encBase c ≤ a ∧ a < encBase c + 0x4000) :
    SameChannel d s ((s.store cs).setHead c e) := by
  have hapart := encBase_apart hd
  refine ⟨rfl, by rw [State.head_setHead, if_neg hd, State.head_store], fun a h1 h2 => ?_⟩
  rw [State.byte_setHead]
  exact State.byte_store_of_not_mem s cs a fun hm => by
    have := h a hm
    omega

/-! ### BUILD_TABLE's and RLE_ENCODE's own channel -/

/-- A number up to CAP of a legal build fits a u16. -/
theorem toNat_ofNat_of_le_cap {p : Params} (hl : legalBuild p = true) {k : Nat} (hk : k ≤ cap p) :
    (BitVec.ofNat 16 k).toNat = k := by
  have := cap_lt hl
  rw [BitVec.toNat_ofNat]
  exact Nat.mod_eq_of_lt (by omega)

theorem ofNat_ne_zero_of_le_cap {p : Params} (hl : legalBuild p = true) {k : Nat} (h1 : 1 ≤ k) (hk : k ≤ cap p) :
    BitVec.ofNat 16 k ≠ 0 := fun h0 => by
  have h := toNat_ofNat_of_le_cap hl hk
  rw [h0, show (0 : Half).toNat = 0 from rfl] at h
  omega

/-- BUILD_TABLE: the table is the canonical order, which lists no value twice. -/
theorem channelOk_commitBuildTable {s : State} {c : Chan} {n : Nat} (hl : legalBuild s.params = true)
    (hn : n ≤ s.params.nMax) (h : ChannelOk c s) : ChannelOk c (commitBuildTable c n s) := by
  have hlen := (table_length_le s c n).trans (pred_le_cap hn)
  have hhead : (commitBuildTable c n s).head c = _ := (head_commitBuildTable s c c n).trans (if_pos rfl)
  have hndist : ((commitBuildTable c n s).head c).ndist.toNat = (canonOrder s.params (s.acSeq c n)).length := by
    rw [hhead]
    exact toNat_ofNat_of_le_cap hl hlen
  refine ⟨hndist.trans_le hlen, by rw [hhead]; exact h.tlen_le, fun j k hj hk => ?_, fun k hk => ?_,
    by rw [hhead]; exact h.dc_lt⟩
  · rw [hndist] at hk
    rw [inv_commitBuildTable (List.getElem?_eq_getElem (hj.trans hk)),
      inv_commitBuildTable (List.getElem?_eq_getElem hk)]
    exact fun he => hj.ne ((canonOrder_nodup s.params (s.acSeq c n)).getElem_inj_iff.1 he)
  · rw [hhead] at hk
    rw [tupRun_congr hl (fun a h1 h2 => byte_commitBuildTable fun ha => ?_) (hk.trans_le h.tlen_le)]
    · exact h.runs k hk
    · have := mem_inv_bounds hlen ha
      omega

/-- RLE_ENCODE: every run of the decomposition is at least 1. -/
theorem channelOk_commitEncode {s : State} {c : Chan} {n : Nat} (hl : legalBuild s.params = true)
    (hn : n ≤ s.params.nMax) (h : ChannelOk c s) : ChannelOk c (commitEncode c n s) := by
  have hlen := (runs_acSeq_length_le s c n).trans (pred_le_cap hn)
  have hhead : (commitEncode c n s).head c = _ := (head_commitEncode s c c n).trans (if_pos rfl)
  have htlen : ((commitEncode c n s).head c).tlen.toNat = (runs (s.acSeq c n)).length := by
    rw [hhead]
    exact toNat_ofNat_of_le_cap hl hlen
  refine ⟨by rw [hhead]; exact h.ndist_le, htlen.trans_le hlen, fun j k hj hk => ?_, fun k hk => ?_,
    by rw [hhead]; exact s.coef_lt _⟩
  · rw [hhead] at hk
    have hcap := hk.trans_le h.ndist_le
    have hb : ∀ a, encBase c + 0x2000 ≤ a → a < encBase c + 0x4000 → (commitEncode c n s).byte a = s.byte a :=
      fun a h1 _ => byte_commitEncode fun ha => by
        have := mem_tup_bounds hlen ha
        have := cap_lt hl
        omega
    have hinv : ∀ i, i < cap s.params → (commitEncode c n s).inv c i = s.inv c i := fun i =>
      inv_congr hl (onlyData_commitEncode c n s).params hb
    rw [hinv j (hj.trans hcap), hinv k hcap]
    exact h.distinct j k hj hk
  · rw [htlen] at hk
    have hmem := List.getElem_mem hk
    have hle := (runs_mem hmem).2
    rw [acSeq_length] at hle
    rw [(tuple_commitEncode (List.getElem?_eq_getElem hk)).2]
    exact ofNat_ne_zero_of_le_cap hl (runs_pos _ hmem) (hle.trans (pred_le_cap hn))

/-! ### UNPACK's own channel -/

/-- The bytes UNPACK stores for tuple k. -/
def unpackTupleCells (slot : Nat) (c : Chan) (s : State) (k : Nat) : List Host.Cell :=
  leCells (tupAddr c k) 2 (s.trTupCode slot c k).toNat ++ leCells (tupAddr c k + 2) 2 (s.trTupRun slot c k).toNat

/-- The bytes UNPACK stores for table entry k. -/
def unpackTableCells (slot : Nat) (c : Chan) (s : State) (k : Nat) : List Host.Cell :=
  leCells (invAddr s.params c (s.trTabCode slot c k).toNat) (coefBytes s.params) (s.trTabVal slot c k).toNat

theorem unpackCells_eq (slot : Nat) (c : Chan) (s : State) :
    unpackCells slot c s = (List.range (s.trTupLen slot c).toNat).flatMap (unpackTupleCells slot c s) ++
      (List.range (s.trTabLen slot c).toNat).flatMap (unpackTableCells slot c s) := rfl

theorem mem_unpackTupleCells {slot : Nat} {c : Chan} {s : State} {k b : Nat} :
    b ∈ cellAddrs (unpackTupleCells slot c s k) ↔ tupAddr c k ≤ b ∧ b < tupAddr c k + 4 := by
  simp only [unpackTupleCells, cellAddrs_append, List.mem_append, mem_cellAddrs_leCells]
  omega

theorem mem_unpackTableCells {slot : Nat} {c : Chan} {s : State} {k b : Nat} :
    b ∈ cellAddrs (unpackTableCells slot c s k) ↔ invAddr s.params c (s.trTabCode slot c k).toNat ≤ b ∧
      b < invAddr s.params c (s.trTabCode slot c k).toNat + coefBytes s.params :=
  mem_cellAddrs_leCells

/-- Two entries of a valid section differ in their codes and in their values. -/
theorem trTab_ne_of_valid {s : State} {slot : Nat} {c : Chan} (hv : validate slot c s = none) {j k : Nat}
    (hj : j < (s.trTabLen slot c).toNat) (hk : k < (s.trTabLen slot c).toNat) (hne : j ≠ k) :
    (s.trTabCode slot c j).toNat ≠ (s.trTabCode slot c k).toNat ∧ s.trTabVal slot c j ≠ s.trTabVal slot c k := by
  obtain ⟨_, hentry, _⟩ := validate_eq_none.1 hv
  rcases Nat.lt_or_gt_of_ne hne with hlt | hlt
  · obtain ⟨hcode, hval⟩ := (hentry k hk).2 j hlt
    exact ⟨fun he => hcode (BitVec.eq_of_toNat_eq he), hval⟩
  · obtain ⟨hcode, hval⟩ := (hentry j hj).2 k hlt
    exact ⟨fun he => hcode (BitVec.eq_of_toNat_eq he.symm), hval.symm⟩

/-- UNPACK of a valid section: INV holds each table entry's value at its code (45_marshaller.md R171). -/
theorem inv_unpackChannel {s : State} {slot : Nat} {c : Chan} (hv : validate slot c s = none) {k : Nat}
    (hk : k < (s.trTabLen slot c).toNat) :
    (unpackChannel slot c s).inv c (s.trTabCode slot c k).toNat = s.trTabVal slot c k := by
  have hread := State.readLE_store_last_group s
    ((List.range (s.trTupLen slot c).toNat).flatMap (unpackTupleCells slot c s)) (unpackTableCells slot c s) hk
    [] [] (invAddr s.params c (s.trTabCode slot c k).toNat) (coefBytes s.params) (s.trTabVal slot c k).toNat
    (by simp [unpackTableCells]) (by simp)
    fun j hj hj' b h1 h2 hm => by
      rw [mem_unpackTableCells] at hm
      rcases Nat.lt_or_gt_of_ne (trTab_ne_of_valid hv hk hj' hj.ne).1 with hlt | hlt
      · have := invAddr_stride s.params c _ _ hlt
        omega
      · have := invAddr_stride s.params c _ _ hlt
        omega
  rw [unpackChannel, State.inv_setHead, unpackCells_eq]
  exact State.coef_eq_of_readLE (s.coef_lt _) hread

/-- UNPACK of a valid section: TUP holds each tuple's run (45_marshaller.md R171). -/
theorem tupRun_unpackChannel {s : State} {slot : Nat} {c : Chan} (hl : legalBuild s.params = true)
    (hv : validate slot c s = none) {k : Nat} (hk : k < (s.trTupLen slot c).toNat) :
    (unpackChannel slot c s).tupRun c k = s.trTupRun slot c k := by
  obtain ⟨⟨htup, htab⟩, hentry, _⟩ := validate_eq_none.1 hv
  have hk' := tupAddr_bounds (c := c) hl (hk.trans_le htup)
  have hread := State.readLE_store_group s []
    ((List.range (s.trTabLen slot c).toNat).flatMap (unpackTableCells slot c s)) (unpackTupleCells slot c s) hk
    (leCells (tupAddr c k) 2 (s.trTupCode slot c k).toNat) [] (tupAddr c k + 2) 2 (s.trTupRun slot c k).toNat
    (by simp [unpackTupleCells]) (by simp)
    (fun j hj _ b h1 h2 hm => by
      rw [mem_unpackTupleCells] at hm
      unfold tupAddr at *
      omega)
    fun b h1 h2 hm => by
      obtain ⟨j, hj, hm⟩ := mem_cellAddrs_flatMap.1 hm
      have := invAddr_bounds (c := c) hl ((hentry j (List.mem_range.1 hj)).1.trans_le htab)
      rw [mem_unpackTableCells] at hm
      omega
  rw [unpackChannel, State.tupRun_setHead, unpackCells_eq]
  refine (State.half_eq_of_readLE hread).trans ?_
  rw [BitVec.ofNat_toNat, BitVec.setWidth_eq]

/-- The codes of a valid section are a permutation of the indices below TAB_LEN: each index is some entry's code. -/
theorem exists_trTabCode_eq {s : State} {slot : Nat} {c : Chan} (hv : validate slot c s = none) {j : Nat}
    (hj : j < (s.trTabLen slot c).toNat) :
    ∃ k, k < (s.trTabLen slot c).toNat ∧ (s.trTabCode slot c k).toNat = j := by
  obtain ⟨_, hentry, _⟩ := validate_eq_none.1 hv
  have hmaps : Set.MapsTo (fun k => (s.trTabCode slot c k).toNat) (Finset.range (s.trTabLen slot c).toNat)
      (Finset.range (s.trTabLen slot c).toNat) := fun k hk => by
    rw [Finset.mem_coe, Finset.mem_range] at *
    exact (hentry k hk).1
  have hinj : Set.InjOn (fun k => (s.trTabCode slot c k).toNat) (Finset.range (s.trTabLen slot c).toNat) :=
    fun a ha b hb hab => by
      rw [Finset.mem_coe, Finset.mem_range] at ha hb
      by_contra hne
      exact (trTab_ne_of_valid hv ha hb hne).1 hab
  obtain ⟨k, hk, hkj⟩ := Finset.surjOn_of_injOn_of_card_le _ hmaps hinj le_rfl (Finset.mem_coe.2 (Finset.mem_range.2 hj))
  exact ⟨k, Finset.mem_range.1 (Finset.mem_coe.1 hk), hkj⟩

/-- UNPACK: a valid section has pairwise different values and no run of 0, within CAP (45_marshaller.md R172, R173). -/
theorem channelOk_unpackChannel {s : State} {slot : Nat} {c : Chan} (hl : legalBuild s.params = true)
    (hv : validate slot c s = none) : ChannelOk c (unpackChannel slot c s) := by
  obtain ⟨⟨htup, htab⟩, _, hrun⟩ := validate_eq_none.1 hv
  have hhead : (unpackChannel slot c s).head c = _ := (head_unpackChannel s slot c c).trans (if_pos rfl)
  refine ⟨by rw [hhead]; exact htab, by rw [hhead]; exact htup, fun i j hij hj => ?_, fun k hk => ?_,
    by rw [hhead]; exact s.coef_lt _⟩
  · rw [hhead] at hj
    obtain ⟨a, ha, rfl⟩ := exists_trTabCode_eq hv (hij.trans hj)
    obtain ⟨b, hb, rfl⟩ := exists_trTabCode_eq hv hj
    rw [inv_unpackChannel hv ha, inv_unpackChannel hv hb]
    exact (trTab_ne_of_valid hv ha hb fun he => by simp [he] at hij).2
  · rw [hhead] at hk
    rw [tupRun_unpackChannel hl hv hk]
    exact hrun k hk

/-! ### Every write, every transaction, every step -/

/-- Every write of a command keeps every channel's invariants: those of its own channel because of what it stores, the
others' because it stores elsewhere. -/
theorem channelOk_dataCommit {s t : State} (hl : legalBuild s.params = true) (h : ∀ c, ChannelOk c s)
    (hc : DataCommit s t) (d : Chan) : ChannelOk d t := by
  have hcap := cap_lt hl
  have hsize := coefBytes_mul_nMax_le hl
  have hinv : coefBytes s.params * cap s.params ≤ coefBytes s.params * s.params.nMax :=
    Nat.mul_le_mul_left _ (by omega)
  cases hc with
  | extract c n _ hn =>
    refine channelOk_congr hl (h d) (sameChannel_store_outside d fun a ha => ?_)
    have := mem_extractCells_bounds hn ha
    have := Chan.idx_lt c
    omega
  | buildTable c n _ hn =>
    by_cases hd : d = c
    · subst hd
      exact channelOk_commitBuildTable hl hn (h d)
    · refine channelOk_congr hl (h d) (sameChannel_setHead_store hd _ fun a ha => ?_)
      have := mem_inv_bounds ((table_length_le s c n).trans (pred_le_cap hn)) (mem_tableCells.1 ha)
      omega
  | encode c n _ hn =>
    by_cases hd : d = c
    · subst hd
      exact channelOk_commitEncode hl hn (h d)
    · refine channelOk_congr hl (h d) (sameChannel_setHead_store hd _ fun a ha => ?_)
      rw [mem_tupleCells, encodeTuples_length] at ha
      have := mem_tup_bounds ((runs_acSeq_length_le s c n).trans (pred_le_cap hn)) ha
      omega
  | decode c n _ h1 hn hdec =>
    refine channelOk_congr hl (h d) (sameChannel_store_outside d fun a ha => ?_)
    rw [mem_decodeCells, hdec.2, Nat.sub_add_cancel h1] at ha
    have := inLane_bounds hl hn ha
    omega
  | pack slot c _ hs ht hn =>
    refine channelOk_congr hl (h d) (sameChannel_store_outside d fun a ha => ?_)
    have := mem_packCells_bounds hl hs ht hn ha
    omega
  | unpack slot c _ hv =>
    by_cases hd : d = c
    · subst hd
      exact channelOk_unpackChannel hl hv
    · refine channelOk_congr hl (h d) (sameChannel_setHead_store hd _ fun a ha => ?_)
      have := mem_unpackCells_bounds hl hv ha
      omega

theorem encodedOk_dataCommit {s t : State} (hl : legalBuild s.params = true) (h : encodedOk s) (hc : DataCommit s t) :
    encodedOk t := by
  obtain ⟨hm, hch⟩ := encodedOk_iff.1 h
  exact encodedOk_iff.2 ⟨memoryOk_dataCommit hl hm hc, channelOk_dataCommit hl hch hc⟩

/-- The data invariants read the build, the memories and the Encoded Channel heads alone. -/
theorem encodedOk_congr {s t : State} (h : encodedOk s) (hp : t.params = s.params) (hm : t.mem = s.mem)
    (he : t.enc = s.enc) (hr : t.resets = s.resets) : encodedOk t := by
  have hb := State.byte_congr hm hr
  obtain ⟨hmem, hlen, htab, hrun, hdc⟩ := h
  refine ⟨memoryOk_congr hmem hp hm, fun c => ?_, fun c j k => ?_, fun c k => ?_, fun c => ?_⟩
  · rw [State.head_congr he, hp]
    exact hlen c
  · obtain ⟨_, _, _, hj, _⟩ := State.elements_congr hp hb c j
    obtain ⟨_, _, _, hk, _⟩ := State.elements_congr hp hb c k
    rw [State.head_congr he, hj, hk]
    exact htab c j k
  · obtain ⟨_, _, _, _, _, hk⟩ := State.elements_congr hp hb c k
    rw [State.head_congr he, hk]
    exact hrun c k
  · rw [State.head_congr he, hp]
    exact hdc c

/-- Empty Encoded Channels meet the data invariants, whatever stands in memory. -/
theorem encodedOk_of_empty {s : State} (hm : memoryOk s)
    (he : s.enc = { y := EncHead.empty, cr := EncHead.empty, cb := EncHead.empty }) : encodedOk s :=
  encodedOk_iff.2 ⟨hm, fun c => channelOk_of_empty (by rw [State.head, he]; cases c <;> rfl)⟩

theorem encodedOk_complete {s : State} {x : Execution} (slot : Half) (hl : legalBuild s.params = true)
    (h : encodedOk s) (hx : SoundExecution s x) : encodedOk (complete slot x) :=
  encodedOk_congr (hx.writes.induct (fun _ _ => encodedOk_dataCommit) hl h) (by simp) (by simp) (by simp) (by simp)

/-- A word the host stores lies in BLK_IN or TR, so in no channel. -/
theorem encodedOk_hostStore {s : State} {a : Nat} (w : Word) (hl : legalBuild s.params = true) (h : encodedOk s)
    (ha : a % 4 = 0) (hr : targetOf s.params a = .ram) : encodedOk (s.store (leCells a 4 w.toNat)) := by
  obtain ⟨hm, hch⟩ := encodedOk_iff.1 h
  have hsize := coefBytes_mul_nMax_le hl
  refine encodedOk_iff.2 ⟨memoryOk_store hm fun b hb => ?_, fun c => channelOk_congr hl (hch c)
    (sameChannel_store_outside c fun b hb => ?_)⟩ <;> obtain ⟨h1, h2⟩ := mem_cellAddrs_leCells.1 hb
  · exact isDataByte_of_ram hr ha h1 h2
  · rcases targetOf_eq_ram.1 hr with hw | hw
    · have := windowOf_eq_blkIn.1 hw
      omega
    · have := (windowOf_eq_tr hl).1 hw
      omega

theorem encodedOk_perform {s : State} (t : Txn) (hl : legalBuild s.params = true) (h : encodedOk s) :
    encodedOk (perform t s) := by
  rcases perform_effect t s with he | ⟨w, _, he⟩ | ⟨a, w, ha, hr, he⟩ | ⟨n, e, q, d, he⟩ <;> rw [he]
  · exact encodedOk_of_empty (memoryOk_congr h.1 rfl rfl) rfl
  · exact encodedOk_congr h rfl rfl rfl rfl
  · exact encodedOk_congr (encodedOk_hostStore w hl h ha hr) rfl rfl rfl rfl
  · exact encodedOk_congr h rfl rfl rfl rfl

theorem encodedOk_afterHardReset (p : Params) (r : Nat) (es : List Event) : encodedOk (State.afterHardReset p r es) :=
  encodedOk_of_empty ⟨rfl, by simp [State.afterHardReset]⟩ rfl

/-- Settles O59: each of the turns that `turn_cases` lists keeps the data invariants. -/
theorem stepKeepsTheEncodedBlockInvariants : Obligations.StepKeepsTheEncodedBlockInvariants := by
  intro s t h hstep
  have hl := legalBuild_of_step hstep
  have hev : ∀ es, encodedOk { s with events := es } := fun es => encodedOk_congr h rfl rfl rfl rfl
  rw [step_of_legal hl] at hstep
  rcases turn_cases hstep with ⟨l, es, _, _, hrun⟩ | ⟨x, es, _, _, _, _, rfl⟩ | ⟨x, es, _, _, _, rfl⟩ |
    ⟨x, _, _, _, rfl⟩ | ⟨es, _, rfl⟩ | ⟨es, _, rfl⟩ | ⟨es, rfl⟩
  · obtain ⟨slot, x, hx, hsound⟩ := runWord_sound l.cmd (s := { s with events := es }) hl
    rw [hrun, Host.Outcome.next.injEq] at hx
    rw [hx]
    exact encodedOk_complete (s := { s with events := es }) slot hl (hev es) hsound
  · exact encodedOk_congr h rfl rfl rfl rfl
  · exact encodedOk_perform x hl (hev es)
  · exact encodedOk_perform x hl (encodedOk_congr h rfl rfl rfl rfl)
  · exact encodedOk_congr h rfl rfl rfl rfl
  · exact encodedOk_afterHardReset _ _ _
  · exact hev es

/-- Settles O57: at reset every Encoded Channel is empty, the engine is idle and no error is recorded. -/
theorem resetMeetsTheInvariants : Obligations.ResetMeetsTheInvariants :=
  ⟨⟨encodedOk_afterHardReset _ _ _, controlOk_afterHardReset _ _ _⟩, fun p r es =>
    ⟨encodedOk_afterHardReset p r es, controlOk_afterHardReset p r es⟩⟩

end Sys2Proof.Machine
end

section
/-! PROOFS. The registers through the port: what the step of an offered register access answers and changes (10_state.md
R22 to R28, R37; 60_exceptions.md R216, R217). -/

namespace Sys2Proof.Machine
open Sys2Proof

/-! ### Offered transactions -/

/-- A transaction that the port does not hold is performed. -/
theorem hostTurn_of_not_held {t : Txn} {s : State} (h : s.busy = true → heldWhileBusy s.params t = false) :
    hostTurn t s = perform t s := by
  rw [hostTurn, if_neg]
  rw [Bool.and_eq_true, not_and, Bool.not_eq_true]
  exact h

/-- With `rst_n` high and nothing held, a step takes the oldest input. -/
theorem step_eq_takeEvent {s : State} (hl : legalBuild s.params = true) (hr : s.rstN = true) (hh : s.held = none) :
    step s = takeEvent s := by
  rw [step_of_legal hl, turn, if_pos hr, hh]

theorem takeEvent_host {s : State} {t : Txn} {es : List Event} (h : s.events = .host t :: es) :
    takeEvent s = .next (hostTurn t { s with events := es }) := by
  rw [takeEvent, h]

/-- The engine's turn, as the next input, completes the running command. -/
theorem step_engine_completes {s : State} {es : List Event} (hl : legalBuild s.params = true) (hr : s.rstN = true)
    (hh : s.held = none) (hb : s.busy = true) (hev : s.events = .engine :: es) :
    ∃ slot x, step s = .next (complete slot x) ∧ onlyData { s with events := es } x.after := by
  obtain ⟨l, hlatch⟩ := State.busy_eq_true.1 hb
  rw [step_eq_takeEvent hl hr hh, takeEvent, hev]
  dsimp only
  rw [engineTurn, hlatch]
  exact runWord_completes l.cmd _

/-- In a shared clock cycle with the host first, the engine's turn is the next input. -/
theorem takeEvent_sameCycle_host {s : State} {t : Txn} {first : Bool} {es : List Event}
    (h : s.events = .sameCycle t first :: es) (hf : hostComesFirst t first = true) :
    takeEvent s = .next (hostTurn t { s with events := .engine :: es }) := by
  rw [takeEvent, h]
  exact if_pos hf

/-- The step of an offered transaction: the port performs or holds it. -/
theorem step_offered {s : State} {t : Txn} {es : List Event} (h : offered s t es) :
    step s = .next (hostTurn t { s with events := es }) := by
  obtain ⟨hl, hr, hheld, hev⟩ := h
  rw [step_eq_takeEvent hl hr hheld, takeEvent_host hev]

/-- A register read is not held, busy or idle. -/
theorem heldWhileBusy_csr_read {p : Params} {a : BitVec 21} {b : BitVec 4} {r : Csr}
    (h : targetOf p a.toNat = .csr r) : heldWhileBusy p (.read a b) = false := by
  simp [heldWhileBusy, Txn.addr, Txn.requestsSrst, windowOf_none_of_csr h]

/-- Nor is a register write, but a CTRL write with SRST = 1. -/
theorem heldWhileBusy_csr_write {p : Params} {a : BitVec 21} {w : Word} {b : BitVec 4} {r : Csr}
    (h : targetOf p a.toNat = .csr r) (ha : a.toNat ≠ 0x010) : heldWhileBusy p (.write a w b) = false := by
  simp [heldWhileBusy, Txn.addr, Txn.requestsSrst, windowOf_none_of_csr h, ha]

/-- A register read, busy or idle, is answered at once. -/
theorem hostTurn_csr_read {s : State} {a : BitVec 21} {r : Csr} (ha : a.toNat % 4 = 0)
    (hr : targetOf s.params a.toNat = .csr r) : hostTurn (.read a 0xF) s = s.answer (csrRead r s) := by
  rw [hostTurn_of_not_held fun _ => heldWhileBusy_csr_read hr, perform_read ha, hostRead_csr hr]

/-- A write to a writable register but CTRL, busy or idle, is performed at once. -/
theorem hostTurn_csr_write {s : State} {a : BitVec 21} {r : Csr} (w : Word) (ha : a.toNat % 4 = 0)
    (hctrl : a.toNat ≠ 0x010) (hr : targetOf s.params a.toNat = .csr r) (hro : Csr.access r ≠ .ro) :
    hostTurn (.write a w 0xF) s = (csrWrite r w s).answer 0 := by
  rw [hostTurn_of_not_held fun _ => heldWhileBusy_csr_write hr hctrl, perform_write ha, hostWrite_csr hr hro]

theorem step_offered_csr_read {s : State} {a : BitVec 21} {r : Csr} {es : List Event} (h : offered s (.read a 0xF) es)
    (ha : a.toNat % 4 = 0) (hr : targetOf s.params a.toNat = .csr r) :
    step s = .next (State.answer { s with events := es } (csrRead r { s with events := es })) := by
  rw [step_offered h, hostTurn_csr_read (s := { s with events := es }) ha hr]

theorem step_offered_csr_write {s : State} {a : BitVec 21} {w : Word} {r : Csr} {es : List Event}
    (h : offered s (.write a w 0xF) es) (ha : a.toNat % 4 = 0) (hctrl : a.toNat ≠ 0x010)
    (hr : targetOf s.params a.toNat = .csr r) (hro : Csr.access r ≠ .ro) :
    step s = .next ((csrWrite r w { s with events := es }).answer 0) := by
  rw [step_offered h, hostTurn_csr_write (s := { s with events := es }) w ha hctrl hr hro]

/-- The register at an offset (10_state.md section 2's table). -/
theorem targetOf_csr {p : Params} {a : Nat} {r : Csr} (h : a < 0x10000) (hr : Csr.ofOffset a = some r) :
    targetOf p a = .csr r := by
  rw [targetOf_low h, hr]
  rfl

/-! ### The identification registers -/

/-- PARAM of a legal build: N_MAX, COEF64 in bit 12, NSLOT from bit 16 on (10_state.md R24). -/
theorem paramWord_toNat {p : Params} (h : legalBuild p = true) :
    (paramWord p).toNat = p.nMax + (if p.coef64 then 4096 else 0) + 65536 * p.nSlot := by
  obtain ⟨_, hn, _, hs, _⟩ := (legalBuild_iff p).1 h
  have h3 : (0 : BitVec 3).toNat = 0 := rfl
  have h1 : (0 : BitVec 1).toNat = 0 := rfl
  simp only [paramWord, Laws.toNat_append_eq, h3, h1, BitVec.toNat_ofNat, BitVec.toNat_ofBool]
  rw [Nat.mod_eq_of_lt (show p.nMax < 2 ^ 11 by omega), Nat.mod_eq_of_lt (show p.nSlot < 2 ^ 16 by omega)]
  cases p.coef64 <;> simp <;> omega

/-- SLOT_BYTES of a legal build fits the register. -/
theorem slotBytes_word_toNat {p : Params} (h : legalBuild p = true) :
    (BitVec.ofNat 32 (slotBytes p)).toNat = slotBytes p := by
  obtain ⟨_, _, h1, _, hs⟩ := (legalBuild_iff p).1 h
  have := Nat.le_mul_of_pos_left (slotBytes p) h1
  rw [BitVec.toNat_ofNat]
  exact Nat.mod_eq_of_lt (by omega)

/-- Settles O42: each identification register is a constant of the build. -/
theorem identificationRegistersRead : Obligations.IdentificationRegistersRead := by
  refine ⟨fun s es h => ?_, fun s es h => ?_, fun s es h => ⟨paramWord s.params, ?_, paramWord_toNat h.1⟩,
    fun s es h => ⟨BitVec.ofNat 32 (slotBytes s.params), ?_, slotBytes_word_toNat h.1⟩, by decide, by decide⟩
  · exact step_offered_csr_read (r := .id) h rfl (targetOf_csr (by decide) rfl)
  · exact step_offered_csr_read (r := .version) h rfl (targetOf_csr (by decide) rfl)
  · exact step_offered_csr_read (r := .param) h rfl (targetOf_csr (by decide) rfl)
  · exact step_offered_csr_read (r := .slotsz) h rfl (targetOf_csr (by decide) rfl)

/-! ### Register writes -/

/-- Settles O44: the CMD write is `accept` in an idle engine and sets OVR in a busy one. -/
theorem cmdWriteIsAcceptedOrDropped : Obligations.CmdWriteIsAcceptedOrDropped := by
  intro s w es h
  have hstep : step s = .next ((writeCmd w { s with events := es }).answer 0) :=
    step_offered_csr_write (r := .cmd) h rfl (by decide) (targetOf_csr (by decide) rfl) (by decide)
  refine ⟨fun hb => ?_, fun hb => ?_⟩
  · rw [writeCmd_of_idle (s := { s with events := es }) hb] at hstep
    exact ⟨_, hstep, rfl, rfl⟩
  · rw [writeCmd_of_busy (s := { s with events := es }) hb] at hstep
    exact hstep

/-- Settles O45: the CFG write stores the word's low half, and the read behind it answers that half. -/
theorem cfgWriteKeepsTheLatchedLen : Obligations.CfgWriteKeepsTheLatchedLen := by
  intro s w es h
  have hwrite := step_offered_csr_write (r := .cfg) h rfl (by decide) (targetOf_csr (by decide) rfl) (by decide)
  have hlow : (w.extractLsb' 0 16).toNat = w.toNat % 65536 := by simp
  obtain ⟨hl, hr, hheld, _⟩ := h
  have hread := step_offered_csr_read (r := .cfg) (es := es)
    (s := (csrWrite .cfg w { s with events := .host (.read 0x014 0xF) :: es }).answer 0)
    ⟨hl, hr, hheld, rfl⟩ rfl (targetOf_csr (by decide) rfl)
  refine ⟨_, _, hwrite, hread, rfl, hlow, rfl, _, rfl, ?_⟩
  rw [← hlow]
  exact BitVec.toNat_setWidth_of_le (by decide)

/-- W1C clears the bits that the word has set (10_state.md R37). -/
theorem getLsbD_w1c (old : BitVec 4) (w : Word) {i : Nat} (hi : i < 4) :
    (w1c old w).getLsbD i = (old.getLsbD i && !w.getLsbD i) := by
  simp [w1c, hi]

/-- Settles O46: the IRQ_STATUS write is W1C. -/
theorem irqStatusIsWriteOneToClear : Obligations.IrqStatusIsWriteOneToClear := by
  intro s w es h
  have hstep := step_offered_csr_write (r := .irqStatus) h rfl (by decide) (targetOf_csr (by decide) rfl) (by decide)
  exact ⟨_, hstep, fun i hi => getLsbD_w1c s.irqStatus w hi, rfl⟩

/-! ### The same-cycle clear -/

/-- A completion sets DONE, and ERR with STATUS.ERR if that was clear before it. -/
theorem complete_sets_events {s : State} {x : Execution} (slot : Half) (h : onlyData s x.after)
    (he : s.statusErr = false) :
    (complete slot x).irqStatus &&& irqDone = irqDone ∧
      ((complete slot x).statusErr = true → (complete slot x).irqStatus &&& irqErr = irqErr) := by
  have hdone : ∀ b : BitVec 4, (b ||| irqDone) &&& irqDone = irqDone := by decide
  have herr : ∀ b : BitVec 4, (b ||| irqErr ||| irqDone) &&& irqErr = irqErr := by decide
  refine ⟨?_, fun hse => ?_⟩
  · rw [complete_irqStatus]
    exact hdone _
  · rw [complete_statusErr] at hse
    rw [complete_irqStatus]
    cases hx : x.errs with
    | nil =>
      rw [hx, recordErrors_nil, h, he] at hse
      cases hse
    | cons e es =>
      rw [recordErrors_cons_irqStatus]
      exact herr _

/-- Settles O48: the write comes first whichever the input names first, and the completion then sets its bits. -/
theorem setWinsOverSameCycleClear : Obligations.SetWinsOverSameCycleClear := by
  intro s w first es hl hr hheld hev hb he
  have hcsr : targetOf s.params (0x03C : BitVec 21).toNat = .csr .irqStatus := targetOf_csr (by decide) rfl
  have hfirst : hostComesFirst (.write 0x03C w 0xF) first = true := by
    simp [hostComesFirst, Txn.writesIrqStatus, Txn.misformed, Txn.addr, Txn.strobes]
  have hwrite : step s = .next ((csrWrite .irqStatus w { s with events := .engine :: es }).answer 0) := by
    rw [step_eq_takeEvent hl hr hheld, takeEvent_sameCycle_host hev hfirst,
      hostTurn_csr_write (s := { s with events := .engine :: es }) w rfl (by decide) hcsr (by decide)]
  obtain ⟨slot, x, hrun, hx⟩ := step_engine_completes
    (s := (csrWrite .irqStatus w { s with events := .engine :: es }).answer 0) hl hr hheld hb rfl
  refine ⟨_, complete slot x, hwrite, hrun, rfl, ?_, complete_sets_events slot hx he⟩
  rw [complete_events, hx]

end Sys2Proof.Machine
end

section
/-! PROOFS. The memory's form: every step keeps the strictly rising addresses and lists data-memory bytes only
(20_memory.md R66, R77). -/

namespace Sys2Proof.Machine
open Sys2Proof

theorem memoryOk_complete {s : State} {x : Execution} (slot : Half) (hl : legalBuild s.params = true)
    (h : memoryOk s) (hx : SoundExecution s x) : memoryOk (complete slot x) :=
  memoryOk_congr (hx.writes.induct (fun _ _ => memoryOk_dataCommit) hl h) (by simp) (by simp)

/-- The only bytes a transaction stores are those of a word of BLK_IN or TR. -/
theorem memoryOk_perform {s : State} (t : Txn) (h : memoryOk s) : memoryOk (perform t s) := by
  rcases perform_effect t s with he | ⟨w, _, he⟩ | ⟨a, w, ha, hr, he⟩ | ⟨n, e, q, d, he⟩ <;> rw [he]
  · exact memoryOk_congr h rfl rfl
  · exact memoryOk_congr h rfl rfl
  · refine memoryOk_congr (memoryOk_store h fun b hb => ?_) rfl rfl
    obtain ⟨h1, h2⟩ := mem_cellAddrs_leCells.1 hb
    exact isDataByte_of_ram hr ha h1 h2
  · exact memoryOk_congr h rfl rfl

theorem memoryOk_afterHardReset (p : Params) (r : Nat) (es : List Event) : memoryOk (State.afterHardReset p r es) :=
  (encodedOk_afterHardReset p r es).1

/-- Settles O58: a completion stores what the checked writes of its meaning store, a transaction at most one word of
BLK_IN or TR, and the rise of `rst_n` empties the memory; the other turns leave it. -/
theorem stepKeepsTheMemoryForm : Obligations.StepKeepsTheMemoryForm := by
  intro s t h hstep
  have hl := legalBuild_of_step hstep
  have hev : ∀ es, memoryOk { s with events := es } := fun es => memoryOk_congr h rfl rfl
  rw [step_of_legal hl] at hstep
  rcases turn_cases hstep with ⟨l, es, _, _, hrun⟩ | ⟨x, es, _, _, _, _, rfl⟩ | ⟨x, es, _, _, _, rfl⟩ |
    ⟨x, _, _, _, rfl⟩ | ⟨es, _, rfl⟩ | ⟨es, _, rfl⟩ | ⟨es, rfl⟩
  · obtain ⟨slot, x, hx, hsound⟩ := runWord_sound l.cmd (s := { s with events := es }) hl
    rw [hrun, Host.Outcome.next.injEq] at hx
    rw [hx]
    exact memoryOk_complete (s := { s with events := es }) slot hl (hev es) hsound
  · exact memoryOk_congr h rfl rfl
  · exact memoryOk_perform x (hev es)
  · exact memoryOk_perform x (memoryOk_congr h rfl rfl)
  · exact memoryOk_congr h rfl rfl
  · exact memoryOk_afterHardReset _ _ _
  · exact hev es

end Sys2Proof.Machine
end

section
/-! PROOFS. The address map, in its own numbers (20_memory.md R65 to R71, 10_state.md R39): one rule per region of the
aperture, each with the target it maps to, and nothing mapped outside them. -/

namespace Sys2Proof.Machine
open Sys2Proof

/-! ### Registers and head words by offset -/

/-- The offset of a register (10_state.md section 2's table). -/
def Csr.offset : Csr → Nat
  | .id => 0x000
  | .version => 0x004
  | .param => 0x008
  | .slotsz => 0x00C
  | .ctrl => 0x010
  | .cfg => 0x014
  | .cmd => 0x018
  | .status => 0x01C
  | .errCause => 0x020
  | .errSlot => 0x024
  | .errCh => 0x028
  | .errPos => 0x02C
  | .errDataLo => 0x030
  | .errDataHi => 0x034
  | .irqEn => 0x038
  | .irqStatus => 0x03C
  | .lastCmd => 0x040

theorem Csr.ofOffset_eq_some {a : Nat} {r : Csr} : Csr.ofOffset a = some r ↔ a = Csr.offset r := by
  constructor
  · intro h
    unfold Csr.ofOffset at h
    split at h <;> cases h <;> rfl
  · rintro rfl
    cases r <;> rfl

theorem Csr.offset_le (r : Csr) : Csr.offset r ≤ 0x040 := by cases r <;> decide

/-- The registers leave no gap. -/
theorem Csr.exists_offset_eq {a : Nat} (ha : a % 4 = 0) (h : a ≤ 0x040) : ∃ r, a = Csr.offset r := by
  have hall : ∀ k ≤ 16, (Csr.ofOffset (4 * k)).isSome = true := by decide
  obtain ⟨r, hr⟩ := Option.isSome_iff_exists.1 (hall (a / 4) (by omega))
  exact ⟨r, by rw [← Csr.ofOffset_eq_some.1 hr]; omega⟩

/-- The offset of a head word from the start of its ENC sub-window (20_memory.md R70). -/
def HeadReg.offset : HeadReg → Nat
  | .dcLo => 0x0
  | .dcHi => 0x4
  | .tlen => 0x8
  | .ndist => 0xC

theorem HeadReg.ofOffset_eq_some {e : Nat} {r : HeadReg} : HeadReg.ofOffset e = some r ↔ e = HeadReg.offset r := by
  constructor
  · intro h
    unfold HeadReg.ofOffset at h
    split at h <;> cases h <;> rfl
  · rintro rfl
    cases r <;> rfl

theorem HeadReg.offset_le (r : HeadReg) : HeadReg.offset r ≤ 0xC := by cases r <;> decide

/-- The head words leave no gap. -/
theorem HeadReg.exists_offset_eq {e : Nat} (he : e % 4 = 0) (h : e < 0x10) : ∃ r, e = HeadReg.offset r := by
  have hall : ∀ k < 4, (HeadReg.ofOffset (4 * k)).isSome = true := by decide
  obtain ⟨r, hr⟩ := Option.isSome_iff_exists.1 (hall (e / 4) (by omega))
  exact ⟨r, by rw [← HeadReg.ofOffset_eq_some.1 hr]; omega⟩

/-! ### Windows and sub-windows -/

theorem windowOf_blkOut_bounds {p : Params} {a : Nat} (h : windowOf p a = some .blkOut) :
    0x020000 ≤ a ∧ a < 0x020000 + 3 * coefBytes p * p.nMax := by
  unfold windowOf at h
  split_ifs at h <;> simp_all [inRange_iff]

theorem windowOf_seq_bounds {p : Params} {a : Nat} (h : windowOf p a = some .seq) : 0x030000 ≤ a ∧ a < 0x036000 := by
  unfold windowOf at h
  split_ifs at h <;> simp_all [inRange_iff]

theorem windowOf_enc_bounds {p : Params} {a : Nat} (h : windowOf p a = some .enc) : 0x040000 ≤ a ∧ a < 0x04C000 := by
  unfold windowOf at h
  split_ifs at h <;> simp_all [inRange_iff]

/-- An address of a window of three sub-windows lies in one of them. -/
theorem exists_subWindow {base size a : Nat} (h1 : base ≤ a) (h2 : a < base + 3 * size) :
    ∃ c e, e < size ∧ a = base + size * Chan.idx c + e := by
  rcases Nat.lt_or_ge a (base + size) with h | h
  · exact ⟨.y, a - base, by omega, by simp only [Chan.idx]; omega⟩
  rcases Nat.lt_or_ge a (base + 2 * size) with h' | h'
  · exact ⟨.cr, a - (base + size), by omega, by simp only [Chan.idx]; omega⟩
  · exact ⟨.cb, a - (base + 2 * size), by omega, by simp only [Chan.idx]; omega⟩

theorem subChan_eq {size e : Nat} (c : Chan) (he : e < size) : subChan size (size * Chan.idx c + e) = c := by
  unfold subChan
  cases c with
  | y => exact if_pos (by simpa only [Chan.idx, Nat.mul_zero, Nat.zero_add] using he)
  | cr => rw [if_neg (by simp only [Chan.idx]; omega), if_pos (by simp only [Chan.idx]; omega)]
  | cb => rw [if_neg (by simp only [Chan.idx]; omega), if_neg (by simp only [Chan.idx]; omega)]

theorem targetOf_seq {p : Params} (h : legalBuild p = true) (c : Chan) {e : Nat} (he : e < 0x2000) :
    targetOf p (0x030000 + 0x2000 * Chan.idx c + e) = if e < coefBytes p * p.nMax then .rom else .unmapped := by
  have := Chan.idx_lt c
  rw [targetOf, windowOf_eq_seq h (by omega) (by omega)]
  dsimp only
  rw [show (0x030000 + 0x2000 * Chan.idx c + e - 0x030000) % 0x2000 = e by omega]

/-- Each channel's ENC sub-window has the same map. -/
theorem targetOf_enc {p : Params} (h : legalBuild p = true) (c : Chan) {e : Nat} (he : e < 0x4000) :
    targetOf p (encBase c + e) =
      if inRange 0x1000 (4 * cap p) e || inRange 0x2000 (coefBytes p * cap p) e then .rom
      else (HeadReg.ofOffset e).elim .unmapped (.head c) := by
  have := encBase_bounds c
  have hoff : encBase c + e - 0x040000 = 0x4000 * Chan.idx c + e := by
    unfold encBase
    omega
  have hmod : (0x4000 * Chan.idx c + e) % 0x4000 = e := by omega
  rw [targetOf, windowOf_eq_enc h (by omega) (by omega)]
  dsimp only
  rw [hoff, encTarget, subChan_eq c he, hmod]
  cases HeadReg.ofOffset e <;> rfl

/-! ### The map -/

/-- The address map: what stands where, region by region (20_memory.md R66 to R71). -/
inductive MapsTo (p : Params) : Nat → Target → Prop
  | blkIn {a : Nat} (h1 : 0x010000 ≤ a) (h2 : a < 0x010000 + 3 * coefBytes p * p.nMax) : MapsTo p a .ram
  | blkOut {a : Nat} (h1 : 0x020000 ≤ a) (h2 : a < 0x020000 + 3 * coefBytes p * p.nMax) : MapsTo p a .rom
  | seq {a : Nat} (c : Chan) (h1 : 0x030000 + 0x2000 * Chan.idx c ≤ a)
      (h2 : a < 0x030000 + 0x2000 * Chan.idx c + coefBytes p * p.nMax) : MapsTo p a .rom
  | tup {a : Nat} (c : Chan) (h1 : encBase c + 0x1000 ≤ a) (h2 : a < encBase c + 0x1000 + 4 * cap p) : MapsTo p a .rom
  | inv {a : Nat} (c : Chan) (h1 : encBase c + 0x2000 ≤ a) (h2 : a < encBase c + 0x2000 + coefBytes p * cap p) :
      MapsTo p a .rom
  | head (c : Chan) (r : HeadReg) : MapsTo p (encBase c + HeadReg.offset r) (.head c r)
  | tr {a : Nat} (h1 : 0x100000 ≤ a) (h2 : a < 0x100000 + p.nSlot * slotBytes p) : MapsTo p a .ram
  | csr (r : Csr) : MapsTo p (Csr.offset r) (.csr r)

theorem targetOf_of_mapsTo {p : Params} (h : legalBuild p = true) {a : Nat} {t : Target} (hm : MapsTo p a t) :
    targetOf p a = t := by
  have hsize := coefBytes_mul_nMax_le h
  have hcap := cap_lt h
  have hinv : coefBytes p * cap p ≤ coefBytes p * p.nMax := Nat.mul_le_mul_left _ (by omega)
  cases hm with
  | blkIn h1 h2 => exact targetOf_eq_ram.2 (.inl (windowOf_eq_blkIn.2 ⟨h1, h2⟩))
  | blkOut h1 h2 => rw [targetOf, windowOf_eq_blkOut h h1 h2]
  | seq c h1 h2 =>
    obtain ⟨e, rfl⟩ := Nat.exists_eq_add_of_le h1
    rw [targetOf_seq h c (by omega), if_pos (by omega)]
  | tup c h1 h2 =>
    obtain ⟨e, rfl⟩ := Nat.exists_eq_add_of_le (show encBase c ≤ a by omega)
    rw [targetOf_enc h c (by omega), if_pos]
    rw [Bool.or_eq_true, inRange_iff]
    omega
  | inv c h1 h2 =>
    obtain ⟨e, rfl⟩ := Nat.exists_eq_add_of_le (show encBase c ≤ a by omega)
    rw [targetOf_enc h c (by omega), if_pos]
    rw [Bool.or_eq_true, inRange_iff, inRange_iff]
    omega
  | head c r =>
    have := HeadReg.offset_le r
    rw [targetOf_enc h c (by omega), if_neg (by rw [Bool.or_eq_true, inRange_iff, inRange_iff]; omega),
      HeadReg.ofOffset_eq_some.2 rfl, Option.elim_some]
  | tr h1 h2 => exact targetOf_eq_ram.2 (.inr ((windowOf_eq_tr h).2 ⟨h1, h2⟩))
  | csr r =>
    have := Csr.offset_le r
    exact targetOf_csr (by omega) (Csr.ofOffset_eq_some.2 rfl)

theorem mapsTo_targetOf {p : Params} (h : legalBuild p = true) {a : Nat} (ha : targetOf p a ≠ .unmapped) :
    MapsTo p a (targetOf p a) := by
  cases hw : windowOf p a with
  | none =>
    cases hr : Csr.ofOffset a with
    | none => exact absurd (by rw [targetOf, hw, hr]) ha
    | some r =>
      rw [targetOf, hw, hr, Csr.ofOffset_eq_some.1 hr]
      exact .csr r
  | some w =>
    cases w with
    | blkIn =>
      obtain ⟨h1, h2⟩ := windowOf_eq_blkIn.1 hw
      rw [targetOf, hw]
      exact .blkIn h1 h2
    | blkOut =>
      obtain ⟨h1, h2⟩ := windowOf_blkOut_bounds hw
      rw [targetOf, hw]
      exact .blkOut h1 h2
    | seq =>
      obtain ⟨h1, h2⟩ := windowOf_seq_bounds hw
      obtain ⟨c, e, he, rfl⟩ := exists_subWindow (size := 0x2000) h1 h2
      rw [targetOf_seq h c he] at ha ⊢
      split_ifs at ha ⊢ with hin
      · exact .seq c (by omega) (by omega)
      · exact absurd rfl ha
    | enc =>
      obtain ⟨h1, h2⟩ := windowOf_enc_bounds hw
      obtain ⟨c, e, he, hae⟩ := exists_subWindow (size := 0x4000) h1 h2
      obtain rfl : a = encBase c + e := hae
      rw [targetOf_enc h c he] at ha ⊢
      split_ifs at ha ⊢ with hin
      · rw [Bool.or_eq_true, inRange_iff, inRange_iff] at hin
        rcases hin with hin | hin
        · exact .tup c (by omega) (by omega)
        · exact .inv c (by omega) (by omega)
      · cases hr : HeadReg.ofOffset e with
        | none => exact absurd (by rw [hr, Option.elim_none]) ha
        | some r =>
          rw [HeadReg.ofOffset_eq_some.1 hr]
          exact .head c r
    | tr =>
      obtain ⟨h1, h2⟩ := (windowOf_eq_tr h).1 hw
      rw [targetOf, hw]
      exact .tr h1 h2

/-- The map says exactly what each mapped address is. -/
theorem mapsTo_iff {p : Params} (h : legalBuild p = true) {a : Nat} {t : Target} :
    MapsTo p a t ↔ targetOf p a = t ∧ t ≠ .unmapped := by
  constructor
  · intro hm
    refine ⟨targetOf_of_mapsTo h hm, ?_⟩
    cases hm <;> simp
  · rintro ⟨rfl, ht⟩
    exact mapsTo_targetOf h ht

theorem targetOf_ram_iff {p : Params} (h : legalBuild p = true) {a : Nat} :
    targetOf p a = .ram ↔
      (0x010000 ≤ a ∧ a < 0x010000 + 3 * coefBytes p * p.nMax) ∨
        (0x100000 ≤ a ∧ a < 0x100000 + p.nSlot * slotBytes p) := by
  rw [targetOf_eq_ram, windowOf_eq_blkIn, windowOf_eq_tr h]

theorem targetOf_rom_iff {p : Params} (h : legalBuild p = true) {a : Nat} :
    targetOf p a = .rom ↔
      (0x020000 ≤ a ∧ a < 0x020000 + 3 * coefBytes p * p.nMax) ∨
        ∃ c : Chan,
          (0x030000 + 0x2000 * Chan.idx c ≤ a ∧ a < 0x030000 + 0x2000 * Chan.idx c + coefBytes p * p.nMax) ∨
          (encBase c + 0x1000 ≤ a ∧ a < encBase c + 0x1000 + 4 * cap p) ∨
          (encBase c + 0x2000 ≤ a ∧ a < encBase c + 0x2000 + coefBytes p * cap p) := by
  constructor
  · intro ht
    cases (mapsTo_iff h).2 ⟨ht, by simp⟩ with
    | blkOut h1 h2 => exact .inl ⟨h1, h2⟩
    | seq c h1 h2 => exact .inr ⟨c, .inl ⟨h1, h2⟩⟩
    | tup c h1 h2 => exact .inr ⟨c, .inr (.inl ⟨h1, h2⟩)⟩
    | inv c h1 h2 => exact .inr ⟨c, .inr (.inr ⟨h1, h2⟩)⟩
  · rintro (⟨h1, h2⟩ | ⟨c, ⟨h1, h2⟩ | ⟨h1, h2⟩ | ⟨h1, h2⟩⟩)
    · exact targetOf_of_mapsTo h (.blkOut h1 h2)
    · exact targetOf_of_mapsTo h (.seq c h1 h2)
    · exact targetOf_of_mapsTo h (.tup c h1 h2)
    · exact targetOf_of_mapsTo h (.inv c h1 h2)

theorem targetOf_head_iff {p : Params} (h : legalBuild p = true) {a : Nat} {c : Chan} {r : HeadReg} :
    targetOf p a = .head c r ↔ a = encBase c + HeadReg.offset r := by
  constructor
  · intro ht
    cases (mapsTo_iff h).2 ⟨ht, by simp⟩
    rfl
  · rintro rfl
    exact targetOf_of_mapsTo h (.head c r)

theorem targetOf_csr_iff {p : Params} (h : legalBuild p = true) {a : Nat} {r : Csr} :
    targetOf p a = .csr r ↔ a = Csr.offset r := by
  constructor
  · intro ht
    cases (mapsTo_iff h).2 ⟨ht, by simp⟩
    rfl
  · rintro rfl
    exact targetOf_of_mapsTo h (.csr r)

/-- The aligned addresses that are mapped at all. -/
theorem targetOf_mapped_iff {p : Params} (h : legalBuild p = true) {a : Nat} (ha : a % 4 = 0) :
    targetOf p a ≠ .unmapped ↔
      a ≤ 0x040 ∨
      (0x010000 ≤ a ∧ a < 0x010000 + 3 * coefBytes p * p.nMax) ∨
      (0x020000 ≤ a ∧ a < 0x020000 + 3 * coefBytes p * p.nMax) ∨
      (∃ c : Chan, 0x030000 + 0x2000 * Chan.idx c ≤ a ∧
        a < 0x030000 + 0x2000 * Chan.idx c + coefBytes p * p.nMax) ∨
      (∃ c : Chan, (encBase c ≤ a ∧ a < encBase c + 0x10) ∨
        (encBase c + 0x1000 ≤ a ∧ a < encBase c + 0x1000 + 4 * cap p) ∨
        (encBase c + 0x2000 ≤ a ∧ a < encBase c + 0x2000 + coefBytes p * cap p)) ∨
      (0x100000 ≤ a ∧ a < 0x100000 + p.nSlot * slotBytes p) := by
  constructor
  · intro ht
    generalize htt : targetOf p a = t at ht
    cases (mapsTo_iff h).2 ⟨htt, ht⟩ with
    | csr r => exact .inl (Csr.offset_le r)
    | blkIn h1 h2 => exact .inr (.inl ⟨h1, h2⟩)
    | blkOut h1 h2 => exact .inr (.inr (.inl ⟨h1, h2⟩))
    | seq c h1 h2 => exact .inr (.inr (.inr (.inl ⟨c, h1, h2⟩)))
    | head c r =>
      have := HeadReg.offset_le r
      exact .inr (.inr (.inr (.inr (.inl ⟨c, .inl ⟨by omega, by omega⟩⟩))))
    | tup c h1 h2 => exact .inr (.inr (.inr (.inr (.inl ⟨c, .inr (.inl ⟨h1, h2⟩)⟩))))
    | inv c h1 h2 => exact .inr (.inr (.inr (.inr (.inl ⟨c, .inr (.inr ⟨h1, h2⟩)⟩))))
    | tr h1 h2 => exact .inr (.inr (.inr (.inr (.inr ⟨h1, h2⟩))))
  · have hmap : ∀ {t}, MapsTo p a t → targetOf p a ≠ .unmapped := fun hm hu => by
      obtain ⟨ht, hne⟩ := (mapsTo_iff h).1 hm
      exact hne (ht.symm.trans hu)
    rintro (h1 | ⟨h1, h2⟩ | ⟨h1, h2⟩ | ⟨c, h1, h2⟩ | ⟨c, ⟨h1, h2⟩ | ⟨h1, h2⟩ | ⟨h1, h2⟩⟩ | ⟨h1, h2⟩)
    · obtain ⟨r, rfl⟩ := Csr.exists_offset_eq ha h1
      exact hmap (.csr r)
    · exact hmap (.blkIn h1 h2)
    · exact hmap (.blkOut h1 h2)
    · exact hmap (.seq c h1 h2)
    · obtain ⟨r, hr⟩ := HeadReg.exists_offset_eq (e := a - encBase c) (by unfold encBase; omega) (by omega)
      obtain rfl : a = encBase c + HeadReg.offset r := by omega
      exact hmap (.head c r)
    · exact hmap (.tup c h1 h2)
    · exact hmap (.inv c h1 h2)
    · exact hmap (.tr h1 h2)

/-- Settles O39: each kind of target stands exactly where the map has its region. -/
theorem mappedWordsAreTheAddressMap : Obligations.MappedWordsAreTheAddressMap := by
  refine ⟨fun p a h ha => ⟨targetOf_mapped_iff h ha, targetOf_ram_iff h, ?_, fun c r => ?_, fun r => ?_⟩, fun r => ?_⟩
  · have hbase : ∀ (c : Chan) (off : Nat), encBase c + off = 0x040000 + off + 0x4000 * Chan.idx c := fun c off => by
      unfold encBase
      omega
    rw [targetOf_rom_iff h]
    simp only [hbase, cap]
  · rw [targetOf_head_iff h, encBase]
    cases r <;> simp [HeadReg.offset] <;> omega
  · rw [targetOf_csr_iff h]
    cases r <;> simp [Csr.offset]
  · cases r <;> simp [Csr.access]

end Sys2Proof.Machine
end

section
/-! PROOFS. Transactions at the port: bus errors, what is held while a command runs, mapped reads, and host words in
BLK_IN and TR (20_memory.md R60 to R65, R75 to R77). -/

namespace Sys2Proof.Machine
open Sys2Proof

/-! ### Performed and held transactions -/

/-- A transaction that is offered and not held is performed by the step. -/
theorem step_offered_not_held {s : State} {t : Txn} {es : List Event} (h : offered s t es)
    (hb : s.busy = true → heldWhileBusy s.params t = false) : step s = .next (perform t { s with events := es }) := by
  rw [step_offered h, hostTurn_of_not_held (s := { s with events := es }) hb]

theorem step_offered_held {s : State} {t : Txn} {es : List Event} (h : offered s t es) (hb : s.busy = true)
    (hw : heldWhileBusy s.params t = true) : step s = .next { s with held := some t, events := es } := by
  have hcond : (State.busy { s with events := es } && heldWhileBusy s.params t) = true := by
    rw [hw, Bool.and_true]
    exact hb
  rw [step_offered h, hostTurn, if_pos hcond]

theorem misformed_iff {t : Txn} : Txn.misformed t = true ↔ Txn.addr t % 4 ≠ 0 ∨ Txn.strobes t ≠ 0xF := by
  simp [Txn.misformed]

theorem perform_read_wellFormed {a : BitVec 21} {b : BitVec 4} {s : State} (h : ¬Txn.misformed (.read a b) = true) :
    perform (.read a b) s = hostRead a.toNat s := if_neg h

theorem perform_write_wellFormed {a : BitVec 21} {w : Word} {b : BitVec 4} {s : State}
    (h : ¬Txn.misformed (.write a w b) = true) : perform (.write a w b) s = hostWrite a.toNat w s := if_neg h

/-! ### Bus errors -/

/-- A target that a write may not touch: read-only data memory, a head word, an RO register (20_memory.md R65). -/
theorem hostWrite_readOnly {a : Nat} {w : Word} {s : State}
    (h : targetOf s.params a = .rom ∨ (∃ c r, targetOf s.params a = .head c r) ∨
      ∃ r, targetOf s.params a = .csr r ∧ Csr.access r = .ro) : hostWrite a w s = busError s := by
  rcases h with h | ⟨c, r, h⟩ | ⟨r, h, hr⟩ <;> rw [hostWrite, h]
  exact if_pos hr

theorem perform_unmapped {t : Txn} {s : State} (h : targetOf s.params (Txn.addr t) = .unmapped) :
    perform t s = busError s := by
  by_cases hm : Txn.misformed t = true
  · exact perform_misformed hm
  · cases t with
    | read a b => rw [perform_read_wellFormed hm, hostRead, show targetOf s.params a.toNat = .unmapped from h]
    | write a w b => rw [perform_write_wellFormed hm, hostWrite, show targetOf s.params a.toNat = .unmapped from h]

theorem perform_write_readOnly {a : BitVec 21} {w : Word} {b : BitVec 4} {s : State}
    (h : targetOf s.params a.toNat = .rom ∨ (∃ c r, targetOf s.params a.toNat = .head c r) ∨
      ∃ r, targetOf s.params a.toNat = .csr r ∧ Csr.access r = .ro) : perform (.write a w b) s = busError s := by
  by_cases hm : Txn.misformed (.write a w b) = true
  · exact perform_misformed hm
  · rw [perform_write_wellFormed hm]
    exact hostWrite_readOnly h

/-- Settles O40: each of the four faults makes `perform` answer a bus error. -/
theorem busErrorSetsOnlyBerr : Obligations.BusErrorSetsOnlyBerr := by
  intro s t es h hb hfault
  rw [step_offered_not_held h hb]
  have hperform : perform t { s with events := es } = busError { s with events := es } := by
    rcases hfault with haddr | hstrobes | hunmapped | ⟨a, w, b, rfl, hro⟩
    · exact perform_misformed (misformed_iff.2 (.inl haddr))
    · exact perform_misformed (misformed_iff.2 (.inr hstrobes))
    · exact perform_unmapped hunmapped
    · exact perform_write_readOnly hro
  rw [hperform]
  rfl

/-! ### While a command runs -/

/-- On every build a register is mapped at its own offset alone. -/
theorem csrOffset_of_targetOf {p : Params} {a : Nat} {r : Csr} (h : targetOf p a = .csr r) : a = Csr.offset r := by
  have hw := windowOf_none_of_csr h
  rw [targetOf, hw] at h
  cases hr : Csr.ofOffset a with
  | none => simp [hr] at h
  | some r' =>
    rw [hr] at h
    cases h
    exact Csr.ofOffset_eq_some.1 hr

/-- A register write in a busy engine, but a CTRL write with SRST = 1, sets no more than CFG.LEN, IRQ_EN and
IRQ_STATUS. -/
theorem csrWrite_busy {r : Csr} {w : Word} {s : State} (hb : s.busy = true) (hs : r = .ctrl → srstBit w = false) :
    ∃ n e q, csrWrite r w s = { s with cfgLen := n, irqEn := e, irqStatus := q } := by
  rcases csrWrite_cases r w s with ⟨hr, h⟩ | ⟨n, h⟩ | ⟨_, h⟩ | ⟨e, h⟩ | ⟨q, h⟩ | h <;> rw [h]
  · rw [writeCtrl, hs hr]
    exact ⟨_, _, _, rfl⟩
  · exact ⟨_, _, _, rfl⟩
  · exact ⟨_, _, _, writeCmd_of_busy hb⟩
  · exact ⟨_, _, _, rfl⟩
  · exact ⟨_, _, _, rfl⟩
  · exact ⟨_, _, _, rfl⟩

/-- A transaction that a busy engine's port does not hold changes no more than CFG.LEN, the two interrupt registers and
the answer: no data window and no soft reset is left to it (20_memory.md R75). -/
theorem perform_busy {t : Txn} {s : State} (hb : s.busy = true) (hh : heldWhileBusy s.params t = false) :
    ∃ n e q d, perform t s = { s with cfgLen := n, irqEn := e, irqStatus := q, resp := d } := by
  obtain ⟨hwin, hsrst⟩ : (windowOf s.params (Txn.addr t)).isSome = false ∧ Txn.requestsSrst t = false :=
    Bool.or_eq_false_iff.1 hh
  by_cases hm : Txn.misformed t = true
  · exact ⟨_, _, _, _, perform_misformed hm⟩
  · cases t with
    | read a b =>
      rw [perform_read_wellFormed hm]
      rcases hostRead_cases a.toNat s with h | ⟨w, h⟩ <;> exact ⟨_, _, _, _, h⟩
    | write a w b =>
      rw [perform_write_wellFormed hm]
      rcases hostWrite_cases a.toNat w s with h | ⟨r, hr, h⟩ | ⟨hr, h⟩
      · exact ⟨_, _, _, _, h⟩
      · have hctrl : r = .ctrl → srstBit w = false := by
          rintro rfl
          simpa [Txn.requestsSrst, hm, show a.toNat = 0x010 from csrOffset_of_targetOf hr] using hsrst
        obtain ⟨n, e, q, hcsr⟩ := csrWrite_busy hb hctrl
        rw [hcsr] at h
        exact ⟨_, _, _, _, h⟩
      · rw [show Txn.addr (.write a w b) = a.toNat from rfl] at hwin
        rcases targetOf_eq_ram.1 hr with hw | hw <;> simp [hw] at hwin

theorem sameData_of_mem {s t : State} (hm : t.mem = s.mem) (hr : t.resets = s.resets) (he : t.enc = s.enc) :
    sameData s t := ⟨State.byte_congr hm hr, he⟩

/-- Settles O49: what is held only waits, and what is performed while a command runs leaves data and the latch alone. -/
theorem accessesAreHeldUntilCompletion : Obligations.AccessesAreHeldUntilCompletion := by
  refine ⟨fun s t es h hb => ⟨?_, step_offered_held h hb⟩, fun s t hl hr hh hidle hno => ?_⟩
  · cases hw : heldWhileBusy s.params t with
    | true => exact ⟨_, step_offered_held h hb hw, sameData_of_mem rfl rfl rfl, rfl⟩
    | false =>
      obtain ⟨n, e, q, d, hp⟩ := perform_busy (s := { s with events := es }) hb hw
      refine ⟨_, step_offered_not_held h fun _ => hw, ?_⟩
      rw [hp]
      exact ⟨sameData_of_mem rfl rfl rfl, rfl⟩
  · rw [step_of_legal hl, turn, if_pos hr, hh]
    dsimp only
    rw [heldTurn]
    split
    · next es hev => exact absurd hev (hno es)
    · rw [if_neg (by simp [hidle])]

/-! ### Mapped reads -/

/-- A read looks at no input. -/
theorem hostRead_withEvents (a : Nat) (s : State) (es : List Event) :
    hostRead a { s with events := es } = { hostRead a s with events := es } := by
  unfold hostRead
  dsimp only
  split
  · next r _ => cases r <;> rfl
  · rfl
  · rfl
  · next c r _ => cases r <;> rfl
  · rfl

theorem step_offered_read {s : State} {a : BitVec 21} {es : List Event} (h : offered s (.read a 0xF) es)
    (ha : a.toNat % 4 = 0) (hb : s.busy = true → heldWhileBusy s.params (.read a 0xF) = false) :
    step s = .next { hostRead a.toNat s with events := es } := by
  rw [step_offered_not_held h hb, perform_read ha, hostRead_withEvents]

/-- A word is what a read of a mapped address answers: the register's, the memory's or the head's. -/
structure AnswersTarget (s : State) (a : Nat) (w : Word) : Prop where
  csr : ∀ r, targetOf s.params a = .csr r → w = csrRead r s
  ram : targetOf s.params a = .ram → w = s.word a
  rom : targetOf s.params a = .rom → w = s.word a
  head : ∀ c r, targetOf s.params a = .head c r → w = headRead r c s

theorem hostRead_mapped {a : Nat} {s : State} (h : targetOf s.params a ≠ .unmapped) :
    ∃ w, hostRead a s = s.answer w ∧ AnswersTarget s a w := by
  unfold hostRead
  split
  · next r ht => exact ⟨_, rfl, by constructor <;> rw [ht] <;> simp⟩
  · next ht => exact ⟨_, rfl, by constructor <;> rw [ht] <;> simp⟩
  · next ht => exact ⟨_, rfl, by constructor <;> rw [ht] <;> simp⟩
  · next c r ht => exact ⟨_, rfl, by constructor <;> rw [ht] <;> simp⟩
  · next ht => exact absurd ht h

/-- What each register reads as, a number put together from its fields (10_state.md R22 to R38). -/
def csrNumber (s : State) : Csr → Nat
  | .id => 0x524C4543
  | .version => 0x00070100
  | .param => s.params.nMax + (if s.params.coef64 then 4096 else 0) + 65536 * s.params.nSlot
  | .slotsz => slotBytes s.params
  | .ctrl => 0
  | .cfg => s.cfgLen.toNat
  | .cmd => 0
  | .status => (if s.latch.isSome then 1 else 0) + if s.statusErr then 2 else 0
  | .errCause => s.err.cause.code.toNat
  | .errSlot => s.err.slot.toNat
  | .errCh => s.err.ch.toNat + 16 * s.err.mask.toNat
  | .errPos => s.err.pos.toNat
  | .errDataLo => s.err.lo.toNat
  | .errDataHi => s.err.hi.toNat
  | .irqEn => s.irqEn.toNat
  | .irqStatus => s.irqStatus.toNat
  | .lastCmd => s.lastCmd.toNat

theorem csrRead_toNat {s : State} (h : legalBuild s.params = true) (r : Csr) : (csrRead r s).toNat = csrNumber s r := by
  cases r with
  | param => exact paramWord_toNat h
  | slotsz => exact slotBytes_word_toNat h
  | status => exact s.status_toNat
  | errCh => exact errChWord_toNat s.err
  | cfg | errCause | errSlot | errPos | irqEn | irqStatus => exact BitVec.toNat_setWidth_of_le (by decide)
  | id | version | ctrl | cmd | errDataLo | errDataHi | lastCmd => rfl

/-- Every register but ERR_CAUSE, whose number the table of cause codes gives. -/
def numberedCsrs : List Csr :=
  [.id, .version, .param, .slotsz, .ctrl, .cfg, .cmd, .status, .errSlot, .errCh, .errPos, .errDataLo, .errDataHi, .irqEn,
    .irqStatus, .lastCmd]

theorem registerReads_of_answers {s : State} {a : Nat} {w : Word} (h : legalBuild s.params = true)
    (hw : AnswersTarget s a w) : registerReads s a w.toNat := by
  have hcsr : ∀ r, a = Csr.offset r → w.toNat = csrNumber s r := fun r hr => by
    rw [hw.csr r ((targetOf_csr_iff h).2 hr), csrRead_toNat h]
  refine ⟨fun off v hm ha => ?_, fun v hm ha => ?_⟩
  · have hm' : (off, v) ∈ numberedCsrs.map fun r => (Csr.offset r, csrNumber s r) := hm
    obtain ⟨r, _, hr⟩ := List.mem_map.1 hm'
    cases hr
    exact hcsr r ha
  · rw [mem_causeCodes.1 hm]
    exact hcsr .errCause ha

/-- The words of an element that stands in memory (20_memory.md R62). -/
theorem coefReads_of_word {s : State} {a addr w : Nat}
    (h : addr ≤ a → a < addr + coefBytes s.params → w = (s.word a).toNat) : coefReads s.params a w addr (s.coef addr) := by
  refine ⟨?_, fun h64 => ?_⟩
  · rintro rfl
    rw [h le_rfl (Nat.lt_add_of_pos_right (coefBytes_pos _)), State.word_eq_coef_lo]
  · rintro rfl
    have hb : coefBytes s.params = 8 := by rw [coefBytes, if_pos h64]
    rw [h (by omega) (by omega), s.word_eq_coef_hi addr h64]

/-- Nothing but TR is mapped from 0x100000 on. -/
theorem targetOf_high {p : Params} (h : legalBuild p = true) {a : Nat} (ha : 0x100000 ≤ a)
    (ht : targetOf p a ≠ .unmapped) : targetOf p a = .ram := by
  have hsize := coefBytes_mul_nMax_le h
  have hcap := cap_lt h
  have hinv : coefBytes p * cap p ≤ coefBytes p * p.nMax := Nat.mul_le_mul_left _ (by omega)
  generalize htt : targetOf p a = t at ht
  cases (mapsTo_iff h).2 ⟨htt, ht⟩ with
  | blkIn h1 h2 => rfl
  | tr h1 h2 => rfl
  | blkOut h1 h2 => omega
  | csr r =>
    have := Csr.offset_le r
    omega
  | seq c h1 h2 =>
    have := Chan.idx_lt c
    omega
  | tup c h1 h2 | inv c h1 h2 =>
    have := encBase_bounds c
    omega
  | head c r =>
    have := encBase_bounds c
    have := HeadReg.offset_le r
    omega

theorem State.word_bytes (s : State) (a : Nat) :
    (s.word a).toNat = (s.byte a).toNat + 256 * (s.byte (a + 1)).toNat + 65536 * (s.byte (a + 2)).toNat +
      16777216 * (s.byte (a + 3)).toNat := by
  rw [State.word_toNat]
  simp only [State.readLE, Nat.add_assoc, Nat.reduceAdd]
  omega

theorem windowReads_of_answers {s : State} {a : Nat} {w : Word} (h : legalBuild s.params = true)
    (ht : targetOf s.params a ≠ .unmapped) (hw : AnswersTarget s a w) : windowReads s a w.toNat := by
  have hram : MapsTo s.params a .ram → w.toNat = (s.word a).toNat := fun hm => by
    rw [hw.ram (targetOf_of_mapsTo h hm)]
  have hrom : MapsTo s.params a .rom → w.toNat = (s.word a).toNat := fun hm => by
    rw [hw.rom (targetOf_of_mapsTo h hm)]
  have hhead : ∀ c r, a = encBase c + HeadReg.offset r → w.toNat = (headRead r c s).toNat := fun c r hr => by
    rw [hw.head c r ((targetOf_head_iff h).2 hr)]
  refine ⟨fun c i hi => ⟨?_, ?_, ?_⟩, fun c => ⟨fun ha => ?_, fun ha => ?_, fun ha => ?_, fun ha => ?_⟩,
    fun c k hk => ⟨fun ha => ?_, ?_⟩, fun ha => ?_⟩
  · have := blkInAddr_bounds (c := c) h hi
    exact coefReads_of_word (addr := blkInAddr s.params c i) fun h1 h2 => hram (.blkIn (by omega) (by omega))
  · have := blkOutAddr_bounds (c := c) h hi
    exact coefReads_of_word (addr := blkOutAddr s.params c i) fun h1 h2 => hrom (.blkOut (by omega) (by omega))
  · have := seqAddr_bounds (c := c) h hi
    exact coefReads_of_word (addr := seqAddr s.params c i) fun h1 h2 => hrom (.seq c (by omega) (by omega))
  · rw [hhead c .dcLo (by rw [ha, encBase, HeadReg.offset, Nat.add_zero]), headRead, coefLo_toNat]
  · rw [hhead c .dcHi (by rw [ha, encBase, HeadReg.offset]; omega), headRead, coefHi_toNat]
  · rw [hhead c .tlen (by rw [ha, encBase, HeadReg.offset]; omega), headRead, BitVec.toNat_setWidth_of_le (by decide)]
  · rw [hhead c .ndist (by rw [ha, encBase, HeadReg.offset]; omega), headRead, BitVec.toNat_setWidth_of_le (by decide)]
  · obtain rfl : a = tupAddr c k := by
      rw [ha, tupAddr, encBase]
      omega
    have := tupAddr_bounds (c := c) h hk
    rw [hrom (.tup c (by omega) (by omega)), s.word_eq_halves]
    rfl
  · have := invAddr_bounds (c := c) h hk
    have haddr : 0x042000 + 0x4000 * Chan.idx c + coefBytes s.params * k = invAddr s.params c k := by
      rw [invAddr, encBase]
      omega
    rw [haddr]
    exact coefReads_of_word fun h1 h2 => hrom (.inv c (by omega) (by omega))
  · rw [hw.ram (targetOf_high h ha ht), s.word_bytes]

/-- Settles O41: a mapped read changes its answer alone, and the answer is what the address's target holds. -/
theorem mappedReadsHaveNoSideEffect : Obligations.MappedReadsHaveNoSideEffect := by
  intro s a es h ha hmapped hwin
  obtain ⟨w, hread, hw⟩ := hostRead_mapped hmapped
  have hb : s.busy = true → heldWhileBusy s.params (.read a 0xF) = false := fun hb => by
    simp [heldWhileBusy, Txn.addr, Txn.requestsSrst, hwin hb]
  refine ⟨w, ?_, registerReads_of_answers h.1 hw, windowReads_of_answers h.1 hmapped hw⟩
  rw [step_offered_read h ha hb, hread]
  rfl

/-! ### Host words in BLK_IN and TR -/

/-- The bytes of a stored field, little-endian (20_memory.md R61). -/
theorem State.byte_store_leCells (s : State) (a n v : Nat) {j : Nat} (hj : j < n) :
    (s.store (leCells a n v)).byte (a + j) = BitVec.ofNat 8 (v / 256 ^ j) := by
  induction n generalizing s a v j with
  | zero => omega
  | succ n ih =>
    cases j with
    | zero =>
      have hlater : a ∉ cellAddrs (leCells (a + 1) n (v / 256)) := by
        rw [mem_cellAddrs_leCells]
        omega
      rw [pow_zero, Nat.div_one]
      exact s.byte_store_of_last [] _ a (BitVec.ofNat 8 v) hlater
    | succ j =>
      have hrest := ih (s.store [(a, BitVec.ofNat 8 v)]) (a + 1) (v / 256) (j := j) (by omega)
      rw [Nat.div_div_eq_div_mul, ← pow_succ', show a + 1 + j = a + (j + 1) by omega] at hrest
      exact hrest

theorem State.word_store_leCells (s : State) (a : Nat) (w : Word) : (s.store (leCells a 4 w.toNat)).word a = w := by
  have h := s.readLE_store [] [] a 4 w.toNat (by simp)
  rw [List.nil_append, List.append_nil] at h
  refine BitVec.eq_of_toNat_eq ?_
  rw [State.word_toNat, h]
  exact Nat.mod_eq_of_lt w.isLt

theorem hostRead_ram {a : Nat} {s : State} (h : targetOf s.params a = .ram) : hostRead a s = s.answer (s.word a) := by
  rw [hostRead, h]

/-- An idle engine's port holds nothing. -/
theorem not_held_of_idle {s : State} {t : Txn} (h : s.busy = false) : s.busy = true → heldWhileBusy s.params t = false :=
  fun hb => absurd (h.symm.trans hb) Bool.false_ne_true

theorem step_offered_ram_write {s : State} {a : BitVec 21} {w : Word} {es : List Event}
    (h : offered s (.write a w 0xF) es) (hidle : s.busy = false) (ha : a.toNat % 4 = 0)
    (hram : targetOf s.params a.toNat = .ram) :
    step s = .next ((State.store { s with events := es } (leCells a.toNat 4 w.toNat)).answer 0) := by
  rw [step_offered_not_held h (not_held_of_idle hidle), perform_write ha,
    hostWrite_ram (s := { s with events := es }) hram]

theorem step_offered_ram_read {s : State} {a : BitVec 21} {es : List Event} (h : offered s (.read a 0xF) es)
    (hidle : s.busy = false) (ha : a.toNat % 4 = 0) (hram : targetOf s.params a.toNat = .ram) :
    step s = .next (State.answer { s with events := es } (s.word a.toNat)) := by
  rw [step_offered_read h ha (not_held_of_idle hidle), hostRead_ram hram]
  rfl

/-- Settles O43: the write stores the word's four bytes, and the read behind it puts them together again. -/
theorem hostWritesAreReadBack : Obligations.HostWritesAreReadBack := by
  intro s a w es h hidle ha hram
  have hwrite := step_offered_ram_write h hidle ha hram
  obtain ⟨hl, hr, hheld, _⟩ := h
  have hread := step_offered_ram_read (es := es)
    (s := (State.store { s with events := .host (.read a 0xF) :: es } (leCells a.toNat 4 w.toNat)).answer 0)
    ⟨hl, hr, hheld, rfl⟩ hidle ha hram
  refine ⟨_, _, hwrite, hread, fun j hj => State.byte_store_leCells _ _ _ _ hj, fun b hb => ?_, rfl, ?_⟩
  · exact State.byte_store_of_not_mem s _ b (by rwa [mem_cellAddrs_leCells])
  · exact congrArg (fun d => State.answer _ d) (s.word_store_leCells a.toNat w)

end Sys2Proof.Machine
end

section
/-! PROOFS. The command word (30_encoding.md R100 to R109): a word is its four fields, a command is its OP, CH and SLOT,
and decoding reads the one from the other. -/

namespace Sys2Proof
open Sys2Proof.Laws

/-! ### The fields of a word (R100) -/

@[simp] theorem opField_toNat (w : Word) : (opField w).toNat = w.toNat % 16 := by
  simp [opField]

@[simp] theorem chField_toNat (w : Word) : (chField w).toNat = w.toNat / 16 % 4 := by
  simp [chField, Nat.shiftRight_eq_div_pow]

@[simp] theorem rsvField_toNat (w : Word) : (rsvField w).toNat = w.toNat / 64 % 1024 := by
  simp [rsvField, Nat.shiftRight_eq_div_pow]

@[simp] theorem slotField_toNat (w : Word) : (slotField w).toNat = w.toNat / 65536 := by
  have h := w.isLt
  simp only [slotField, BitVec.extractLsb'_toNat, Nat.shiftRight_eq_div_pow]
  omega

theorem assemble_fields_toNat (slot : Half) (rsv : BitVec 10) (ch : BitVec 2) (op : BitVec 4) :
    (assemble slot rsv ch op).toNat = slot.toNat * 65536 + rsv.toNat * 64 + ch.toNat * 16 + op.toNat := by
  simp only [assemble, toNat_append_eq]
  omega

/-- A word is put together from its fields, and from no others. -/
theorem eq_assemble_iff {w : Word} {slot : Half} {rsv : BitVec 10} {ch : BitVec 2} {op : BitVec 4} :
    w = assemble slot rsv ch op ↔ slotField w = slot ∧ rsvField w = rsv ∧ chField w = ch ∧ opField w = op := by
  have hrsv := rsv.isLt
  have hch := ch.isLt
  have hop := op.isLt
  simp only [← BitVec.toNat_inj, assemble_fields_toNat, slotField_toNat, rsvField_toNat, chField_toNat, opField_toNat]
  omega

/-! ### The fields of a command (R101 to R104) -/

/-- A command's word holds its SLOT, RSV = 0, its CH and its OP. -/
theorem encode_eq_assemble (i : Instr) :
    encode i = assemble (slotBits i) 0 (channelBits i) (BitVec.ofNat 4 (opcode i)) := by
  cases i <;> rfl

/-! ### Decoding the fields -/

theorem withoutChannel_eq_ok {ch : BitVec 2} {i j : Instr} : withoutChannel ch i = .ok j ↔ ch = 0 ∧ i = j := by
  unfold withoutChannel
  split <;> simp_all

theorem withoutChannel_refuses {ch : BitVec 2} {i : Instr} : (∃ e, withoutChannel ch i = .error e) ↔ ch ≠ 0 := by
  unfold withoutChannel
  split <;> simp_all

/-- The OP, CH and SLOT of a command decode to it, and no others do. -/
theorem decodeOp_eq_ok {op : BitVec 4} {ch : BitVec 2} {slot : Half} {i : Instr} :
    decodeOp op ch slot = .ok i ↔ slot = slotBits i ∧ ch = channelBits i ∧ op = BitVec.ofNat 4 (opcode i) := by
  constructor
  · intro h
    unfold decodeOp at h
    split at h
    case h_1 hop | h_6 hop | h_7 hop | h_9 hop =>
      obtain ⟨rfl, rfl⟩ := withoutChannel_eq_ok.1 h
      exact ⟨rfl, rfl, BitVec.eq_of_toNat_eq hop⟩
    case h_2 hop | h_3 hop | h_4 hop | h_5 hop | h_8 hop =>
      cases h
      exact ⟨rfl, rfl, BitVec.eq_of_toNat_eq hop⟩
    case h_10 => cases h
  · rintro ⟨rfl, rfl, rfl⟩
    cases i <;> rfl

/-- The refused fields: a reserved OP, and CH ≠ 0 on a non-channel command (R105, R106). -/
theorem decodeOp_refuses {op : BitVec 4} {ch : BitVec 2} {slot : Half} :
    (∃ e, decodeOp op ch slot = .error e) ↔ 9 ≤ op.toNat ∨ (op.toNat ∈ [0x0, 0x5, 0x6, 0x8] ∧ ch ≠ 0) := by
  unfold decodeOp
  split
  case h_1 hop | h_6 hop | h_7 hop | h_9 hop => simp [hop, withoutChannel_refuses]
  case h_2 hop | h_3 hop | h_4 hop | h_5 hop | h_8 hop => simp [hop]
  case h_10 =>
    refine iff_of_true ⟨_, rfl⟩ (.inl ?_)
    simp only [imp_false] at *
    omega

/-! ### Decoding a word (R108) -/

/-- Decoding and encoding are inverse to each other. -/
theorem decode_eq_ok_iff {w : Word} {i : Instr} : decode w = .ok i ↔ w = encode i := by
  rw [encode_eq_assemble, eq_assemble_iff, decode]
  split
  · next h => simp only [decodeOp_eq_ok, h, true_and]
  · next h => simp only [h, false_and, and_false, reduceCtorEq]

/-- Settles O1: a command's word decodes to it. -/
theorem decodeOfEncodeIsTheCommand : Obligations.DecodeOfEncodeIsTheCommand := fun _ =>
  decode_eq_ok_iff.2 rfl

/-- Settles O2: what decodes to a command is its word. -/
theorem decodedWordIsItsEncoding : Obligations.DecodedWordIsItsEncoding := fun _ _ h =>
  (decode_eq_ok_iff.1 h).symm

/-- Settles O3: a word is refused for its RSV, or for its OP and CH. -/
theorem decodeRefusesExactlyTheIllegalWords : Obligations.DecodeRefusesExactlyTheIllegalWords := by
  intro w
  have hrsv : rsvField w = 0 ↔ w.toNat / 64 % 1024 = 0 := by rw [← BitVec.toNat_inj, rsvField_toNat]; rfl
  have hch : chField w = 0 ↔ w.toNat / 16 % 4 = 0 := by rw [← BitVec.toNat_inj, chField_toNat]; rfl
  unfold decode
  split
  · next h => simp only [decodeOp_refuses, opField_toNat, ne_eq, hch, hrsv.1 h, not_true_eq_false, false_or]
  · next h => simp [mt hrsv.2 h]

/-- Settles O4: each word is its command's. -/
theorem writtenWordsDecode : Obligations.WrittenWordsDecode := by
  simp only [Obligations.WrittenWordsDecode, decode_eq_ok_iff]
  decide

end Sys2Proof
end

section
/-! PROOFS. The engine's turn (30_encoding.md R107, 70_reset_and_hazards.md R247): at each place of the input where it
comes, the step runs the latched word. -/

namespace Sys2Proof.Machine
open Sys2Proof

theorem runWord_of_decode {w : Word} {i : Instr} (h : decode w = .ok i) (s : State) : runWord w s = exec i s := by
  rw [runWord, h]

theorem engineTurn_of_latch {s : State} {l : Latch} (h : s.latch = some l) : engineTurn s = runWord l.cmd s := by
  rw [engineTurn, h]

/-- With no input left, the engine has the turn. -/
theorem takeEvent_nil {s : State} (h : s.events = []) : takeEvent s = engineTurn s := by
  rw [takeEvent, h]

/-- The engine's turn is an input that is used up. -/
theorem takeEvent_engine {s : State} {es : List Event} (h : s.events = .engine :: es) :
    takeEvent s = engineTurn { s with events := es } := by
  rw [takeEvent, h]

/-- In a shared clock cycle with the engine first, the transaction is the next input. -/
theorem takeEvent_sameCycle_engine {s : State} {t : Txn} {first : Bool} {es : List Event}
    (h : s.events = .sameCycle t first :: es) (hf : hostComesFirst t first = false) :
    takeEvent s = engineTurn { s with events := .host t :: es } := by
  rw [takeEvent, h]
  exact if_neg (by simp [hf])

/-- A held transaction waits for the running command, unless `rst_n` falls. -/
theorem step_held_busy {s : State} {t : Txn} (hl : legalBuild s.params = true) (hr : s.rstN = true)
    (hh : s.held = some t) (hn : noReset s.events) (hb : s.busy = true) : step s = engineTurn s := by
  rw [step_of_legal hl, turn, if_pos hr, hh]
  dsimp only
  unfold heldTurn
  split
  · next es he => exact absurd he (hn es)
  · exact if_pos hb

/-- Settles O5: wherever the step is the engine's turn, it is `exec` of what the latched word decodes to. -/
theorem stepRunsTheDecodedCommand : Obligations.StepRunsTheDecodedCommand := by
  intro s l i hl hr hlatch hdec
  have hengine : ∀ es, engineTurn { s with events := es } = exec i { s with events := es } := fun es =>
    (engineTurn_of_latch (s := { s with events := es }) hlatch).trans (runWord_of_decode hdec _)
  have htake := step_eq_takeEvent hl hr
  refine ⟨fun hh hev => ?_, fun es hh hev => ?_, fun t hh hn => ?_, fun t es hh hev ht => ?_⟩
  · exact (htake hh).trans ((takeEvent_nil hev).trans (hengine s.events))
  · exact (htake hh).trans ((takeEvent_engine hev).trans (hengine es))
  · exact (step_held_busy hl hr hh hn (State.busy_of_latch hlatch)).trans (hengine s.events)
  · exact (htake hh).trans ((takeEvent_sameCycle_engine hev ht).trans (hengine (.host t :: es)))

/-- Every completion sets DONE. -/
theorem complete_sets_done (slot : Half) (x : Execution) : (complete slot x).irqStatus &&& irqDone = irqDone := by
  have hdone : ∀ b : BitVec 4, (b ||| irqDone) &&& irqDone = irqDone := by decide
  rw [complete_irqStatus]
  exact hdone _

/-- Settles O55: the step is the engine's turn, and every word completes. -/
theorem runningCommandCompletes : Obligations.RunningCommandCompletes := by
  intro s hl hr hh hev hb
  obtain ⟨l, hlatch⟩ := State.busy_eq_true.1 hb
  obtain ⟨slot, x, hx, _⟩ := runWord_completes l.cmd s
  have hstep : step s = .next (complete slot x) := by
    rw [step_eq_takeEvent hl hr hh, takeEvent_nil hev, engineTurn_of_latch hlatch, hx]
  exact ⟨_, hstep, State.busy_eq_false.2 (complete_latch slot x), complete_sets_done slot x⟩

end Sys2Proof.Machine
end

section
/-! PROOFS. The Channel Extractor (40_extract.md): the negative-zero normalisation (R120), and what EXTRACT stores and
leaves unchanged (R121, 30_encoding.md R111). -/

namespace Sys2Proof.Machine
open Sys2Proof

/-! ### The normalisation (R120) -/

/-- NEGZERO is the sign bit alone, the highest bit of a coefficient. -/
theorem negZero_toNat (p : Params) : (negZero p).toNat = 2 ^ (coefW p - 1) := by
  unfold negZero coefW
  cases p.coef64 with
  | false => decide
  | true => decide

@[simp] theorem norm_negZero (p : Params) : norm p (negZero p) = 0 := if_pos rfl

theorem norm_of_ne_negZero {p : Params} {v : Coef} (h : v ≠ negZero p) : norm p v = v := if_neg h

/-- Settles O26: NEGZERO is the sign bit, and the two branches of `norm` are the rest of the claim. -/
theorem normalisationChangesOnlyNegativeZero : Obligations.NormalisationChangesOnlyNegativeZero :=
  fun p _ => ⟨negZero_toNat p, norm_negZero p, norm_of_ne_negZero⟩

/-! ### EXTRACT (R121) -/

/-- With LEN legal, EXTRACT completes its commit. -/
theorem exec_extract_of_running {s : State} {n : Nat} (c : Chan) (tag : Half) (h : runningWithLen s n) :
    exec (.extract (Chan.field c) tag) s = .next (complete tag (commit (commitExtract c n s))) := by
  change execExtract (Chan.field c) tag s = _
  rw [execExtract, withChannel_field, withLen_of_running h]

/-- Completion leaves SEQ as the execution wrote it. -/
@[simp] theorem State.seq_complete (slot : Half) (x : Execution) (c : Chan) (i : Nat) :
    (complete slot x).seq c i = x.after.seq c i := by
  obtain ⟨_, _, hseq, _⟩ := State.elements_congr (complete_params slot x) (State.byte_complete slot x) c i
  exact hseq

/-- Settles O7: EXTRACT completes its commit, which stores the normalised lane and keeps the heads and every other
byte. -/
theorem extractCopiesTheNormalisedLane : Obligations.ExtractCopiesTheNormalisedLane := by
  intro s n c tag h
  refine ⟨_, exec_extract_of_running c tag h, completedOk_commit tag (onlyData_commitExtract c n s), ?_,
    fun i hi => ?_, fun a ha => ?_⟩
  · exact complete_enc tag _
  · exact (State.seq_complete tag _ c i).trans (seq_commitExtract hi)
  · exact (State.byte_complete tag _ a).trans (byte_commitExtract ha)

end Sys2Proof.Machine
end

section
/-! PROOFS. The Frequency Table Builder (41_freq_table.md): the order key (R131), the canonical order (R132), and the table
that BUILD_TABLE stores (R133), whose forward and inverse readings are a bijection (R135). -/

namespace Sys2Proof.Machine
open Sys2Proof

/-! ### The order key (R131) -/

/-- With the sign clear the key sets the sign bit. -/
theorem key_of_sign_clear {p : Params} {v : Coef} (h : v.toNat < 2 ^ (coefW p - 1)) :
    key p v = v.toNat + 2 ^ (coefW p - 1) := by
  have hw := coefW_pos p
  rw [key_eq p (by omega), if_pos h]

/-- With the sign set the key is the complement. -/
theorem key_of_sign_set {p : Params} {v : Coef} (hv : v.toNat < 2 ^ coefW p) (h : 2 ^ (coefW p - 1) ≤ v.toNat) :
    key p v = 2 ^ coefW p - 1 - v.toNat := by
  rw [key_eq p hv, if_neg (not_lt.2 h)]

/-- Settles O27: the key of a clear sign lies in the upper half and rises with the pattern; that of a set sign lies in the
lower half and falls. -/
theorem keyIsATotalOrderKey : Obligations.KeyIsATotalOrderKey := by
  intro p u v hu hv
  have hw := coefW_pos p
  refine ⟨key_lt p hu, key_inj p hu hv, fun huc hvs => ?_, fun huv hvc => ?_, fun hus huv => ?_⟩
  · rw [key_of_sign_clear huc, key_of_sign_set hv hvs]
    omega
  · rw [key_of_sign_clear (huv.trans hvc), key_of_sign_clear hvc]
    omega
  · rw [key_of_sign_set hu hus, key_of_sign_set hv (hus.trans huv.le)]
    omega

/-! ### The canonical order (R132) -/

theorem canonBefore_trans {p : Params} {ac : List Coef} {u v w : Coef} (huv : canonBefore p ac u v = true)
    (hvw : canonBefore p ac v w = true) : canonBefore p ac u w = true := by
  rw [canonBefore_iff] at huv hvw ⊢
  omega

/-- Two patterns that occur equally often are told apart by their keys. -/
theorem canonBefore_total {p : Params} {ac : List Coef} {u v : Coef} (hu : u.toNat < 2 ^ coefW p)
    (hv : v.toNat < 2 ^ coefW p) (hne : u ≠ v) : canonBefore p ac u v = true ∨ canonBefore p ac v u = true := by
  have hkey : key p u ≠ key p v := fun he => hne (key_inj p hu hv he)
  rw [canonBefore_iff, canonBefore_iff]
  omega

/-- Settles O28: `before` is a strict order, total on patterns in width, so the sort by it is the only one. -/
theorem canonicalOrderIsTheSortByCountThenKey : Obligations.CanonicalOrderIsTheSortByCountThenKey :=
  fun p _ h => ⟨fun _ _ => canonBefore_iff, canonBefore_irrefl, fun _ _ _ => canonBefore_trans,
    fun u hu v hv => canonBefore_total (h u hu) (h v hv), fun _ => mem_canonOrder, canonOrder_pairwise p h,
    fun _ => canonOrder_unique p h⟩

/-! ### A table of values (10_state.md R43, R44) -/

/-- The Frequency Table of channel c is the list: INV[c] holds its values, and NDIST[c] is their number. -/
structure HoldsTable (c : Chan) (s : State) (l : List Coef) : Prop where
  ndist : (s.head c).ndist.toNat = l.length
  inv : ∀ k v, l[k]? = some v → s.inv c k = v

/-- In a table without repetition, FWD answers the place of the value. -/
theorem HoldsTable.fwd_eq_some_iff {c : Chan} {s : State} {l : List Coef} (h : HoldsTable c s l) (hl : l.Nodup)
    {v : Coef} {k : Nat} : s.fwd c v = some k ↔ l[k]? = some v := by
  have hinv : ∀ j (hj : j < l.length), s.inv c j = l[j] := fun j hj => h.inv j _ (List.getElem?_eq_getElem hj)
  rw [fwd_eq_some, h.ndist, List.getElem?_eq_some_iff]
  constructor
  · rintro ⟨hk, hv, _⟩
    exact ⟨hk, (hinv k hk).symm.trans hv⟩
  · rintro ⟨hk, rfl⟩
    refine ⟨hk, hinv k hk, fun j hj he => ?_⟩
    rw [hinv j (hj.trans hk)] at he
    exact hj.ne (hl.getElem_inj_iff.1 he)

/-! ### BUILD_TABLE (R133) -/

/-- With LEN legal, BUILD_TABLE completes its commit. -/
theorem exec_buildTable_of_running {s : State} {n : Nat} (c : Chan) (tag : Half) (h : runningWithLen s n) :
    exec (.buildTable (Chan.field c) tag) s = .next (complete tag (commit (commitBuildTable c n s))) := by
  change execBuildTable (Chan.field c) tag s = _
  rw [execBuildTable, withChannel_field, withLen_of_running h]

/-- Completion leaves the heads as the execution wrote them. -/
@[simp] theorem State.head_complete (slot : Half) (x : Execution) (c : Chan) : (complete slot x).head c = x.after.head c :=
  State.head_congr (complete_enc slot x) c

/-- Completion leaves INV as the execution wrote it. -/
@[simp] theorem State.inv_complete (slot : Half) (x : Execution) (c : Chan) (k : Nat) :
    (complete slot x).inv c k = x.after.inv c k := by
  obtain ⟨_, _, _, hinv, _⟩ := State.elements_congr (complete_params slot x) (State.byte_complete slot x) c k
  exact hinv

/-- BUILD_TABLE's commit keeps DC and TLEN of its channel. -/
theorem head_commitBuildTable_self (s : State) (c : Chan) (n : Nat) :
    (commitBuildTable c n s).head c =
      { s.head c with ndist := BitVec.ofNat 16 (canonOrder s.params (s.acSeq c n)).length } :=
  (head_commitBuildTable s c c n).trans (if_pos rfl)

/-- BUILD_TABLE's commit leaves the canonical order as the table. -/
theorem holdsTable_commitBuildTable {s : State} {c : Chan} {n : Nat} (hl : legalBuild s.params = true)
    (hn : n ≤ s.params.nMax) : HoldsTable c (commitBuildTable c n s) (canonOrder s.params (s.acSeq c n)) := by
  refine ⟨?_, fun _ _ => inv_commitBuildTable⟩
  rw [head_commitBuildTable_self]
  exact toNat_ofNat_of_le_cap hl ((table_length_le s c n).trans (pred_le_cap hn))

/-- Completion leaves the tables as the execution wrote them. -/
theorem holdsTable_complete {c : Chan} {x : Execution} {l : List Coef} (slot : Half) (h : HoldsTable c x.after l) :
    HoldsTable c (complete slot x) l :=
  ⟨by rw [State.head_complete]; exact h.ndist, fun k v hv => by rw [State.inv_complete]; exact h.inv k v hv⟩

/-- With LEN legal, BUILD_TABLE completes with the canonical order as the table. -/
theorem holdsTable_of_buildTable {s : State} {n : Nat} (c : Chan) (tag : Half) (h : runningWithLen s n) :
    HoldsTable c (complete tag (commit (commitBuildTable c n s))) (canonOrder s.params (s.acSeq c n)) := by
  obtain ⟨hl, _, _, hn⟩ := h
  exact holdsTable_complete (x := commit (commitBuildTable c n s)) tag (holdsTable_commitBuildTable hl hn)

/-- Settles O8: BUILD_TABLE completes its commit, which stores the canonical order as the table and keeps the rest of the
heads and every other byte. -/
theorem buildTableStoresTheCanonicalOrder : Obligations.BuildTableStoresTheCanonicalOrder := by
  intro s n c tag h
  have htable := holdsTable_of_buildTable c tag h
  have hself := (State.head_complete tag (commit (commitBuildTable c n s)) c).trans (head_commitBuildTable_self s c n)
  refine ⟨_, exec_buildTable_of_running c tag h, completedOk_commit tag (onlyData_commitBuildTable c n s), htable.ndist,
    htable.ndist.trans_le (table_length_le s c n), ?_, ?_, fun d hd => ?_, htable.inv, fun a ha => ?_⟩
  · rw [hself]
  · rw [hself]
  · exact (State.head_complete tag _ d).trans ((head_commitBuildTable s c d n).trans (if_neg hd))
  · exact (State.byte_complete tag _ a).trans (byte_commitBuildTable ha)

/-- Settles O30: the table is the canonical order, which lists each AC value once, and FWD answers its place. -/
theorem builtTableIsABijection : Obligations.BuiltTableIsABijection := by
  intro s n c tag h
  have htable := holdsTable_of_buildTable c tag h
  have hnodup := canonOrder_nodup s.params (s.acSeq c n)
  refine ⟨_, exec_buildTable_of_running c tag h, fun k hk => ?_, fun v hv => ?_,
    htable.ndist.trans (canonOrder_length_eq_card s.params (s.acSeq c n))⟩
  · have hget := List.getElem?_eq_getElem (htable.ndist ▸ hk)
    rw [htable.inv k _ hget]
    exact (htable.fwd_eq_some_iff hnodup).2 hget
  · obtain ⟨k, hk⟩ := List.mem_iff_getElem?.1 (mem_canonOrder (p := s.params).2 hv)
    exact ⟨k, (htable.fwd_eq_some_iff hnodup).2 hk, htable.inv k v hk⟩

end Sys2Proof.Machine
end

section
/-! PROOFS. The Run-Length Encoder (42_rle_encode.md): the run decomposition (R140), what RLE_ENCODE stores and leaves
unchanged and which value it reports as missing (R141), and what then holds of the stored tuples (R142 (a), (b)). -/

namespace Sys2Proof.Machine
open Sys2Proof

/-! ### The run decomposition (R140) -/

/-- Settles O29: `runs` has the three properties, and a list of pairs that has them is the runs of its expansion. -/
theorem runsIsTheMaximalRunDecomposition : Obligations.RunsIsTheMaximalRunDecomposition := by
  intro l rs
  constructor
  · rintro ⟨hpos, hchain, rfl⟩
    exact (runs_unique hpos hchain).symm
  · rintro rfl
    exact ⟨runs_pos, runs_chain l, expand_runs l⟩

/-! ### States that read the same -/

/-- `t` is of the build of `s`, its data memories read the same, and it has the same Encoded Channel heads. -/
structure SameReads (s t : State) : Prop where
  params : t.params = s.params
  bytes : ∀ a, t.byte a = s.byte a
  enc : t.enc = s.enc

theorem sameReads_accept (w : Word) (s : State) : SameReads s (accept w s) := ⟨rfl, fun _ => rfl, rfl⟩

theorem sameReads_complete (slot : Half) (x : Execution) : SameReads x.after (complete slot x) :=
  ⟨complete_params slot x, State.byte_complete slot x, complete_enc slot x⟩

theorem sameReads_complete_commit (slot : Half) (s : State) : SameReads s (complete slot (commit s)) :=
  sameReads_complete slot (commit s)

theorem SameReads.head {s t : State} (h : SameReads s t) (c : Chan) : t.head c = s.head c := State.head_congr h.enc c

theorem SameReads.blkOut {s t : State} (h : SameReads s t) (c : Chan) (i : Nat) : t.blkOut c i = s.blkOut c i := by
  obtain ⟨_, hout, _⟩ := State.elements_congr h.params h.bytes c i
  exact hout

theorem SameReads.seq {s t : State} (h : SameReads s t) (c : Chan) (i : Nat) : t.seq c i = s.seq c i := by
  obtain ⟨_, _, hseq, _⟩ := State.elements_congr h.params h.bytes c i
  exact hseq

theorem SameReads.inv {s t : State} (h : SameReads s t) (c : Chan) (k : Nat) : t.inv c k = s.inv c k := by
  obtain ⟨_, _, _, hinv, _⟩ := State.elements_congr h.params h.bytes c k
  exact hinv

theorem SameReads.tupCode {s t : State} (h : SameReads s t) (c : Chan) (k : Nat) : t.tupCode c k = s.tupCode c k := by
  obtain ⟨_, _, _, _, hcode, _⟩ := State.elements_congr h.params h.bytes c k
  exact hcode

theorem SameReads.tupRun {s t : State} (h : SameReads s t) (c : Chan) (k : Nat) : t.tupRun c k = s.tupRun c k := by
  obtain ⟨_, _, _, _, _, hrun⟩ := State.elements_congr h.params h.bytes c k
  exact hrun

theorem SameReads.fwd {s t : State} (h : SameReads s t) (c : Chan) (v : Coef) : t.fwd c v = s.fwd c v :=
  fwd_congr (by rw [h.head c]) (fun k _ => h.inv c k) v

theorem acSeq_congr {s t : State} {c : Chan} {n : Nat} (h : ∀ i, i < n → t.seq c i = s.seq c i) :
    t.acSeq c n = s.acSeq c n :=
  List.map_congr_left fun i hi => h (i + 1) (by have := List.mem_range.1 hi; omega)

theorem SameReads.acSeq {s t : State} (h : SameReads s t) (c : Chan) (n : Nat) : t.acSeq c n = s.acSeq c n :=
  acSeq_congr fun i _ => h.seq c i

theorem SameReads.encodable {s t : State} (h : SameReads s t) {c : Chan} {n : Nat} (he : encodable c n s) :
    encodable c n t := fun i h1 h2 => by
  rw [h.seq, h.fwd]
  exact he i h1 h2

/-! ### A channel's tuples (R141) -/

/-- Channel c holds the raw DC value and one tuple for each run of the AC list: the code that the channel's own table gives
the run's value, and the run's length. -/
structure HoldsRuns (c : Chan) (s : State) (dc : Coef) (ac : List Coef) : Prop where
  dc : (s.head c).dc = dc
  tlen : (s.head c).tlen.toNat = (runs ac).length
  tuple : ∀ k v r, (runs ac)[k]? = some (v, r) →
    s.fwd c v = some (s.tupCode c k).toNat ∧ (s.tupRun c k).toNat = r

theorem SameReads.holdsRuns {s t : State} {c : Chan} {dc : Coef} {ac : List Coef} (h : SameReads s t)
    (hr : HoldsRuns c s dc ac) : HoldsRuns c t dc ac := by
  refine ⟨by rw [h.head]; exact hr.dc, by rw [h.head]; exact hr.tlen, fun k v r hk => ?_⟩
  rw [h.fwd, h.tupCode, h.tupRun]
  exact hr.tuple k v r hk

/-- A function of the indices of a list that answers for each index what `g` answers for its element. -/
theorem map_range_length_eq {α β : Type} {l : List α} {f : Nat → β} {g : α → β}
    (h : ∀ k a, l[k]? = some a → f k = g a) : (List.range l.length).map f = l.map g := by
  refine List.ext_getElem (by simp) fun k _ hk => ?_
  rw [List.length_map] at hk
  simpa using h k l[k] (List.getElem?_eq_getElem hk)

/-- A value's code is below NDIST, and INV holds the value there (10_state.md R44). -/
theorem fwd_some_spec {s : State} {c : Chan} {v : Coef} {k : Nat} (h : s.fwd c v = some k) :
    k < (s.head c).ndist.toNat ∧ s.inv c k = v := by
  obtain ⟨hk, hv, _⟩ := fwd_eq_some.1 h
  exact ⟨hk, hv⟩

section
variable {c : Chan} {s : State} {dc : Coef} {ac : List Coef}

/-- Every tuple below TLEN is that of a run. -/
theorem HoldsRuns.exists_run (h : HoldsRuns c s dc ac) {k : Nat} (hk : k < (s.head c).tlen.toNat) :
    ∃ v r, (runs ac)[k]? = some (v, r) := by
  rw [h.tlen] at hk
  exact ⟨_, _, List.getElem?_eq_getElem hk⟩

/-- R142 (a): the runs sum to the length of the AC list. -/
theorem HoldsRuns.totalRun_eq (h : HoldsRuns c s dc ac) : totalRun c s = ac.length := by
  have hmap : (List.range (runs ac).length).map (fun k => (s.tupRun c k).toNat) = (runs ac).map (·.2) :=
    map_range_length_eq fun k a hk => (h.tuple k a.1 a.2 hk).2
  rw [totalRun, h.tlen, hmap, runs_sum]

/-- I3: no run is 0. -/
theorem HoldsRuns.tupRun_ne_zero (h : HoldsRuns c s dc ac) {k : Nat} (hk : k < (s.head c).tlen.toNat) :
    s.tupRun c k ≠ 0 := fun h0 => by
  obtain ⟨v, r, hrun⟩ := h.exists_run hk
  have hr : (s.tupRun c k).toNat = r := (h.tuple k v r hrun).2
  have hpos : 1 ≤ r := runs_pos (v, r) (List.mem_of_getElem? hrun)
  rw [h0, show (0 : Half).toNat = 0 from rfl] at hr
  omega

/-- The codes are in the table (43_rle_decode.md R150). -/
theorem HoldsRuns.tupCode_lt (h : HoldsRuns c s dc ac) {k : Nat} (hk : k < (s.head c).tlen.toNat) :
    (s.tupCode c k).toNat < (s.head c).ndist.toNat := by
  obtain ⟨v, r, hrun⟩ := h.exists_run hk
  exact (fwd_some_spec (h.tuple k v r hrun).1).1

/-- A tuple's code stands for its run's value. -/
theorem HoldsRuns.inv_tupCode (h : HoldsRuns c s dc ac) {k : Nat} {v : Coef} {r : Nat}
    (hrun : (runs ac)[k]? = some (v, r)) : s.inv c (s.tupCode c k).toNat = v :=
  (fwd_some_spec (h.tuple k v r hrun).1).2

/-- R142 (b): adjacent tuples have different codes, because their runs have different values. -/
theorem HoldsRuns.tupCode_ne_succ (h : HoldsRuns c s dc ac) {k : Nat} (hk : k + 1 < (s.head c).tlen.toNat) :
    s.tupCode c k ≠ s.tupCode c (k + 1) := fun heq => by
  rw [h.tlen] at hk
  have hv := h.inv_tupCode (List.getElem?_eq_getElem (Nat.lt_of_succ_lt hk))
  have hv' := h.inv_tupCode (List.getElem?_eq_getElem hk)
  rw [heq, hv'] at hv
  exact List.isChain_iff_getElem.1 (runs_chain ac) k hk hv.symm

end

/-! ### RLE_ENCODE's check (R141) -/

/-- The least index without a code is the one that the check reports. -/
theorem encodeCheck_eq_some {s : State} {c : Chan} {n i : Nat} (h1 : 1 ≤ i) (hn : i < n)
    (hmiss : s.fwd c (s.seq c i) = none) (hleast : ∀ j, 1 ≤ j → j < i → (s.fwd c (s.seq c j)).isSome = true) :
    encodeCheck c n s = some
      { cause := .lookupMiss, ch := Chan.field c, pos := BitVec.ofNat 16 i, lo := coefLo (s.seq c i),
        hi := coefHi s.params (s.seq c i) } := by
  have hfind : (List.range' 1 (n - 1)).find? (fun i => (s.fwd c (s.seq c i)).isNone) = some i := by
    refine List.find?_range'_eq_some.2 ⟨by rw [hmiss]; rfl, List.mem_range'_1.2 ⟨h1, by omega⟩, fun j hj hji => ?_⟩
    rw [Option.not_isNone]
    exact hleast j hj hji
  rw [encodeCheck, hfind]

/-- With LEN legal, RLE_ENCODE completes its commit if its check passes, and raises what the check reports if not. -/
theorem exec_rleEncode_of_running {s : State} {n : Nat} (c : Chan) (tag : Half) (h : runningWithLen s n) :
    exec (.rleEncode (Chan.field c) tag) s =
      .next (complete tag (withCheck s (encodeCheck c n s) (commitEncode c n s))) := by
  change execRleEncode (Chan.field c) tag s = _
  rw [execRleEncode, withChannel_field, withLen_of_running h]

theorem exec_rleEncode_of_encodable {s : State} {n : Nat} {c : Chan} (tag : Half) (h : runningWithLen s n)
    (he : encodable c n s) :
    exec (.rleEncode (Chan.field c) tag) s = .next (complete tag (commit (commitEncode c n s))) := by
  rw [exec_rleEncode_of_running c tag h, encodeCheck_eq_none.2 he, withCheck_none]

/-- Settles O19: the check reports the least missing index, and a command that raises changes no data. -/
theorem rleEncodeReportsTheFirstMiss : Obligations.RleEncodeReportsTheFirstMiss := by
  intro s n i c tag h h1 hn hmiss hleast
  have hexec := exec_rleEncode_of_running c tag h
  rw [encodeCheck_eq_some h1 hn hmiss hleast, withCheck_some] at hexec
  exact ⟨_, hexec, sameData_raise s tag _, completedErr_data s tag _ c rfl rfl⟩

/-! ### RLE_ENCODE's commit (R141) -/

theorem head_commitEncode_self (s : State) (c : Chan) (n : Nat) :
    (commitEncode c n s).head c =
      { s.head c with dc := s.seq c 0, tlen := BitVec.ofNat 16 (runs (s.acSeq c n)).length } :=
  (head_commitEncode s c c n).trans (if_pos rfl)

/-- RLE_ENCODE's commit keeps all of its channel's INV, which lies behind the tuples. -/
theorem inv_commitEncode {s : State} {c : Chan} {n : Nat} (hl : legalBuild s.params = true) (hn : n ≤ s.params.nMax)
    (k : Nat) : (commitEncode c n s).inv c k = s.inv c k := by
  have hcap := cap_lt hl
  refine State.coef_congr (onlyData_commitEncode c n s).params fun b hb _ => byte_commitEncode fun ha => ?_
  have := mem_tup_bounds ((runs_acSeq_length_le s c n).trans (pred_le_cap hn)) ha
  rw [(onlyData_commitEncode c n s).params] at hb
  unfold invAddr at hb
  omega

/-- RLE_ENCODE's commit keeps every value's code: it stores neither INV nor NDIST. -/
theorem fwd_commitEncode {s : State} {c : Chan} {n : Nat} (hl : legalBuild s.params = true) (hn : n ≤ s.params.nMax)
    (v : Coef) : (commitEncode c n s).fwd c v = s.fwd c v :=
  fwd_congr (by rw [head_commitEncode_self]) (fun k _ => inv_commitEncode hl hn k) v

/-- RLE_ENCODE's commit leaves the raw DC and one tuple for each run. -/
theorem holdsRuns_commitEncode {s : State} {c : Chan} {n : Nat} (hl : legalBuild s.params = true)
    (hn : n ≤ s.params.nMax) (he : encodable c n s) :
    HoldsRuns c (commitEncode c n s) (s.seq c 0) (s.acSeq c n) := by
  have hcap : n - 1 ≤ cap s.params := pred_le_cap hn
  refine ⟨by rw [head_commitEncode_self], ?_, fun k v r hrun => ?_⟩
  · rw [head_commitEncode_self]
    exact toNat_ofNat_of_le_cap hl ((runs_acSeq_length_le s c n).trans hcap)
  · obtain ⟨hv, hr⟩ := runs_mem (List.mem_of_getElem? hrun)
    obtain ⟨i, h1, h2, rfl⟩ := mem_acSeq.1 hv
    obtain ⟨code, hcode⟩ := Option.isSome_iff_exists.1 (he i h1 h2)
    obtain ⟨htupCode, htupRun⟩ := tuple_commitEncode hrun
    have hlt : code < 2 ^ 16 := (fwd_some_spec hcode).1.trans (s.head c).ndist.isLt
    rw [fwd_commitEncode hl hn, htupCode, htupRun, hcode, Option.getD_some, BitVec.toNat_ofNat, Nat.mod_eq_of_lt hlt]
    rw [acSeq_length] at hr
    exact ⟨rfl, toNat_ofNat_of_le_cap hl (hr.trans hcap)⟩

/-- With LEN legal, RLE_ENCODE of an encodable sequence completes with one tuple for each run. -/
theorem holdsRuns_of_rleEncode {s : State} {n : Nat} {c : Chan} (tag : Half) (h : runningWithLen s n)
    (he : encodable c n s) :
    HoldsRuns c (complete tag (commit (commitEncode c n s))) (s.seq c 0) (s.acSeq c n) := by
  obtain ⟨hl, _, _, hn⟩ := h
  exact (sameReads_complete_commit tag (commitEncode c n s)).holdsRuns (holdsRuns_commitEncode hl hn he)

/-- What RLE_ENCODE of an encodable sequence answers. -/
theorem exec_rleEncode_leaves_runs {s : State} {n : Nat} {c : Chan} (tag : Half) (h : runningWithLen s n)
    (he : encodable c n s) :
    ∃ t, exec (.rleEncode (Chan.field c) tag) s = .next t ∧ completedOk s t ∧
      HoldsRuns c t (s.seq c 0) (s.acSeq c n) :=
  ⟨_, exec_rleEncode_of_encodable tag h he, completedOk_commit tag (onlyData_commitEncode c n s),
    holdsRuns_of_rleEncode tag h he⟩

/-- Settles O9: RLE_ENCODE completes its commit, which leaves one tuple for each run and keeps the table, the other heads
and every other byte. -/
theorem rleEncodeStoresOneTuplePerRun : Obligations.RleEncodeStoresOneTuplePerRun := by
  intro s n c tag h he
  have hexec := exec_rleEncode_of_encodable tag h he
  have hruns := holdsRuns_of_rleEncode tag h he
  have hsame := sameReads_complete_commit tag (commitEncode c n s)
  obtain ⟨hl, _, _, hn⟩ := h
  refine ⟨_, hexec, completedOk_commit tag (onlyData_commitEncode c n s), hruns.dc, hruns.tlen, ?_, fun d hd => ?_,
    fun k v r hrun => ?_, fun a ha => ?_⟩
  · rw [hsame.head, head_commitEncode_self]
  · exact (hsame.head d).trans ((head_commitEncode s c d n).trans (if_neg hd))
  · rw [← fwd_commitEncode hl hn v, ← hsame.fwd c v]
    exact hruns.tuple k v r hrun
  · exact (hsame.bytes a).trans (byte_commitEncode ha)

/-- Settles O31: what holds of one tuple per run of the AC sequence, whose length is LEN - 1. -/
theorem encodedRunsAreConservedAndMaximal : Obligations.EncodedRunsAreConservedAndMaximal := by
  intro s n c tag h he
  obtain ⟨t, hexec, _, hruns⟩ := exec_rleEncode_leaves_runs tag h he
  exact ⟨t, hexec, hruns.totalRun_eq.trans (acSeq_length s c n),
    fun _ => hruns.tupCode_ne_succ, fun _ => hruns.tupRun_ne_zero⟩

end Sys2Proof.Machine
end

section
/-! PROOFS. RLE_ENCODE among other commands (42_rle_encode.md R142 (c), (d)): RLE_DECODE after it gives the sequence back,
and after BUILD_TABLE of the same sequence it never misses. -/

namespace Sys2Proof.Machine
open Sys2Proof

/-! ### One command after another -/

theorem runCommands_cons {i : Instr} {is : List Instr} {s t : State} (h : runCommand i s = .next t) :
    runCommands (i :: is) s = runCommands is t := by
  rw [runCommands, h]

theorem runCommands_pair {i j : Instr} {s t u : State} (h1 : runCommand i s = .next t) (h2 : runCommand j t = .next u) :
    runCommands [i, j] s = .next u :=
  (runCommands_cons h1).trans (runCommands_cons h2)

/-- An accepted command runs with CFG.LEN. -/
theorem runningWithLen_accept {s : State} (w : Word) (hl : legalBuild s.params = true) (h1 : 1 ≤ s.cfgLen.toNat)
    (hn : s.cfgLen.toNat ≤ s.params.nMax) : runningWithLen (accept w s) s.cfgLen.toNat :=
  ⟨hl, ⟨_, rfl, rfl⟩, h1, hn⟩

/-- The command accepted after a completed one runs with the same LEN. -/
theorem completedOk.runningWithLen_accept {s t : State} {w : Word} (hok : completedOk (accept w s) t)
    (hl : legalBuild s.params = true) (h1 : 1 ≤ s.cfgLen.toNat) (hn : s.cfgLen.toNat ≤ s.params.nMax) (w' : Word) :
    runningWithLen (accept w' t) s.cfgLen.toNat := by
  obtain ⟨⟨hp, _, hlen, _⟩, _⟩ := hok
  rw [accept_params] at hp
  rw [accept_cfgLen] at hlen
  exact ⟨by rw [accept_params, hp]; exact hl, ⟨_, rfl, by rw [hlen]⟩, h1, by rw [accept_params, hp]; exact hn⟩

/-! ### RLE_DECODE of an encoding (R142 (c)) -/

/-- With LEN legal, RLE_DECODE of decodable tuples completes its commit. -/
theorem exec_rleDecode_of_decodable {s : State} {n : Nat} {c : Chan} (tag : Half) (h : runningWithLen s n)
    (hd : decodable c n s) :
    exec (.rleDecode (Chan.field c) tag) s = .next (complete tag (commit (commitDecode c s))) := by
  change execRleDecode (Chan.field c) tag s = _
  rw [execRleDecode, withChannel_field, withLen_of_running h, decodeCheck_eq_none.2 hd, withCheck_none]

/-- One tuple per run is decodable with the LEN of the sequence. -/
theorem HoldsRuns.decodable {c : Chan} {s : State} {dc : Coef} {ac : List Coef} {n : Nat} (h : HoldsRuns c s dc ac)
    (hn : ac.length = n - 1) : decodable c n s :=
  ⟨fun _ => h.tupCode_lt, h.totalRun_eq.trans hn⟩

/-- One tuple per run decodes to the sequence, because the runs expand to it. -/
theorem HoldsRuns.decodedLane_eq {c : Chan} {s : State} {dc : Coef} {ac : List Coef} (h : HoldsRuns c s dc ac) :
    decodedLane c s = dc :: ac := by
  have hmap : (List.range (runs ac).length).map
        (fun k => List.replicate (s.tupRun c k).toNat (s.inv c (s.tupCode c k).toNat)) =
      (runs ac).map fun a => List.replicate a.2 a.1 :=
    map_range_length_eq fun k a hk => by rw [h.inv_tupCode hk, (h.tuple k a.1 a.2 hk).2]
  rw [decodedLane, h.dc, h.tlen, List.flatMap_def, hmap, ← List.flatMap_def]
  exact congrArg (dc :: ·) (expand_runs ac)

/-- The sequence is its DC term followed by AC(c) (41_freq_table.md R130). -/
theorem getElem?_seq_cons_acSeq {s : State} {c : Chan} {n i : Nat} (hi : i < n) :
    (s.seq c 0 :: s.acSeq c n)[i]? = some (s.seq c i) := by
  cases i with
  | zero => rfl
  | succ i =>
    have hi' : i < n - 1 := by omega
    simp [State.acSeq, hi']

/-- With LEN legal, RLE_DECODE of an encoded sequence completes with the sequence in lane c of BLK_OUT. -/
theorem exec_rleDecode_of_holdsRuns {s u : State} {n : Nat} {c : Chan} (tag : Half) (h : runningWithLen s n)
    (hp : s.params = u.params) (hruns : HoldsRuns c s (u.seq c 0) (u.acSeq c n)) :
    ∃ t, exec (.rleDecode (Chan.field c) tag) s = .next t ∧ completedOk s t ∧
      ∀ i, i < n → t.blkOut c i = u.seq c i := by
  have hd : decodable c n s := hruns.decodable (acSeq_length u c n)
  refine ⟨_, exec_rleDecode_of_decodable tag h hd, completedOk_commit tag (onlyData_commitDecode c s), fun i hi => ?_⟩
  have hlane : (decodedLane c s)[i]? = some (u.seq c i) := by
    rw [hruns.decodedLane_eq]
    exact getElem?_seq_cons_acSeq hi
  have hdc : (s.head c).dc.toNat < 2 ^ coefW s.params := by
    rw [hruns.dc, hp]
    exact u.coef_lt _
  exact ((sameReads_complete_commit tag (commitDecode c s)).blkOut c i).trans (blkOut_commitDecode hlane hdc)

/-- Settles O32: RLE_ENCODE leaves one tuple for each run, and the tuples decode to the sequence. -/
theorem decodeAfterEncodeGivesTheSequence : Obligations.DecodeAfterEncodeGivesTheSequence := by
  intro s c tag tag' hl h1 hn he
  have haccept := sameReads_accept (encode (.rleEncode (Chan.field c) tag)) s
  obtain ⟨t, henc, hok, hruns⟩ := exec_rleEncode_leaves_runs tag (runningWithLen_accept _ hl h1 hn)
    (haccept.encodable he)
  rw [haccept.seq, haccept.acSeq] at hruns
  have haccept' := sameReads_accept (encode (.rleDecode (Chan.field c) tag')) t
  have hp : (accept (encode (.rleDecode (Chan.field c) tag')) t).params = s.params := hok.1.1
  obtain ⟨u, hdec, hok', hout⟩ := exec_rleDecode_of_holdsRuns tag' (hok.runningWithLen_accept hl h1 hn _) hp
    (haccept'.holdsRuns hruns)
  obtain ⟨_, _, _, herr, _⟩ := hok'
  exact ⟨u, runCommands_pair henc hdec, herr, hout⟩

/-! ### RLE_ENCODE after BUILD_TABLE (R142 (d)) -/

theorem SameReads.holdsTable {s t : State} {c : Chan} {l : List Coef} (h : SameReads s t) (ht : HoldsTable c s l) :
    HoldsTable c t l :=
  ⟨by rw [h.head]; exact ht.ndist, fun k v hk => by rw [h.inv]; exact ht.inv k v hk⟩

/-- BUILD_TABLE's commit keeps SEQ, which lies below the tables. -/
theorem seq_commitBuildTable {s : State} {c : Chan} {n i : Nat} (hl : legalBuild s.params = true) (d : Chan)
    (hi : i < s.params.nMax) : (commitBuildTable c n s).seq d i = s.seq d i := by
  have hseq := seqAddr_bounds (c := d) hl hi
  have hd := Chan.idx_lt d
  have hbase := encBase_bounds c
  unfold State.seq
  rw [(onlyData_commitBuildTable c n s).params]
  refine State.coef_congr (onlyData_commitBuildTable c n s).params fun b _ hb => byte_commitBuildTable fun ha => ?_
  unfold invAddr at ha
  omega

/-- RLE_ENCODE's commit keeps its channel's table. -/
theorem holdsTable_commitEncode {s : State} {c : Chan} {n : Nat} {l : List Coef} (hl : legalBuild s.params = true)
    (hn : n ≤ s.params.nMax) (h : HoldsTable c s l) : HoldsTable c (commitEncode c n s) l := by
  refine ⟨?_, fun k v hk => ?_⟩
  · rw [head_commitEncode_self]
    exact h.ndist
  · rw [inv_commitEncode hl hn]
    exact h.inv k v hk

/-- Every AC value has a code in a table that lists the AC values. -/
theorem HoldsTable.encodable {c : Chan} {s : State} {n : Nat} {p : Params}
    (h : HoldsTable c s (canonOrder p (s.acSeq c n))) : encodable c n s := fun i h1 hn => by
  have hmem : s.seq c i ∈ canonOrder p (s.acSeq c n) := mem_canonOrder.2 (mem_acSeq.2 ⟨i, h1, hn, rfl⟩)
  obtain ⟨k, hk⟩ := List.mem_iff_getElem?.1 hmem
  rw [(h.fwd_eq_some_iff (canonOrder_nodup _ _)).2 hk]
  rfl

/-- A channel with the canonical table of an AC list and one tuple for each of its runs holds the list's encoding. -/
theorem holdsEncoding_of_holdsTable {c : Chan} {s : State} {dc : Coef} {ac : List Coef}
    (htable : HoldsTable c s (canonOrder s.params ac)) (hruns : HoldsRuns c s dc ac) : holdsEncoding c s dc ac := by
  refine ⟨hruns.dc, htable.ndist, htable.inv, hruns.tlen, fun k v r hrun => ?_⟩
  obtain ⟨hcode, hlen⟩ := hruns.tuple k v r hrun
  exact ⟨(htable.fwd_eq_some_iff (canonOrder_nodup _ _)).1 hcode, hlen⟩

/-- With LEN legal and the canonical table of the sequence, RLE_ENCODE completes with the sequence's encoding. -/
theorem exec_rleEncode_of_holdsTable {s : State} {n : Nat} {c : Chan} (tag : Half) (h : runningWithLen s n)
    (htable : HoldsTable c s (canonOrder s.params (s.acSeq c n))) :
    ∃ t, exec (.rleEncode (Chan.field c) tag) s = .next t ∧ completedOk s t ∧
      holdsEncoding c t (s.seq c 0) (s.acSeq c n) := by
  have hsame := sameReads_complete_commit tag (commitEncode c n s)
  have hruns := holdsRuns_of_rleEncode tag h htable.encodable
  refine ⟨_, exec_rleEncode_of_encodable tag h htable.encodable,
    completedOk_commit tag (onlyData_commitEncode c n s), holdsEncoding_of_holdsTable ?_ hruns⟩
  obtain ⟨hl, _, _, hn⟩ := h
  rw [hsame.params]
  exact hsame.holdsTable (holdsTable_commitEncode hl hn htable)

/-- With LEN legal, BUILD_TABLE completes with the canonical table of the sequence, and keeps the sequence. -/
theorem exec_buildTable_leaves_table {s : State} {n : Nat} (c : Chan) (tag : Half) (h : runningWithLen s n) :
    ∃ t, exec (.buildTable (Chan.field c) tag) s = .next t ∧ completedOk s t ∧
      HoldsTable c t (canonOrder s.params (s.acSeq c n)) ∧ ∀ i, i < n → t.seq c i = s.seq c i := by
  refine ⟨_, exec_buildTable_of_running c tag h, completedOk_commit tag (onlyData_commitBuildTable c n s),
    holdsTable_of_buildTable c tag h, fun i hi => ?_⟩
  obtain ⟨hl, _, _, hn⟩ := h
  exact (State.seq_complete tag _ c i).trans (seq_commitBuildTable hl c (hi.trans_le hn))

/-- Settles O33: BUILD_TABLE keeps the sequence and leaves its canonical table, with which RLE_ENCODE completes. -/
theorem encodeAfterBuildTableNeverMisses : Obligations.EncodeAfterBuildTableNeverMisses := by
  intro s c tag tag' hl h1 hn
  have haccept := sameReads_accept (encode (.buildTable (Chan.field c) tag)) s
  obtain ⟨t, hbuild, hok, htable, hseq⟩ := exec_buildTable_leaves_table c tag (runningWithLen_accept _ hl h1 hn)
  have haccept' := sameReads_accept (encode (.rleEncode (Chan.field c) tag')) t
  have hp : (accept (encode (.rleEncode (Chan.field c) tag')) t).params = s.params := hok.1.1
  have hseq' : ∀ i, i < s.cfgLen.toNat →
      (accept (encode (.rleEncode (Chan.field c) tag')) t).seq c i = s.seq c i := fun i hi =>
    (haccept'.seq c i).trans ((hseq i hi).trans (haccept.seq c i))
  have hac := acSeq_congr hseq'
  rw [accept_params, haccept.acSeq] at htable
  obtain ⟨u, henc, hok', hholds⟩ := exec_rleEncode_of_holdsTable tag' (hok.runningWithLen_accept hl h1 hn _)
    (by rw [hp, hac]; exact haccept'.holdsTable htable)
  obtain ⟨_, _, _, hstatus, herr⟩ := hok'
  rw [hac, hseq' 0 h1] at hholds
  exact ⟨u, runCommands_pair hbuild henc, hstatus, herr, hholds⟩

end Sys2Proof.Machine
end

section
/-! PROOFS. The Run-Length Decoder (43_rle_decode.md): what RLE_DECODE stores and leaves unchanged (R150, R151), and the
two errors of its check (60_exceptions.md R203, R204). -/

namespace Sys2Proof.Machine
open Sys2Proof

/-! ### RLE_DECODE's commit (R150, R151) -/

/-- A decodable lane has LEN elements: DC and the runs, which sum to LEN - 1. -/
theorem decodedLane_length_of_decodable {s : State} {n : Nat} {c : Chan} (h1 : 1 ≤ n) (hd : decodable c n s) :
    (decodedLane c s).length = n := by
  obtain ⟨_, hsum⟩ := hd
  rw [decodedLane_length, hsum, Nat.sub_add_cancel h1]

/-- RLE_DECODE's commit of a decodable lane: every byte outside the lane's LEN elements is as before. -/
theorem byte_commitDecode_of_decodable {s : State} {n a : Nat} {c : Chan} (h1 : 1 ≤ n) (hd : decodable c n s)
    (ha : ¬inLane s.params c n a) : (commitDecode c s).byte a = s.byte a := by
  rw [← decodedLane_length_of_decodable h1 hd, decodedLane_length] at ha
  exact byte_commitDecode ha

/-- Settles O10: RLE_DECODE of decodable tuples completes its commit, which stores the decoded lane and keeps the heads and
every other byte. -/
theorem rleDecodeWritesTheLane : Obligations.RleDecodeWritesTheLane := by
  intro s n c tag h hdc hd
  have hexec := exec_rleDecode_of_decodable tag h hd
  have hsame := sameReads_complete_commit tag (commitDecode c s)
  obtain ⟨_, _, h1, _⟩ := h
  refine ⟨_, hexec, completedOk_commit tag (onlyData_commitDecode c s), hsame.enc,
    decodedLane_length_of_decodable h1 hd, fun i v hv => ?_, fun a ha => ?_⟩
  · exact (hsame.blkOut c i).trans (blkOut_commitDecode hv (hdc c))
  · exact (hsame.bytes a).trans (byte_commitDecode_of_decodable h1 hd ha)

/-! ### RLE_DECODE's check (R150) -/

/-- The least tuple whose code is not in the table is the one that the check reports, whatever the runs sum to. -/
theorem decodeCheck_eq_lookupMiss {s : State} {n k : Nat} {c : Chan} (hk : k < (s.head c).tlen.toNat)
    (hmiss : (s.head c).ndist.toNat ≤ (s.tupCode c k).toNat)
    (hleast : ∀ j, j < k → (s.tupCode c j).toNat < (s.head c).ndist.toNat) :
    decodeCheck c n s = some
      { cause := .lookupMiss, ch := Chan.field c, pos := BitVec.ofNat 16 k, lo := (s.tupCode c k).setWidth 32,
        hi := (s.head c).ndist.setWidth 32 } := by
  have hfind : (List.range (s.head c).tlen.toNat).find?
      (fun k => decide ((s.head c).ndist.toNat ≤ (s.tupCode c k).toNat)) = some k := by
    refine List.find?_range_eq_some.2 ⟨decide_eq_true hmiss, List.mem_range.2 hk, fun j hj => ?_⟩
    rw [decide_eq_false (not_le.2 (hleast j hj)), Bool.not_false]
  rw [decodeCheck, hfind]

/-- With every code in the table, the check reports a sum of runs other than LEN - 1. -/
theorem decodeCheck_eq_lengthMismatch {s : State} {n : Nat} {c : Chan}
    (hcodes : ∀ k, k < (s.head c).tlen.toNat → (s.tupCode c k).toNat < (s.head c).ndist.toNat)
    (hsum : totalRun c s ≠ n - 1) :
    decodeCheck c n s = some
      { cause := .lengthMismatch, ch := Chan.field c, pos := (s.head c).tlen,
        lo := BitVec.ofNat 32 (totalRun c s), hi := BitVec.ofNat 32 (n - 1) } := by
  have hfind : (List.range (s.head c).tlen.toNat).find?
      (fun k => decide ((s.head c).ndist.toNat ≤ (s.tupCode c k).toNat)) = none := by
    refine List.find?_eq_none.2 fun k hk => ?_
    rw [decide_eq_true_eq, not_le]
    exact hcodes k (List.mem_range.1 hk)
  rw [decodeCheck, hfind]
  exact if_neg hsum

/-- The sum of the runs fits the 32-bit error register: TLEN and each run have 16 bits. -/
theorem totalRun_lt (c : Chan) (s : State) : totalRun c s < 2 ^ 32 := by
  have htlen : (s.head c).tlen.toNat ≤ 2 ^ 16 - 1 := Nat.le_pred_of_lt (s.head c).tlen.isLt
  have hrun : ∀ r ∈ (List.range (s.head c).tlen.toNat).map fun k => (s.tupRun c k).toNat, r ≤ 2 ^ 16 - 1 := by
    intro r hr
    obtain ⟨k, _, rfl⟩ := List.mem_map.1 hr
    exact Nat.le_pred_of_lt (s.tupRun c k).isLt
  calc totalRun c s ≤ (s.head c).tlen.toNat * (2 ^ 16 - 1) := by
        simpa [totalRun] using List.sum_le_card_nsmul _ _ hrun
    _ ≤ (2 ^ 16 - 1) * (2 ^ 16 - 1) := Nat.mul_le_mul_right _ htlen
    _ < 2 ^ 32 := by decide

/-- With LEN legal, RLE_DECODE raises what its check reports, and changes no data. -/
theorem exec_rleDecode_of_check {s : State} {n : Nat} {c : Chan} {e : CmdError} (tag : Half) (h : runningWithLen s n)
    (he : decodeCheck c n s = some e) :
    ∃ t, exec (.rleDecode (Chan.field c) tag) s = .next t ∧ sameData s t ∧
      completedErr s t (dataRecord e.cause tag c e.pos e.lo e.hi) := by
  obtain ⟨hcause, hch⟩ := decodeCheck_error he
  refine ⟨complete tag (raise s e), ?_, sameData_raise s tag e, completedErr_data s tag e c hcause hch⟩
  change execRleDecode (Chan.field c) tag s = _
  rw [execRleDecode, withChannel_field, withLen_of_running h, he, withCheck_some]

/-- Settles O20: the check reports the least missing tuple. -/
theorem rleDecodeReportsTheFirstMiss : Obligations.RleDecodeReportsTheFirstMiss :=
  fun _ _ _ _ tag h hk hmiss hleast => exec_rleDecode_of_check tag h (decodeCheck_eq_lookupMiss hk hmiss hleast)

/-- Settles O21: with no miss the check reports the sum of the runs, which fits its register. -/
theorem rleDecodeReportsAWrongLength : Obligations.RleDecodeReportsAWrongLength := by
  intro s n c tag h hcodes hsum
  obtain ⟨t, hexec, hdata, herr⟩ := exec_rleDecode_of_check tag h (decodeCheck_eq_lengthMismatch hcodes hsum)
  exact ⟨t, hexec, hdata, totalRun_lt c s, herr⟩

end Sys2Proof.Machine
end

section
/-! PROOFS. A channel's Encoded Channel as a value (10_state.md R43): when two states hold the same one, and that decoding
and the encoding of an AC list depend on nothing else. -/

namespace Sys2Proof.Machine
open Sys2Proof

/-- `t` holds the Encoded Channel of `s` in channel c: its head, its used tuples and its used table. -/
structure SameEncodedChannel (c : Chan) (s t : State) : Prop where
  head : t.head c = s.head c
  tupCode : ∀ k, k < (s.head c).tlen.toNat → t.tupCode c k = s.tupCode c k
  tupRun : ∀ k, k < (s.head c).tlen.toNat → t.tupRun c k = s.tupRun c k
  inv : ∀ k, k < (s.head c).ndist.toNat → t.inv c k = s.inv c k

theorem SameReads.sameEncodedChannel {s t : State} (h : SameReads s t) (c : Chan) : SameEncodedChannel c s t :=
  ⟨h.head c, fun k _ => h.tupCode c k, fun k _ => h.tupRun c k, fun k _ => h.inv c k⟩

theorem SameEncodedChannel.trans {s t u : State} {c : Chan} (h : SameEncodedChannel c s t) (h' : SameEncodedChannel c t u) :
    SameEncodedChannel c s u := by
  obtain ⟨hhead, hcode, hrun, hinv⟩ := h
  obtain ⟨hhead', hcode', hrun', hinv'⟩ := h'
  rw [hhead] at hcode' hrun' hinv'
  exact ⟨hhead'.trans hhead, fun k hk => (hcode' k hk).trans (hcode k hk), fun k hk => (hrun' k hk).trans (hrun k hk),
    fun k hk => (hinv' k hk).trans (hinv k hk)⟩

/-- Where no length is beyond CAP, the Encoded Channel is the head and the bytes of the ENC sub-window. -/
theorem SameChannel.sameEncodedChannel {s t : State} {c : Chan} (hl : legalBuild s.params = true) (h : SameChannel c s t)
    (htlen : (s.head c).tlen.toNat ≤ cap s.params) (hndist : (s.head c).ndist.toNat ≤ cap s.params) :
    SameEncodedChannel c s t := by
  obtain ⟨hp, hhead, hb⟩ := h
  refine ⟨hhead, fun k hk => ?_, fun k hk => ?_, fun k hk => ?_⟩
  · have hbounds := tupAddr_bounds (c := c) hl (hk.trans_le htlen)
    exact State.half_congr fun b h1 h2 => hb b (by omega) (by omega)
  · exact tupRun_congr hl (fun a h1 h2 => hb a (by omega) (by omega)) (hk.trans_le htlen)
  · exact inv_congr hl hp (fun a h1 h2 => hb a (by omega) h2) (hk.trans_le hndist)

/-- Whatever the lengths are, every Encoded Channel lies in the heads and the bytes from ENC on. -/
theorem sameEncodedChannel_of_bytes {s t : State} (hp : t.params = s.params) (he : t.enc = s.enc)
    (hb : ∀ a, 0x040000 ≤ a → t.byte a = s.byte a) (c : Chan) : SameEncodedChannel c s t := by
  have hbase := encBase_bounds c
  refine ⟨State.head_congr he c, fun k _ => ?_, fun k _ => ?_, fun k _ => ?_⟩
  · exact State.half_congr fun b h1 _ => hb b (by unfold tupAddr at h1; omega)
  · exact State.half_congr fun b h1 _ => hb b (by unfold tupAddr at h1; omega)
  · unfold State.inv
    rw [hp]
    exact State.coef_congr hp fun b h1 _ => hb b (by unfold invAddr at h1; omega)

/-! ### Decoding reads the Encoded Channel alone (43_rle_decode.md R150, R151) -/

section
variable {s t : State} {c : Chan} {n : Nat}

theorem SameEncodedChannel.totalRun (h : SameEncodedChannel c s t) : totalRun c t = totalRun c s := by
  rw [Machine.totalRun, Machine.totalRun, h.head]
  exact congrArg List.sum (List.map_congr_left fun k hk => by rw [h.tupRun k (List.mem_range.1 hk)])

theorem SameEncodedChannel.decodeCheck (h : SameEncodedChannel c s t) : decodeCheck c n t = decodeCheck c n s := by
  have hfind : ((List.range (s.head c).tlen.toNat).find? fun k =>
        decide ((s.head c).ndist.toNat ≤ (t.tupCode c k).toNat)) =
      (List.range (s.head c).tlen.toNat).find? fun k =>
        decide ((s.head c).ndist.toNat ≤ (s.tupCode c k).toNat) :=
    List.find?_congr fun k hk => by rw [h.tupCode k (List.mem_range.1 hk)]
  rw [Machine.decodeCheck, Machine.decodeCheck, h.head, hfind, h.totalRun]
  split
  · next k hk => rw [h.tupCode k (List.mem_range.1 (List.mem_of_find?_eq_some hk))]
  · rfl

theorem SameEncodedChannel.decodable (h : SameEncodedChannel c s t) : decodable c n t ↔ decodable c n s := by
  rw [← decodeCheck_eq_none, ← decodeCheck_eq_none, h.decodeCheck]

/-- Decodable tuples name used table entries only, so they decode to one lane. -/
theorem SameEncodedChannel.decodedLane (h : SameEncodedChannel c s t) (hd : Machine.decodable c n s) :
    decodedLane c t = decodedLane c s := by
  obtain ⟨hcodes, _⟩ := hd
  rw [Machine.decodedLane, Machine.decodedLane, h.head, List.flatMap_def, List.flatMap_def]
  refine congrArg (fun runs => (s.head c).dc :: List.flatten runs) (List.map_congr_left fun k hk => ?_)
  have hk' := List.mem_range.1 hk
  rw [h.tupRun k hk', h.tupCode k hk', h.inv _ (hcodes k hk')]

end

/-! ### The encoding of an AC list determines the Encoded Channel (41_freq_table.md R133, 42_rle_encode.md R141) -/

section
variable {c : Chan} {s t : State} {dc : Coef} {ac : List Coef}

theorem holdsEncoding_table (h : holdsEncoding c s dc ac) : HoldsTable c s (canonOrder s.params ac) := by
  obtain ⟨_, hndist, hinv, _⟩ := h
  exact ⟨hndist, hinv⟩

/-- The codes of an encoding are the ones that its own table gives. -/
theorem holdsEncoding_runs (h : holdsEncoding c s dc ac) : HoldsRuns c s dc ac := by
  have htable := holdsEncoding_table h
  obtain ⟨hdc, _, _, htlen, htuple⟩ := h
  refine ⟨hdc, htlen, fun k v r hrun => ?_⟩
  obtain ⟨hcode, hlen⟩ := htuple k v r hrun
  exact ⟨(htable.fwd_eq_some_iff (canonOrder_nodup _ _)).2 hcode, hlen⟩

theorem SameEncodedChannel.holdsEncoding (h : SameEncodedChannel c s t) (hp : t.params = s.params)
    (he : holdsEncoding c s dc ac) : holdsEncoding c t dc ac := by
  obtain ⟨hdc, hndist, hinv, htlen, htuple⟩ := he
  unfold Machine.holdsEncoding
  rw [h.head, hp]
  refine ⟨hdc, hndist, fun k v hk => ?_, htlen, fun k v r hrun => ?_⟩
  · rw [h.inv k (hndist ▸ (List.getElem?_eq_some_iff.1 hk).1)]
    exact hinv k v hk
  · have hk : k < (s.head c).tlen.toNat := htlen ▸ (List.getElem?_eq_some_iff.1 hrun).1
    rw [h.tupCode k hk, h.tupRun k hk]
    exact htuple k v r hrun

/-- Two encodings of one AC list are the same: a code is the place of its value in the canonical order. -/
theorem sameEncodedChannel_of_holdsEncoding (hp : t.params = s.params) (hs : holdsEncoding c s dc ac)
    (ht : holdsEncoding c t dc ac) : SameEncodedChannel c s t := by
  have hruns := holdsEncoding_runs hs
  obtain ⟨hdc, hndist, hinv, htlen, htuple⟩ := hs
  obtain ⟨hdc', hndist', hinv', htlen', htuple'⟩ := ht
  rw [hp] at hndist' hinv' htuple'
  refine ⟨?_, fun k hk => ?_, fun k hk => ?_, fun k hk => ?_⟩
  · have hd : (t.head c).dc = (s.head c).dc := hdc'.trans hdc.symm
    have ht : (t.head c).tlen = (s.head c).tlen := BitVec.eq_of_toNat_eq (htlen'.trans htlen.symm)
    have hn : (t.head c).ndist = (s.head c).ndist := BitVec.eq_of_toNat_eq (hndist'.trans hndist.symm)
    calc t.head c = ⟨(t.head c).dc, (t.head c).tlen, (t.head c).ndist⟩ := rfl
      _ = s.head c := by rw [hd, ht, hn]
  · obtain ⟨v, r, hrun⟩ := hruns.exists_run hk
    obtain ⟨hcode, hv⟩ := List.getElem?_eq_some_iff.1 (htuple k v r hrun).1
    obtain ⟨hcode', hv'⟩ := List.getElem?_eq_some_iff.1 (htuple' k v r hrun).1
    exact BitVec.eq_of_toNat_eq ((canonOrder_nodup _ _).getElem_inj_iff.1 (hv'.trans hv.symm))
  · obtain ⟨v, r, hrun⟩ := hruns.exists_run hk
    exact BitVec.eq_of_toNat_eq ((htuple' k v r hrun).2.trans (htuple k v r hrun).2.symm)
  · have hk' := List.getElem?_eq_getElem (hndist ▸ hk)
    rw [hinv k _ hk', hinv' k _ hk']

end

end Sys2Proof.Machine
end

section
/-! PROOFS. ENCODE_BLOCK (44_block_codec.md R160): one channel's three commits leave its lane's encoding and touch its own
windows alone, so the channels do not disturb each other. -/

namespace Sys2Proof.Machine
open Sys2Proof

/-! ### One channel's commits, one after another -/

/-- A legal build and a LEN in 1..N_MAX (60_exceptions.md R207). -/
structure LenFits (s : State) (n : Nat) : Prop where
  legal : legalBuild s.params = true
  pos : 1 ≤ n
  le : n ≤ s.params.nMax

theorem LenFits.of_onlyData {s t : State} {n : Nat} (h : LenFits s n) (ht : onlyData s t) : LenFits t n :=
  ⟨by rw [ht.params]; exact h.legal, h.pos, by rw [ht.params]; exact h.le⟩

theorem runningWithLen_fits {s : State} {n : Nat} (h : runningWithLen s n) : LenFits s n := by
  obtain ⟨hl, _, h1, hn⟩ := h
  exact ⟨hl, h1, hn⟩

@[simp] theorem commitExtract_params (c : Chan) (n : Nat) (s : State) : (commitExtract c n s).params = s.params := rfl
@[simp] theorem commitBuildTable_params (c : Chan) (n : Nat) (s : State) : (commitBuildTable c n s).params = s.params := rfl
@[simp] theorem commitEncode_params (c : Chan) (n : Nat) (s : State) : (commitEncode c n s).params = s.params := rfl
@[simp] theorem encodeChannel_params (c : Chan) (n : Nat) (s : State) : (encodeChannel c n s).params = s.params := by
  simp [encodeChannel]

section
variable {s : State} {c : Chan} {n : Nat}

theorem acSeq_commitExtract : (commitExtract c n s).acSeq c n = acOfInput c n s :=
  List.map_congr_left fun i hi => seq_commitExtract (by have := List.mem_range.1 hi; omega)

theorem acSeq_commitBuildTable (h : LenFits s n) : (commitBuildTable c n s).acSeq c n = s.acSeq c n :=
  acSeq_congr fun _ hi => seq_commitBuildTable h.legal c (hi.trans_le h.le)

/-- RLE_ENCODE's commit keeps SEQ, which lies below the tuples. -/
theorem seq_commitEncode (hl : legalBuild s.params = true) (d : Chan) {i : Nat} (hi : i < s.params.nMax) :
    (commitEncode c n s).seq d i = s.seq d i := by
  have hseq := seqAddr_bounds (c := d) hl hi
  have hd := Chan.idx_lt d
  have hbase := encBase_bounds c
  refine State.coef_congr (commitEncode_params c n s) fun b _ hb => byte_commitEncode fun ha => ?_
  rw [commitEncode_params] at hb
  unfold tupAddr at ha
  omega

/-- The sequence and the table that the third stage finds (R160: each stage reads what its predecessor wrote). -/
theorem before_commitEncode (h : LenFits s n) :
    (∀ i, i < n → (commitBuildTable c n (commitExtract c n s)).seq c i = norm s.params (s.blkIn c i)) ∧
      (commitBuildTable c n (commitExtract c n s)).acSeq c n = acOfInput c n s ∧
      HoldsTable c (commitBuildTable c n (commitExtract c n s)) (canonOrder s.params (acOfInput c n s)) := by
  have h' : LenFits (commitExtract c n s) n := h.of_onlyData (onlyData_commitExtract c n s)
  refine ⟨fun i hi => ?_, ?_, ?_⟩
  · rw [seq_commitBuildTable h'.legal c (hi.trans_le h'.le), seq_commitExtract hi]
  · rw [acSeq_commitBuildTable h', acSeq_commitExtract]
  · have htable := holdsTable_commitBuildTable (c := c) h'.legal h'.le
    rw [acSeq_commitExtract, commitExtract_params] at htable
    exact htable

/-- The bytes that ENCODE_BLOCK stores for channel c: SEQ, and the table and the tuples of its lane of BLK_IN. -/
def encodeTouches (c : Chan) (n : Nat) (s : State) (a : Nat) : Prop :=
  inEncodeFootprint s.params c n (canonOrder s.params (acOfInput c n s)).length (runs (acOfInput c n s)).length a

/-- Every byte outside the used parts of the channel's SEQ, INV and TUP is as before (30_encoding.md R111). -/
theorem byte_encodeChannel {a : Nat} (h : LenFits s n) (ha : ¬encodeTouches c n s a) :
    (encodeChannel c n s).byte a = s.byte a := by
  obtain ⟨_, hac, _⟩ := before_commitEncode (c := c) h
  simp only [encodeTouches, inEncodeFootprint, not_or] at ha
  obtain ⟨hseq, hinv, htup⟩ := ha
  rw [encodeChannel, byte_commitEncode (by rw [hac]; exact htup),
    byte_commitBuildTable (by rw [acSeq_commitExtract, commitExtract_params]; exact hinv), byte_commitExtract hseq]

/-- What ENCODE_BLOCK leaves in channel c of `t` for lane c of the BLK_IN of `s`: the normalised sequence and its
encoding. -/
structure EncodesLane (c : Chan) (n : Nat) (s t : State) : Prop where
  seq : ∀ i, i < n → t.seq c i = norm s.params (s.blkIn c i)
  encoding : holdsEncoding c t (norm s.params (s.blkIn c 0)) (acOfInput c n s)

/-- RLE_ENCODE finds every value of the lane in the table just built, and keeps the sequence and the table. -/
theorem encodesLane_encodeChannel (h : LenFits s n) : EncodesLane c n s (encodeChannel c n s) := by
  obtain ⟨hseq, hac, htable⟩ := before_commitEncode (c := c) h
  have h' : LenFits (commitBuildTable c n (commitExtract c n s)) n :=
    h.of_onlyData ((onlyData_commitExtract c n s).trans (onlyData_commitBuildTable c n _))
  have hruns := holdsRuns_commitEncode (c := c) h'.legal h'.le
    (HoldsTable.encodable (p := s.params) (by rw [hac]; exact htable))
  rw [hac, hseq 0 h.pos] at hruns
  have htable' := holdsTable_commitEncode h'.legal h'.le htable
  refine ⟨fun i hi => ?_, ?_⟩
  · rw [encodeChannel, seq_commitEncode h'.legal c (hi.trans_le h'.le), hseq i hi]
  · exact holdsEncoding_of_holdsTable (by rw [encodeChannel_params]; exact htable') hruns

theorem acOfInput_length (c : Chan) (n : Nat) (s : State) : (acOfInput c n s).length = n - 1 := by
  simp [acOfInput]

end

/-! ### The windows of a channel (20_memory.md R66, R69, R70) -/

/-- The SEQ and the ENC sub-window of channel c. -/
def inChannelWindows (c : Chan) (a : Nat) : Prop :=
  (0x030000 + 0x2000 * Chan.idx c ≤ a ∧ a < 0x030000 + 0x2000 * (Chan.idx c + 1)) ∨
    (encBase c ≤ a ∧ a < encBase c + 0x4000)

theorem inChannelWindows_apart {c d : Chan} (h : c ≠ d) {a : Nat} (ha : inChannelWindows c a) : ¬inChannelWindows d a := by
  have hbase := encBase_apart h
  have hidx : Chan.idx c ≠ Chan.idx d := fun e => h (Chan.idx_inj e)
  have hc := Chan.idx_lt c
  have hd := Chan.idx_lt d
  have hc' := encBase_bounds c
  have hd' := encBase_bounds d
  unfold inChannelWindows at ha ⊢
  omega

/-- A lane's encoding has at most CAP tuples and at most CAP table entries. -/
theorem acOfInput_lengths_le_cap {s : State} {n : Nat} (h : n ≤ s.params.nMax) (c : Chan) (u : State) (p : Params) :
    (runs (acOfInput c n u)).length ≤ cap s.params ∧ (canonOrder p (acOfInput c n u)).length ≤ cap s.params := by
  have hac : (acOfInput c n u).length ≤ cap s.params := (acOfInput_length c n u).trans_le (pred_le_cap h)
  exact ⟨(runs_length_le _).trans hac, (canonOrder_length_le p _).trans hac⟩

/-- The stores of a channel's encode stages lie in the channel's windows. -/
theorem inChannelWindows_of_encodeTouches {s : State} {c : Chan} {n a : Nat} (h : LenFits s n)
    (ha : encodeTouches c n s a) : inChannelWindows c a := by
  have hcap := cap_lt h.legal
  have hbytes := coefBytes_mul_nMax_le h.legal
  obtain ⟨hruns, htable⟩ := acOfInput_lengths_le_cap h.le c s s.params
  have hinv : coefBytes s.params * cap s.params ≤ coefBytes s.params * s.params.nMax :=
    Nat.mul_le_mul_left _ (by omega)
  have hseq : coefBytes s.params * n ≤ coefBytes s.params * s.params.nMax := Nat.mul_le_mul_left _ h.le
  unfold inChannelWindows
  rcases ha with ha | ha | ha
  · rw [Nat.mul_comm n] at ha
    unfold seqAddr at ha
    omega
  · have := mem_inv_bounds htable ha
    omega
  · have := mem_tup_bounds hruns ha
    omega

/-- Outside a channel's windows its encode stages leave every byte as before. -/
theorem byte_encodeChannel_of_not_window {s : State} {c : Chan} {n a : Nat} (h : LenFits s n)
    (ha : ¬inChannelWindows c a) : (encodeChannel c n s).byte a = s.byte a :=
  byte_encodeChannel h fun ht => ha (inChannelWindows_of_encodeTouches h ht)

/-- The encode stages keep BLK_IN, which lies below all their windows. -/
theorem blkIn_encodeChannel {s : State} {c : Chan} {n : Nat} (h : LenFits s n) (d : Chan) {i : Nat} (hi : i < n) :
    (encodeChannel c n s).blkIn d i = s.blkIn d i := by
  have hin := blkInAddr_bounds (c := d) h.legal (hi.trans_le h.le)
  have hbase := encBase_bounds c
  unfold State.blkIn
  rw [encodeChannel_params]
  refine State.coef_congr (encodeChannel_params c n s) fun b _ hb => byte_encodeChannel_of_not_window h fun ha => ?_
  unfold inChannelWindows at ha
  omega

theorem head_encodeChannel_of_ne {s : State} {c d : Chan} {n : Nat} (h : d ≠ c) :
    (encodeChannel c n s).head d = s.head d := by
  rw [encodeChannel, head_commitEncode, if_neg h, head_commitBuildTable, if_neg h, commitExtract, State.head_store]

/-! ### What one channel's encode stages leave of another channel -/

/-- The AC list of a lane depends on the build and the lane's first n elements. -/
theorem acOfInput_congr {s s' : State} {c : Chan} {n : Nat} (hp : s'.params = s.params)
    (hin : ∀ i, i < n → s'.blkIn c i = s.blkIn c i) : acOfInput c n s' = acOfInput c n s :=
  List.map_congr_left fun i hi => by rw [hp, hin (i + 1) (by have := List.mem_range.1 hi; omega)]

/-- What is left for a lane depends on the build and the lane's first n elements. -/
theorem EncodesLane.of_sameLane {s s' t : State} {c : Chan} {n : Nat} (h1 : 1 ≤ n) (hp : s'.params = s.params)
    (hin : ∀ i, i < n → s'.blkIn c i = s.blkIn c i) (h : EncodesLane c n s' t) : EncodesLane c n s t := by
  obtain ⟨hseq, henc⟩ := h
  rw [acOfInput_congr hp hin, hp, hin 0 h1] at henc
  exact ⟨fun i hi => by rw [hseq i hi, hp, hin i hi], henc⟩

/-- It stays where the sequence and the Encoded Channel do. -/
theorem EncodesLane.of_sameEncodedChannel {s t u : State} {c : Chan} {n : Nat} (h : EncodesLane c n s t)
    (hp : u.params = t.params) (hseq : ∀ i, i < n → u.seq c i = t.seq c i) (hsame : SameEncodedChannel c t u) :
    EncodesLane c n s u :=
  ⟨fun i hi => (hseq i hi).trans (h.seq i hi), hsame.holdsEncoding hp h.encoding⟩

theorem SameReads.encodesLane {s t u : State} {c : Chan} {n : Nat} (hsame : SameReads t u) (h : EncodesLane c n s t) :
    EncodesLane c n s u :=
  h.of_sameEncodedChannel hsame.params (fun i _ => hsame.seq c i) (hsame.sameEncodedChannel c)

/-- The encode stages of another channel keep it. -/
theorem EncodesLane.encodeChannel {s t : State} {c d : Chan} {n : Nat} (hd : c ≠ d) (ht : LenFits t n)
    (h : EncodesLane c n s t) : EncodesLane c n s (encodeChannel d n t) := by
  have hp := encodeChannel_params d n t
  have hkeep : ∀ a, inChannelWindows c a → (Machine.encodeChannel d n t).byte a = t.byte a := fun a ha =>
    byte_encodeChannel_of_not_window ht (inChannelWindows_apart hd ha)
  obtain ⟨hruns, htable⟩ := acOfInput_lengths_le_cap ht.le c s t.params
  obtain ⟨_, hndist, _, htlen, _⟩ := h.encoding
  have hchannel : SameChannel c t (Machine.encodeChannel d n t) :=
    ⟨hp, head_encodeChannel_of_ne hd, fun a ha hb => hkeep a (.inr ⟨ha, hb⟩)⟩
  refine h.of_sameEncodedChannel hp (fun i hi => ?_)
    (hchannel.sameEncodedChannel ht.legal (htlen.trans_le hruns) (hndist.trans_le htable))
  have hseq := seqAddr_bounds (c := c) ht.legal (hi.trans_le ht.le)
  unfold State.seq
  rw [hp]
  exact State.coef_congr hp fun b hb hb' => hkeep b (.inl (by omega))

/-! ### The channels, one after another -/

/-- The encode stages of several channels, in the order of the list. -/
def encodeChannels (n : Nat) : List Chan → State → State
  | [], s => s
  | c :: cs, s => encodeChannels n cs (encodeChannel c n s)

/-- ENCODE_BLOCK's commit is that of all channels (R160). -/
theorem commitEncodeBlock_eq (n : Nat) (s : State) : commitEncodeBlock n s = encodeChannels n Chan.all s := rfl

theorem LenFits.encodeChannel {s : State} {n : Nat} (h : LenFits s n) (c : Chan) : LenFits (encodeChannel c n s) n :=
  h.of_onlyData (onlyData_encodeChannel c n s)

theorem EncodesLane.encodeChannels {s t : State} {c : Chan} {n : Nat} {cs : List Chan} (hc : c ∉ cs) (ht : LenFits t n)
    (h : EncodesLane c n s t) : EncodesLane c n s (encodeChannels n cs t) := by
  induction cs generalizing t with
  | nil => exact h
  | cons d cs ih =>
    rw [List.mem_cons, not_or] at hc
    exact ih hc.2 (ht.encodeChannel d) (h.encodeChannel hc.1 ht)

/-- Each channel of the list holds its lane's encoding: its own stages leave it, and the ones after them keep it. -/
theorem encodesLane_encodeChannels {s : State} {c : Chan} {n : Nat} {cs : List Chan} (hcs : cs.Nodup) (hc : c ∈ cs)
    (h : LenFits s n) : EncodesLane c n s (encodeChannels n cs s) := by
  induction cs generalizing s with
  | nil => exact absurd hc List.not_mem_nil
  | cons d cs ih =>
    obtain ⟨hd, hcs⟩ := List.nodup_cons.1 hcs
    rw [encodeChannels]
    rcases List.mem_cons.1 hc with heq | hc
    · subst heq
      exact (encodesLane_encodeChannel h).encodeChannels hd (h.encodeChannel c)
    · exact (ih hcs hc (h.encodeChannel d)).of_sameLane h.pos (encodeChannel_params d n s) fun i =>
        blkIn_encodeChannel h c

/-- A byte that no channel of the list stores is as before. -/
theorem byte_encodeChannels {s : State} {n a : Nat} {cs : List Chan} (h : LenFits s n)
    (ha : ∀ c ∈ cs, ¬encodeTouches c n s a) : (encodeChannels n cs s).byte a = s.byte a := by
  induction cs generalizing s with
  | nil => rfl
  | cons d cs ih =>
    have hrest : ∀ c ∈ cs, ¬encodeTouches c n (encodeChannel d n s) a := fun c hc => by
      rw [encodeTouches, encodeChannel_params,
        acOfInput_congr (encodeChannel_params d n s) fun i => blkIn_encodeChannel h c]
      exact ha c (List.mem_cons_of_mem _ hc)
    exact (ih (h.encodeChannel d) hrest).trans (byte_encodeChannel h (ha d List.mem_cons_self))

/-! ### ENCODE_BLOCK (R160) -/

theorem Chan.nodup_all : Chan.all.Nodup := by decide

/-- With LEN legal, ENCODE_BLOCK completes its commit. -/
theorem exec_encodeBlock_of_running {s : State} {n : Nat} (tag : Half) (h : runningWithLen s n) :
    exec (.encodeBlock tag) s = .next (complete tag (commit (commitEncodeBlock n s))) := by
  change execEncodeBlock tag s = _
  rw [execEncodeBlock, withLen_of_running h]

/-- With LEN legal, ENCODE_BLOCK leaves every lane's encoding. -/
theorem encodesLane_of_encodeBlock {s : State} {n : Nat} (tag : Half) (h : runningWithLen s n) (c : Chan) :
    EncodesLane c n s (complete tag (commit (commitEncodeBlock n s))) := by
  rw [commitEncodeBlock_eq]
  exact (sameReads_complete_commit tag _).encodesLane
    (encodesLane_encodeChannels Chan.nodup_all (Chan.mem_all c) (runningWithLen_fits h))

/-- What ENCODE_BLOCK answers. -/
theorem exec_encodeBlock_encodes {s : State} {n : Nat} (tag : Half) (h : runningWithLen s n) :
    ∃ t, exec (.encodeBlock tag) s = .next t ∧ completedOk s t ∧ ∀ c, EncodesLane c n s t :=
  ⟨_, exec_encodeBlock_of_running tag h, completedOk_commit tag (onlyData_commitEncodeBlock n s),
    encodesLane_of_encodeBlock tag h⟩

/-- Settles O11: every channel's encode stages leave its lane's encoding, later channels keep it, and all stores lie in the
used parts. -/
theorem encodeBlockEncodesEveryChannel : Obligations.EncodeBlockEncodesEveryChannel := by
  intro s n tag h
  refine ⟨_, exec_encodeBlock_of_running tag h, completedOk_commit tag (onlyData_commitEncodeBlock n s), fun c => ?_,
    fun a ha => ?_⟩
  · have hlane := encodesLane_of_encodeBlock tag h c
    exact ⟨hlane.seq, hlane.encoding⟩
  · rw [State.byte_complete, commit_after, commitEncodeBlock_eq]
    exact byte_encodeChannels (runningWithLen_fits h) fun c _ => ha c

end Sys2Proof.Machine
end

section
/-! PROOFS. Degenerate and all-distinct channels (44_block_codec.md R164): the runs and the canonical order of an AC list of
one value, and of one without repetition. -/

namespace Sys2Proof.Machine
open Sys2Proof

/-! ### One value -/

theorem runs_replicate (v : Coef) {m : Nat} (hm : 1 ≤ m) : runs (List.replicate m v) = [(v, m)] := by
  have h := runs_replicate_append v m hm [] (by simp [runs])
  rwa [List.append_nil] at h

theorem canonOrder_replicate (p : Params) (v : Coef) {m : Nat} (hm : 1 ≤ m) : canonOrder p (List.replicate m v) = [v] := by
  rw [canonOrder, List.replicate_dedup (by omega)]
  rfl

/-- One run of one value: a single tuple (0, m), and a single table entry. -/
theorem holdsEncoding_replicate {s : State} {c : Chan} {dc v : Coef} {m : Nat} (hm : 1 ≤ m)
    (h : holdsEncoding c s dc (List.replicate m v)) :
    (s.head c).tlen = 1 ∧ (s.head c).ndist = 1 ∧ s.tupCode c 0 = 0 ∧ (s.tupRun c 0).toNat = m := by
  obtain ⟨_, hndist, _, htlen, htuple⟩ := h
  rw [canonOrder_replicate s.params v hm] at hndist htuple
  rw [runs_replicate v hm] at htlen htuple
  obtain ⟨hcode, hrun⟩ := htuple 0 v m rfl
  obtain ⟨hlt, _⟩ := List.getElem?_eq_some_iff.1 hcode
  exact ⟨BitVec.eq_of_toNat_eq htlen, BitVec.eq_of_toNat_eq hndist,
    BitVec.eq_of_toNat_eq (Nat.lt_one_iff.1 hlt), hrun⟩

/-! ### Pairwise different values -/

theorem runs_of_nodup {l : List Coef} (h : l.Nodup) : runs l = l.map fun v => (v, 1) := by
  have hexpand : expand (l.map fun v => (v, 1)) = l := by
    simp [expand, List.flatMap_map]
  have hchain : (l.map fun v => (v, 1)).IsChain fun a b : Coef × Nat => a.1 ≠ b.1 :=
    (List.isChain_map _).2 h.isChain
  have h1 : ∀ r ∈ l.map fun v => (v, 1), 1 ≤ r.2 := fun r hr => by
    obtain ⟨v, _, rfl⟩ := List.mem_map.1 hr
    exact le_rfl
  rw [← runs_unique h1 hchain, hexpand]

theorem canonOrder_length_of_nodup (p : Params) {l : List Coef} (h : l.Nodup) : (canonOrder p l).length = l.length := by
  rw [canonOrder_length, h.dedup]

/-- Where each value occurs once, the canonical order is that of the keys. -/
theorem canonOrder_keys_of_nodup (p : Params) {l : List Coef} (hl : inWidth p l) (h : l.Nodup) :
    (canonOrder p l).Pairwise fun u v => key p u < key p v := by
  refine (canonOrder_pairwise p hl).imp_of_mem fun {u v} hu hv huv => ?_
  have hcu := List.count_eq_one_of_mem h (mem_canonOrder.1 hu)
  have hcv := List.count_eq_one_of_mem h (mem_canonOrder.1 hv)
  rw [canonBefore_iff] at huv
  omega

/-- Values that all differ: one tuple of run 1 for each, and the table in ascending key. -/
theorem holdsEncoding_nodup {s : State} {c : Chan} {dc : Coef} {ac : List Coef} (hw : inWidth s.params ac) (hac : ac.Nodup)
    (h : holdsEncoding c s dc ac) :
    (s.head c).tlen.toNat = ac.length ∧ (s.head c).ndist.toNat = ac.length ∧
      (∀ k, k < ac.length → s.tupRun c k = 1) ∧
      ∀ j k, j < k → k < ac.length → key s.params (s.inv c j) < key s.params (s.inv c k) := by
  obtain ⟨_, hndist, hinv, htlen, htuple⟩ := h
  have hlen := canonOrder_length_of_nodup s.params hac
  rw [runs_of_nodup hac] at htlen htuple
  rw [List.length_map] at htlen
  refine ⟨htlen, hndist.trans hlen, fun k hk => ?_, fun j k hj hk => ?_⟩
  · obtain ⟨_, hrun⟩ := htuple k ac[k] 1 (by simp [hk])
    exact BitVec.eq_of_toNat_eq hrun
  · rw [← hlen] at hk
    rw [hinv j _ (List.getElem?_eq_getElem (hj.trans hk)), hinv k _ (List.getElem?_eq_getElem hk)]
    exact List.pairwise_iff_getElem.1 (canonOrder_keys_of_nodup s.params hw hac) j k _ hk hj

/-! ### The AC lists of the claim -/

theorem acSeq_eq_replicate {s : State} {c : Chan} {n : Nat} (h : ∀ i, 1 ≤ i → i < n → s.seq c i = s.seq c 1) :
    s.acSeq c n = List.replicate (n - 1) (s.seq c 1) := by
  refine List.eq_replicate_iff.2 ⟨acSeq_length s c n, fun v hv => ?_⟩
  obtain ⟨i, h1, hi, rfl⟩ := mem_acSeq.1 hv
  exact h i h1 hi

theorem acSeq_nodup {s : State} {c : Chan} {n : Nat} (h : ∀ i j, 1 ≤ i → i < j → j < n → s.seq c i ≠ s.seq c j) :
    (s.acSeq c n).Nodup := by
  refine List.pairwise_map.2 (List.pairwise_lt_range.imp_of_mem fun {i j} _ hj hij => ?_)
  have hj' := List.mem_range.1 hj
  exact h (i + 1) (j + 1) (by omega) (by omega) (by omega)

theorem EncodesLane.acSeq {s t : State} {c : Chan} {n : Nat} (h : EncodesLane c n s t) : t.acSeq c n = acOfInput c n s :=
  List.map_congr_left fun i hi => h.seq (i + 1) (by have := List.mem_range.1 hi; omega)

/-- Settles O36: ENCODE_BLOCK leaves the encoding of each channel's own AC sequence; its runs sum to the sequence's length,
and the two kinds of sequence have the runs and the canonical order above. -/
theorem degenerateAndDistinctChannels : Obligations.DegenerateAndDistinctChannels := by
  intro s n tag h h2
  obtain ⟨t, hexec, _, hlane⟩ := exec_encodeBlock_encodes tag h
  refine ⟨t, hexec, fun c => ?_⟩
  have henc := (hlane c).encoding
  rw [← (hlane c).acSeq] at henc
  refine ⟨?_, fun hone => ?_, fun hdistinct => ?_⟩
  · rw [(holdsEncoding_runs henc).totalRun_eq, acSeq_length]
  · rw [acSeq_eq_replicate hone] at henc
    exact holdsEncoding_replicate (by omega) henc
  · have hvalues := holdsEncoding_nodup (acSeq_inWidth t c n) (acSeq_nodup hdistinct) henc
    rw [acSeq_length] at hvalues
    exact hvalues

end Sys2Proof.Machine
end

section
/-! PROOFS. DECODE_BLOCK (44_block_codec.md R161): each channel is checked on its own and writes its own lane alone, so the
passing channels decode as if there were no others, and the failing ones are reported together (60_exceptions.md R214). -/

namespace Sys2Proof.Machine
open Sys2Proof

/-! ### One channel -/

section
variable {c : Chan} {n : Nat} {x : Execution}

theorem decodeChannel_of_decodable (h : decodable c n x.after) :
    decodeChannel c n x = { x with after := commitDecode c x.after } := by
  rw [decodeChannel, decodeCheck_eq_none.2 h]

theorem decodeChannel_of_error {e : CmdError} (h : decodeCheck c n x.after = some e) :
    decodeChannel c n x = { x with errs := x.errs ++ [e] } := by
  rw [decodeChannel, h]

/-- A channel that does not pass writes nothing. -/
theorem decodeChannel_after_of_not_decodable (h : ¬decodable c n x.after) : (decodeChannel c n x).after = x.after := by
  rw [← decodeCheck_eq_none, ← ne_eq, Option.ne_none_iff_exists'] at h
  obtain ⟨e, he⟩ := h
  rw [decodeChannel_of_error he]

theorem decodeChannel_errs (c : Chan) (n : Nat) (x : Execution) :
    (decodeChannel c n x).errs = x.errs ++ (decodeCheck c n x.after).toList := by
  cases h : decodeCheck c n x.after with
  | none => rw [decodeChannel_of_decodable (decodeCheck_eq_none.1 h), Option.toList_none, List.append_nil]
  | some e => rw [decodeChannel_of_error h, Option.toList_some]

theorem decodeChannel_enc (c : Chan) (n : Nat) (x : Execution) : (decodeChannel c n x).after.enc = x.after.enc := by
  by_cases h : decodable c n x.after
  · rw [decodeChannel_of_decodable h, commitDecode, State.store_enc]
  · rw [decodeChannel_after_of_not_decodable h]

/-- A byte outside the lane of a channel that passes is as before. -/
theorem byte_decodeChannel {a : Nat} (h1 : 1 ≤ n) (ha : decodable c n x.after → ¬inLane x.after.params c n a) :
    (decodeChannel c n x).after.byte a = x.after.byte a := by
  by_cases h : decodable c n x.after
  · rw [decodeChannel_of_decodable h]
    exact byte_commitDecode_of_decodable h1 h (ha h)
  · rw [decodeChannel_after_of_not_decodable h]

/-- One channel leaves every Encoded Channel: ENC lies above BLK_OUT. -/
theorem sameEncodedChannel_decodeChannel (h : LenFits x.after n) (c d : Chan) :
    SameEncodedChannel d x.after (decodeChannel c n x).after := by
  refine sameEncodedChannel_of_bytes (onlyData_decodeChannel c n x).params (decodeChannel_enc c n x) (fun a ha => ?_) d
  have hbytes := coefBytes_mul_nMax_le h.legal
  refine byte_decodeChannel h.pos fun _ hin => ?_
  have hbounds := inLane_bounds h.legal h.le hin
  omega

/-- A channel that passes leaves its decoded lane (43_rle_decode.md R151). -/
theorem laneIs_decodeChannel (hd : decodable c n x.after) (hdc : (x.after.head c).dc.toNat < 2 ^ coefW x.after.params) :
    laneIs c (decodeChannel c n x).after (decodedLane c x.after) := fun i v hv => by
  rw [decodeChannel_of_decodable hd]
  exact blkOut_commitDecode hv hdc

end

/-! ### The lanes of BLK_OUT lie apart (20_memory.md R68) -/

theorem blkOutAddr_apart {p : Params} {c d : Chan} (h : c ≠ d) (i j : Nat) :
    blkOutAddr p c i + coefBytes p ≤ blkOutAddr p d j ∨ blkOutAddr p d j + coefBytes p ≤ blkOutAddr p c i := by
  have hidx : Chan.idx c ≠ Chan.idx d := fun e => h (Chan.idx_inj e)
  have hc := Chan.idx_lt c
  have hd := Chan.idx_lt d
  unfold blkOutAddr
  rcases coefBytes_cases p with hb | hb <;> rw [hb] <;> omega

/-- One channel leaves the lanes of the others. -/
theorem laneIs_decodeChannel_of_ne {c d : Chan} {n : Nat} {x : Execution} {vs : List Coef} (h : c ≠ d) (h1 : 1 ≤ n)
    (hlane : laneIs c x.after vs) : laneIs c (decodeChannel d n x).after vs := fun i v hv => by
  have hp := (onlyData_decodeChannel d n x).params
  rw [← hlane i v hv]
  unfold State.blkOut
  rw [hp]
  refine State.coef_congr hp fun b hb hb' => byte_decodeChannel h1 fun _ ⟨j, _, hj, hj'⟩ => ?_
  have hapart := blkOutAddr_apart (p := x.after.params) h i j
  omega

/-! ### The channels, one after another -/

/-- Several channels of DECODE_BLOCK, in the order of the list. -/
def decodeLanes (n : Nat) : List Chan → Execution → Execution
  | [], x => x
  | c :: cs, x => decodeLanes n cs (decodeChannel c n x)

/-- DECODE_BLOCK's channels are all of them (R161). -/
theorem decodeChannels_eq (n : Nat) (s : State) : decodeChannels n s = decodeLanes n Chan.all (commit s) := rfl

section
variable {n : Nat} {x : Execution}

theorem LenFits.decodeChannel (h : LenFits x.after n) (c : Chan) : LenFits (decodeChannel c n x).after n :=
  h.of_onlyData (onlyData_decodeChannel c n x)

theorem decodeLanes_enc (n : Nat) (cs : List Chan) (x : Execution) : (decodeLanes n cs x).after.enc = x.after.enc := by
  induction cs generalizing x with
  | nil => rfl
  | cons c cs ih => rw [decodeLanes, ih, decodeChannel_enc]

/-- The errors are those of the channels' own checks, in order. -/
theorem decodeLanes_errs (h : LenFits x.after n) (cs : List Chan) :
    (decodeLanes n cs x).errs = x.errs ++ cs.filterMap fun c => decodeCheck c n x.after := by
  induction cs generalizing x with
  | nil => rw [decodeLanes, List.filterMap_nil, List.append_nil]
  | cons c cs ih =>
    have hcheck : (fun d => decodeCheck d n (decodeChannel c n x).after) = fun d => decodeCheck d n x.after :=
      funext fun d => (sameEncodedChannel_decodeChannel h c d).decodeCheck
    rw [decodeLanes, ih (h.decodeChannel c), hcheck, decodeChannel_errs, List.append_assoc, List.filterMap_cons]
    cases decodeCheck c n x.after <;> rfl

/-- A byte outside the lanes of the channels that pass is as before. -/
theorem byte_decodeLanes {a : Nat} {cs : List Chan} (h : LenFits x.after n)
    (ha : ∀ c ∈ cs, decodable c n x.after → ¬inLane x.after.params c n a) :
    (decodeLanes n cs x).after.byte a = x.after.byte a := by
  induction cs generalizing x with
  | nil => rfl
  | cons c cs ih =>
    have hrest : ∀ d ∈ cs, decodable d n (decodeChannel c n x).after →
        ¬inLane (decodeChannel c n x).after.params d n a := fun d hd hpass => by
      rw [(onlyData_decodeChannel c n x).params]
      exact ha d (List.mem_cons_of_mem _ hd) ((sameEncodedChannel_decodeChannel h c d).decodable.1 hpass)
    rw [decodeLanes, ih (h.decodeChannel c) hrest, byte_decodeChannel h.pos (ha c List.mem_cons_self)]

theorem laneIs_decodeLanes_of_not_mem {c : Chan} {cs : List Chan} {vs : List Coef} (hc : c ∉ cs) (h1 : 1 ≤ n)
    (hlane : laneIs c x.after vs) : laneIs c (decodeLanes n cs x).after vs := by
  induction cs generalizing x with
  | nil => exact hlane
  | cons d cs ih =>
    rw [List.mem_cons, not_or] at hc
    rw [decodeLanes]
    exact ih hc.2 (laneIs_decodeChannel_of_ne hc.1 h1 hlane)

/-- Each passing channel of the list leaves its decoded lane: its own turn writes it, and the ones after it keep it. -/
theorem laneIs_decodeLanes {c : Chan} {cs : List Chan} (hcs : cs.Nodup) (hc : c ∈ cs) (h : LenFits x.after n)
    (hd : decodable c n x.after) (hdc : (x.after.head c).dc.toNat < 2 ^ coefW x.after.params) :
    laneIs c (decodeLanes n cs x).after (decodedLane c x.after) := by
  induction cs generalizing x with
  | nil => exact absurd hc List.not_mem_nil
  | cons d cs ih =>
    obtain ⟨hdcs, hcs⟩ := List.nodup_cons.1 hcs
    rw [decodeLanes]
    rcases List.mem_cons.1 hc with heq | hc
    · subst heq
      exact laneIs_decodeLanes_of_not_mem hdcs h.pos (laneIs_decodeChannel hd hdc)
    · have hsame := sameEncodedChannel_decodeChannel h d c
      rw [← hsame.decodedLane hd]
      refine ih hcs hc (h.decodeChannel d) (hsame.decodable.2 hd) ?_
      rw [hsame.head, (onlyData_decodeChannel d n x).params]
      exact hdc

end

/-! ### DECODE_BLOCK (R161) -/

/-- With LEN legal, DECODE_BLOCK completes its channels. -/
theorem exec_decodeBlock_of_running {s : State} {n : Nat} (tag : Half) (h : runningWithLen s n) :
    exec (.decodeBlock tag) s = .next (complete tag (decodeLanes n Chan.all (commit s))) := by
  change execDecodeBlock tag s = _
  rw [execDecodeBlock, withLen_of_running h, decodeChannels_eq]

/-- The failures of all channels start with that of the lowest failing one (60_exceptions.md R214). -/
theorem filterMap_all_of_lowest {f : Chan → Option CmdError} {c : Chan} {e : CmdError} (he : f c = some e)
    (hlow : ∀ d, Chan.idx d < Chan.idx c → f d = none) : ∃ es, Chan.all.filterMap f = e :: es := by
  cases c with
  | y => exact ⟨_, List.filterMap_cons_some he⟩
  | cr => exact ⟨_, by rw [Chan.all, List.filterMap_cons_none (hlow .y (by decide)), List.filterMap_cons_some he]⟩
  | cb =>
    exact ⟨_, by rw [Chan.all, List.filterMap_cons_none (hlow .y (by decide)),
      List.filterMap_cons_none (hlow .cr (by decide)), List.filterMap_cons_some he]⟩

theorem filterMap_all_of_none {f : Chan → Option CmdError} (h : ∀ c, f c = none) : Chan.all.filterMap f = [] :=
  List.filterMap_eq_nil_iff.2 fun c _ => h c

theorem completedOk_of_no_errors {s : State} {x : Execution} (slot : Half) (h : onlyData s x.after) (he : x.errs = []) :
    completedOk s (complete slot x) := by
  obtain ⟨t, errs⟩ := x
  cases he
  exact completedOk_commit slot h

/-- A command that checks every channel and fails records the lowest failing channel's error and the mask of all (R214). -/
theorem completedErr_lowest {s : State} {x : Execution} {f : Chan → Option CmdError} {c : Chan} {e : CmdError} (slot : Half)
    (h : onlyData s x.after) (herrs : x.errs = Chan.all.filterMap f)
    (hf : ∀ d e', f d = some e' → e'.cause.isData = true ∧ e'.ch = Chan.field d) (he : f c = some e)
    (hlow : ∀ d, Chan.idx d < Chan.idx c → f d = none) :
    completedErr s (complete slot x) (lowestRecord slot (fun d => (f d).isSome) c e) := by
  obtain ⟨es, hes⟩ := filterMap_all_of_lowest he hlow
  have hrecord := completedErr_complete slot h e es (herrs.trans hes)
  rw [herrs, chMask_filterMap f hf, (hf c e he).2] at hrecord
  exact hrecord

/-- Settles O12: each channel is checked as in the state before the command and writes its lane alone, and the errors are
those of the failing channels in order. -/
theorem decodeBlockWritesThePassingLanes : Obligations.DecodeBlockWritesThePassingLanes := by
  intro s n tag h hdc
  have hfits : LenFits (commit s).after n := runningWithLen_fits h
  have hdata : onlyData s (decodeLanes n Chan.all (commit s)).after := onlyData_decodeChannels n s
  have herrs : (decodeLanes n Chan.all (commit s)).errs = Chan.all.filterMap fun d => decodeCheck d n s :=
    decodeLanes_errs hfits Chan.all
  have hsame := sameReads_complete tag (decodeLanes n Chan.all (commit s))
  refine ⟨_, exec_decodeBlock_of_running tag h, ?_, fun c hd i v hv => ?_, fun a ha => ?_, fun hall => ?_,
    fun c e he hlow => completedErr_lowest tag hdata herrs (fun _ _ => decodeCheck_error) he hlow⟩
  · rw [complete_enc, decodeLanes_enc, commit_after]
  · rw [hsame.blkOut]
    exact laneIs_decodeLanes Chan.nodup_all (Chan.mem_all c) hfits hd (hdc c) i v hv
  · rw [hsame.bytes]
    exact byte_decodeLanes hfits fun c _ => ha c
  · rw [filterMap_all_of_none fun c => decodeCheck_eq_none.2 (hall c)] at herrs
    exact completedOk_of_no_errors tag hdata herrs

end Sys2Proof.Machine
end

section
/-! PROOFS. The block codec as a whole: channel independence (44_block_codec.md R162), the round trip (R163), and ENCODE_BLOCK
as the nine per-channel commands (R160). -/

namespace Sys2Proof.Machine
open Sys2Proof

theorem SameReads.blkIn {s t : State} (h : SameReads s t) (c : Chan) (i : Nat) : t.blkIn c i = s.blkIn c i := by
  obtain ⟨hin, _⟩ := State.elements_congr h.params h.bytes c i
  exact hin

theorem completedOk.params {s t : State} (h : completedOk s t) : t.params = s.params := by
  obtain ⟨⟨hp, _⟩, _⟩ := h
  exact hp

/-! ### Channel independence (R162) -/

/-- States left for one and the same lane hold the same Encoded Channel. -/
theorem EncodesLane.sameEncodedChannel {s t u : State} {c : Chan} {n : Nat} (hp : u.params = t.params)
    (ht : EncodesLane c n s t) (hu : EncodesLane c n s u) : SameEncodedChannel c t u :=
  sameEncodedChannel_of_holdsEncoding hp ht.encoding hu.encoding

/-- ENCODE_BLOCK on agreeing lanes c leaves the same sequence and the same Encoded Channel in c. -/
theorem encodeBlock_of_sameLane {s₁ s₂ : State} {n : Nat} {c : Chan} (tag₁ tag₂ : Half) (h₁ : runningWithLen s₁ n)
    (h₂ : runningWithLen s₂ n) (hp : s₁.params = s₂.params) (hin : ∀ i, i < n → s₁.blkIn c i = s₂.blkIn c i) :
    ∃ t₁ t₂, exec (.encodeBlock tag₁) s₁ = .next t₁ ∧ exec (.encodeBlock tag₂) s₂ = .next t₂ ∧
      SameEncodedChannel c t₁ t₂ ∧ ∀ i, i < n → t₁.seq c i = t₂.seq c i := by
  obtain ⟨t₁, hexec₁, hok₁, hlane₁⟩ := exec_encodeBlock_encodes tag₁ h₁
  obtain ⟨t₂, hexec₂, hok₂, hlane₂⟩ := exec_encodeBlock_encodes tag₂ h₂
  have hlane : EncodesLane c n s₂ t₁ := (hlane₁ c).of_sameLane (runningWithLen_fits h₁).pos hp hin
  refine ⟨t₁, t₂, hexec₁, hexec₂, hlane.sameEncodedChannel (by rw [hok₁.params, hok₂.params, hp]) (hlane₂ c), fun i hi => ?_⟩
  rw [hlane.seq i hi, (hlane₂ c).seq i hi]

/-- DECODE_BLOCK of one decodable Encoded Channel c leaves the same lane c. -/
theorem decodeBlock_of_sameEncodedChannel {s₁ s₂ : State} {n : Nat} {c : Chan} (tag₁ tag₂ : Half) (h₁ : runningWithLen s₁ n)
    (h₂ : runningWithLen s₂ n) (hdc₁ : dcInWidth s₁) (hdc₂ : dcInWidth s₂) (hsame : SameEncodedChannel c s₁ s₂)
    (hd : decodable c n s₁) :
    ∃ t₁ t₂, exec (.decodeBlock tag₁) s₁ = .next t₁ ∧ exec (.decodeBlock tag₂) s₂ = .next t₂ ∧
      ∀ i, i < n → t₁.blkOut c i = t₂.blkOut c i := by
  obtain ⟨t₁, hexec₁, _, hlane₁, _⟩ := decodeBlockWritesThePassingLanes s₁ n tag₁ h₁ hdc₁
  obtain ⟨t₂, hexec₂, _, hlane₂, _⟩ := decodeBlockWritesThePassingLanes s₂ n tag₂ h₂ hdc₂
  have hlane₂' := hlane₂ c (hsame.decodable.2 hd)
  rw [hsame.decodedLane hd] at hlane₂'
  refine ⟨t₁, t₂, hexec₁, hexec₂, fun i hi => ?_⟩
  have hlen := decodedLane_length_of_decodable (runningWithLen_fits h₁).pos hd
  have hv := List.getElem?_eq_getElem (hlen.symm ▸ hi)
  rw [hlane₁ c hd i _ hv, hlane₂' i _ hv]

/-- Settles O37: ENCODE_BLOCK leaves a function of the lane, and DECODE_BLOCK reads the Encoded Channel alone. -/
theorem channelsAreIndependent : Obligations.ChannelsAreIndependent := by
  intro s₁ s₂ n c tag₁ tag₂ h₁ h₂ hp
  refine ⟨fun hin => ?_, fun hhead htuple hinv hdc₁ hdc₂ => ?_⟩
  · obtain ⟨t₁, t₂, hexec₁, hexec₂, hsame, hseq⟩ := encodeBlock_of_sameLane tag₁ tag₂ h₁ h₂ hp hin
    exact ⟨t₁, t₂, hexec₁, hexec₂, hsame.head.symm, hseq,
      fun k hk => ⟨(hsame.tupCode k hk).symm, (hsame.tupRun k hk).symm⟩, fun k hk => (hsame.inv k hk).symm⟩
  · have hsame : SameEncodedChannel c s₁ s₂ :=
      ⟨hhead.symm, fun k hk => (htuple k hk).1.symm, fun k hk => (htuple k hk).2.symm, fun k hk => (hinv k hk).symm⟩
    exact ⟨hsame.decodeCheck.symm, decodeBlock_of_sameEncodedChannel tag₁ tag₂ h₁ h₂ hdc₁ hdc₂ hsame⟩

/-! ### The round trip (R163) -/

/-- A DC value that ENCODE_BLOCK leaves is a pattern in width. -/
theorem dcInWidth_of_encodesLane {s t : State} {n : Nat} (hp : t.params = s.params) (h : ∀ c, EncodesLane c n s t) :
    dcInWidth t := fun c => by
  rw [(holdsEncoding_runs (h c).encoding).dc, hp]
  exact norm_lt (s.coef_lt _)

/-- The encoding of a lane is decodable. -/
theorem EncodesLane.decodable {s t : State} {c : Chan} {n : Nat} (h : EncodesLane c n s t) : decodable c n t :=
  (holdsEncoding_runs h.encoding).decodable (acOfInput_length c n s)

/-- It decodes to the normalised lane. -/
theorem EncodesLane.getElem?_decodedLane {s t : State} {c : Chan} {n i : Nat} (h : EncodesLane c n s t) (hi : i < n) :
    (decodedLane c t)[i]? = some (norm s.params (s.blkIn c i)) := by
  rw [(holdsEncoding_runs h.encoding).decodedLane_eq, ← h.acSeq, ← h.seq 0 (by omega), ← h.seq i hi]
  exact getElem?_seq_cons_acSeq hi

/-- Settles O35: ENCODE_BLOCK leaves an encoding of every normalised lane, and DECODE_BLOCK writes what it decodes to. -/
theorem blockRoundTripGivesTheNormalisedBlock : Obligations.BlockRoundTripGivesTheNormalisedBlock := by
  intro s tag tag' hl h1 hn
  have haccept := sameReads_accept (encode (.encodeBlock tag)) s
  obtain ⟨t, henc, hok, hlane⟩ := exec_encodeBlock_encodes tag (runningWithLen_accept _ hl h1 hn)
  have hlane' : ∀ c, EncodesLane c s.cfgLen.toNat s (accept (encode (.decodeBlock tag')) t) := fun c =>
    (sameReads_accept _ t).encodesLane ((hlane c).of_sameLane h1 haccept.params fun i _ => haccept.blkIn c i)
  have hp : (accept (encode (.decodeBlock tag')) t).params = s.params := hok.params
  obtain ⟨u, hdec, _, hout, _, hpass, _⟩ := decodeBlockWritesThePassingLanes _ _ tag'
    (hok.runningWithLen_accept hl h1 hn _) (dcInWidth_of_encodesLane hp hlane')
  obtain ⟨_, _, _, hstatus, herr⟩ := hpass fun c => (hlane' c).decodable
  exact ⟨u, runCommands_pair henc hdec, hstatus, herr, fun c i hi =>
    hout c (hlane' c).decodable i _ ((hlane' c).getElem?_decodedLane hi)⟩

/-! ### States with the same data memories and Encoded Block -/

/-- `t` is of the build of `s` and has its data memories, as stored and as read, and its Encoded Channel heads. -/
structure SameStore (s t : State) : Prop where
  params : t.params = s.params
  mem : t.mem = s.mem
  resets : t.resets = s.resets
  enc : t.enc = s.enc

theorem SameStore.sameReads {s t : State} (h : SameStore s t) : SameReads s t :=
  ⟨h.params, State.byte_congr h.mem h.resets, h.enc⟩

theorem SameStore.trans {s t u : State} (h : SameStore s t) (h' : SameStore t u) : SameStore s u :=
  ⟨h'.params.trans h.params, h'.mem.trans h.mem, h'.resets.trans h.resets, h'.enc.trans h.enc⟩

theorem sameStore_accept (w : Word) (s : State) : SameStore s (accept w s) := ⟨rfl, rfl, rfl, rfl⟩

theorem sameStore_complete (slot : Half) (x : Execution) : SameStore x.after (complete slot x) :=
  ⟨complete_params slot x, complete_mem slot x, complete_resets slot x, complete_enc slot x⟩

theorem SameStore.store {s t : State} (h : SameStore s t) (cs : List Host.Cell) : SameStore (s.store cs) (t.store cs) :=
  ⟨h.params, by rw [State.store_mem, State.store_mem, h.mem], h.resets, h.enc⟩

theorem SameStore.setHead {s t : State} (h : SameStore s t) (c : Chan) (e : EncHead) :
    SameStore (s.setHead c e) (t.setHead c e) :=
  ⟨h.params, h.mem, h.resets, by rw [State.setHead_enc, State.setHead_enc, h.enc]⟩

/-- Each commit is a function of the build, the memories and the Encoded Block. -/
theorem SameStore.commitExtract {s t : State} (h : SameStore s t) (c : Chan) (n : Nat) :
    SameStore (commitExtract c n s) (commitExtract c n t) := by
  have hcells : extractCells c n t = extractCells c n s := by
    simp only [extractCells, h.params, h.sameReads.blkIn]
  rw [Machine.commitExtract, Machine.commitExtract, hcells]
  exact h.store _

theorem SameStore.commitBuildTable {s t : State} (h : SameStore s t) (c : Chan) (n : Nat) :
    SameStore (commitBuildTable c n s) (commitBuildTable c n t) := by
  have hcells : tableCells c n t = tableCells c n s := by
    simp only [tableCells, h.params, h.sameReads.acSeq]
  rw [Machine.commitBuildTable, Machine.commitBuildTable, hcells, h.params, h.sameReads.acSeq, h.sameReads.head]
  exact (h.store _).setHead c _

theorem SameStore.commitEncode {s t : State} (h : SameStore s t) (c : Chan) (n : Nat) :
    SameStore (commitEncode c n s) (commitEncode c n t) := by
  have htuples : encodeTuples c n t = encodeTuples c n s := by
    simp only [encodeTuples, h.sameReads.acSeq, h.sameReads.fwd]
  rw [Machine.commitEncode, Machine.commitEncode, htuples, h.sameReads.seq, h.sameReads.head]
  exact (h.store _).setHead c _

theorem SameStore.encodeChannel {s t : State} (h : SameStore s t) (c : Chan) (n : Nat) :
    SameStore (encodeChannel c n s) (encodeChannel c n t) :=
  ((h.commitExtract c n).commitBuildTable c n).commitEncode c n

theorem SameStore.encodeChannels {s t : State} (h : SameStore s t) (n : Nat) (cs : List Chan) :
    SameStore (encodeChannels n cs s) (encodeChannels n cs t) := by
  induction cs generalizing s t with
  | nil => exact h
  | cons c cs ih => exact ih (h.encodeChannel c n)

/-! ### The nine commands (R160) -/

/-- The next command would run with LEN = n, in 1..N_MAX. -/
structure ReadyWithLen (s : State) (n : Nat) : Prop where
  fits : LenFits s n
  cfgLen : s.cfgLen.toNat = n

theorem ReadyWithLen.accept {s : State} {n : Nat} (h : ReadyWithLen s n) (w : Word) : runningWithLen (accept w s) n :=
  ⟨h.fits.legal, ⟨_, rfl, h.cfgLen⟩, h.fits.pos, h.fits.le⟩

/-- `t` is what commands that completed without error leave: it has the store of `s'`, and the next command runs with LEN = n
too. -/
structure CompletedWith (n : Nat) (s' t : State) : Prop where
  store : SameStore s' t
  ready : ReadyWithLen t n
  noError : t.statusErr = false

/-- A command that completes the commit `f` leaves the store that `f` leaves. -/
theorem completedWith_of_commit {s : State} {n : Nat} {f : State → State} (w : Word) (tag : Half) (h : ReadyWithLen s n)
    (hdata : onlyData (accept w s) (f (accept w s))) (hf : SameStore (f s) (f (accept w s))) :
    CompletedWith n (f s) (complete tag (commit (f (accept w s)))) := by
  obtain ⟨⟨hp, _, hlen, _⟩, _, _, hstatus, _⟩ := completedOk_commit tag hdata
  rw [accept_params] at hp
  rw [accept_cfgLen] at hlen
  exact ⟨hf.trans (sameStore_complete tag (commit (f (accept w s)))),
    ⟨⟨by rw [hp]; exact h.fits.legal, h.fits.pos, by rw [hp]; exact h.fits.le⟩, by rw [hlen]; exact h.cfgLen⟩, hstatus⟩

theorem runCommand_extract {s : State} {n : Nat} (c : Chan) (tag : Half) (h : ReadyWithLen s n) :
    ∃ t, runCommand (.extract (Chan.field c) tag) s = .next t ∧ CompletedWith n (commitExtract c n s) t :=
  ⟨_, exec_extract_of_running c tag (h.accept _), completedWith_of_commit (f := commitExtract c n) _ tag h
    (onlyData_commitExtract c n _) ((sameStore_accept _ s).commitExtract c n)⟩

theorem runCommand_buildTable {s : State} {n : Nat} (c : Chan) (tag : Half) (h : ReadyWithLen s n) :
    ∃ t, runCommand (.buildTable (Chan.field c) tag) s = .next t ∧ CompletedWith n (commitBuildTable c n s) t :=
  ⟨_, exec_buildTable_of_running c tag (h.accept _), completedWith_of_commit (f := commitBuildTable c n) _ tag h
    (onlyData_commitBuildTable c n _) ((sameStore_accept _ s).commitBuildTable c n)⟩

theorem runCommand_rleEncode {s : State} {n : Nat} {c : Chan} (tag : Half) (h : ReadyWithLen s n) (he : encodable c n s) :
    ∃ t, runCommand (.rleEncode (Chan.field c) tag) s = .next t ∧ CompletedWith n (commitEncode c n s) t :=
  ⟨_, exec_rleEncode_of_encodable tag (h.accept _) ((sameReads_accept _ s).encodable he),
    completedWith_of_commit (f := commitEncode c n) _ tag h (onlyData_commitEncode c n _)
      ((sameStore_accept _ s).commitEncode c n)⟩

theorem runCommand_encodeBlock {s : State} {n : Nat} (tag : Half) (h : ReadyWithLen s n) :
    ∃ t, runCommand (.encodeBlock tag) s = .next t ∧ CompletedWith n (commitEncodeBlock n s) t :=
  ⟨_, exec_encodeBlock_of_running tag (h.accept _), completedWith_of_commit (f := commitEncodeBlock n) _ tag h
    (onlyData_commitEncodeBlock n _) ((sameStore_accept _ s).encodeChannels n Chan.all)⟩

/-- The three commands of one channel. -/
def encodeCommands (tag : Half) (c : Chan) : List Instr :=
  [.extract (Chan.field c) tag, .buildTable (Chan.field c) tag, .rleEncode (Chan.field c) tag]

theorem encodeBlockCommands_eq (tag : Half) : encodeBlockCommands tag = Chan.all.flatMap (encodeCommands tag) := rfl

/-- The three commands of one channel leave what the channel's three commits leave: each finds the store that the commit
before it left, and RLE_ENCODE finds every value in the table just built. -/
theorem runCommands_encodeCommands {s : State} {n : Nat} (c : Chan) (tag : Half) (is : List Instr) (h : ReadyWithLen s n) :
    ∃ t, runCommands (encodeCommands tag c ++ is) s = runCommands is t ∧ CompletedWith n (encodeChannel c n s) t := by
  obtain ⟨t₁, hrun₁, hstore₁, hready₁, _⟩ := runCommand_extract c tag h
  obtain ⟨t₂, hrun₂, hstore₂, hready₂, _⟩ := runCommand_buildTable c tag hready₁
  have hstore₂' : SameStore (commitBuildTable c n (commitExtract c n s)) t₂ :=
    (hstore₁.commitBuildTable c n).trans hstore₂
  obtain ⟨_, hac, htable⟩ := before_commitEncode (c := c) h.fits
  have hencodable : encodable c n (commitBuildTable c n (commitExtract c n s)) :=
    HoldsTable.encodable (p := s.params) (by rw [hac]; exact htable)
  obtain ⟨t₃, hrun₃, hstore₃, hready₃, hstatus⟩ :=
    runCommand_rleEncode tag hready₂ (hstore₂'.sameReads.encodable hencodable)
  refine ⟨t₃, ?_, (hstore₂'.commitEncode c n).trans hstore₃, hready₃, hstatus⟩
  rw [encodeCommands, List.cons_append, runCommands_cons hrun₁, List.cons_append, runCommands_cons hrun₂,
    List.cons_append, runCommands_cons hrun₃, List.nil_append]

/-- The commands of several channels leave what the channels' commits leave, one after another. -/
theorem runCommands_flatMap_encodeCommands {s : State} {n : Nat} (tag : Half) (cs : List Chan) (h : ReadyWithLen s n) :
    ∃ t, runCommands (cs.flatMap (encodeCommands tag)) s = .next t ∧ SameStore (encodeChannels n cs s) t ∧
      t.statusErr = (cs.isEmpty && s.statusErr) := by
  induction cs generalizing s with
  | nil => exact ⟨s, rfl, ⟨rfl, rfl, rfl, rfl⟩, rfl⟩
  | cons c cs ih =>
    obtain ⟨t, hrun, hstore, hready, hstatus⟩ := runCommands_encodeCommands c tag (cs.flatMap (encodeCommands tag)) h
    obtain ⟨u, hruns, hstore', hstatus'⟩ := ih hready
    refine ⟨u, ?_, (hstore.encodeChannels n cs).trans hstore', ?_⟩
    · rw [List.flatMap_cons, hrun, hruns]
    · rw [hstatus', hstatus, Bool.and_false, List.isEmpty_cons, Bool.false_and]

/-- Settles O34: ENCODE_BLOCK and the nine commands both leave the store that all channels' commits leave. -/
theorem encodeBlockEqualsTheNineCommands : Obligations.EncodeBlockEqualsTheNineCommands := by
  intro s tag tag' hl h1 hn
  have h : ReadyWithLen s s.cfgLen.toNat := ⟨⟨hl, h1, hn⟩, rfl⟩
  obtain ⟨t, hrun, hstore, _, hstatus⟩ := runCommand_encodeBlock tag h
  obtain ⟨u, hruns, hstore', hstatus'⟩ := runCommands_flatMap_encodeCommands tag' Chan.all h
  rw [commitEncodeBlock_eq] at hstore
  exact ⟨t, u, hrun, by rw [encodeBlockCommands_eq, hruns], hstore.mem.trans hstore'.mem.symm,
    hstore.enc.trans hstore'.enc.symm, hstatus', hstatus⟩

end Sys2Proof.Machine
end

section
/-! PROOFS. Validation of a channel section (45_marshaller.md R172, R173): which sections pass, and which failure one that
does not pass reports first (60_exceptions.md R213). -/

namespace Sys2Proof.Machine
open Sys2Proof

/-- Settles O24: of two different entries one is the earlier. -/
theorem validationAcceptsExactlyTheBijectiveTables : Obligations.ValidationAcceptsExactlyTheBijectiveTables := by
  intro s slot c
  rw [validate_eq_none]
  constructor
  · rintro ⟨⟨htup, htab⟩, hentry, hrun⟩
    exact ⟨htup, htab, fun k hk => (hentry k hk).1, fun j k hj hk => (hentry k hk).2 j hj, hrun⟩
  · rintro ⟨htup, htab, hcode, hdiff, hrun⟩
    exact ⟨⟨htup, htab⟩, fun k hk => ⟨hcode k hk, fun j hj => hdiff j k hj hk⟩, hrun⟩

/-! ### What each check reports -/

/-- The tuple array is checked before the table arrays. -/
theorem capacityCheck_eq_some {p : Params} {c : Chan} {tl n : Half} {e : CmdError} :
    capacityCheck p c tl n = some e ↔
      (cap p < tl.toNat ∧ e = failure .capacity c 0 tl.toNat (cap p)) ∨
        (tl.toNat ≤ cap p ∧ cap p < n.toNat ∧ e = failure .capacity c 1 n.toNat (cap p)) := by
  unfold capacityCheck
  rw [capacityError_eq, capacityError_eq]
  split_ifs with htl hn
  · simp [htl, not_le.2 htl, eq_comm]
  · simp [htl, not_lt.1 htl, hn, eq_comm]
  · simp [htl, hn]

section
variable {slot k : Nat} {c : Chan} {s : State} {e : CmdError}

/-- An entry's check reports its code, or else its value, or passes. -/
theorem tableEntryCheck_eq_some :
    tableEntryCheck slot c s k = some e ↔
      (codeClashes slot c s k ∧
          e = failure .tableBadCode c k (s.trTabCode slot c k).toNat (s.trTabLen slot c).toNat) ∨
        (¬codeClashes slot c s k ∧ valueClashes slot c s k ∧
          e = failure .tableDupValue c k ((s.trTabVal slot c k).toNat % 2 ^ 32)
            ((s.trTabVal slot c k).toNat / 2 ^ 32)) := by
  by_cases hcode : codeClashes slot c s k
  · simp only [tableEntryCheck_of_code hcode, hcode, Option.some.injEq, eq_comm, true_and, not_true, false_and, or_false]
  · by_cases hval : valueClashes slot c s k
    · simp only [tableEntryCheck_of_value hcode hval, hcode, hval, Option.some.injEq, eq_comm, true_and, not_false_eq_true,
        false_and, false_or]
    · simp only [tableEntryCheck_of_pass hcode hval, hcode, hval, reduceCtorEq, false_and, and_false, or_false]

theorem tableEntryCheck_passes_iff :
    tableEntryCheck slot c s k = none ↔ ¬codeClashes slot c s k ∧ ¬valueClashes slot c s k := by
  refine ⟨fun h => ⟨fun hcode => ?_, fun hval => ?_⟩, fun ⟨hcode, hval⟩ => tableEntryCheck_of_pass hcode hval⟩
  · rw [tableEntryCheck_of_code hcode] at h
    cases h
  · by_cases hcode : codeClashes slot c s k
    · rw [tableEntryCheck_of_code hcode] at h
      cases h
    · rw [tableEntryCheck_of_value hcode hval] at h
      cases h

theorem tupleRunCheck_eq_some :
    tupleRunCheck slot c s k = some e ↔
      s.trTupRun slot c k = 0 ∧ e = failure .badRun c k (s.trTupCode slot c k).toNat 0 := by
  rw [tupleRunCheck_eq, Option.ite_none_right_eq_some, Option.some.injEq, eq_comm (a := e)]

/-- The table's check reports its first failing entry. -/
theorem tableCheck_eq_some {n : Nat} :
    (List.range n).findSome? (tableEntryCheck slot c s) = some e ↔
      ∃ k, k < n ∧ entriesPassBelow slot c s k ∧ tableEntryCheck slot c s k = some e := by
  simp only [findSome_range_iff, tableEntryCheck_passes_iff, entriesPassBelow]

theorem tableCheck_eq_none {n : Nat} :
    (List.range n).findSome? (tableEntryCheck slot c s) = none ↔ entriesPassBelow slot c s n := by
  simp only [List.findSome?_eq_none_iff, List.mem_range, tableEntryCheck_passes_iff, entriesPassBelow]

/-- The tuples' check reports the first run of 0. -/
theorem runCheck_eq_some {n : Nat} :
    (List.range n).findSome? (tupleRunCheck slot c s) = some e ↔
      ∃ k, k < n ∧ (∀ j, j < k → s.trTupRun slot c j ≠ 0) ∧ s.trTupRun slot c k = 0 ∧
        e = failure .badRun c k (s.trTupCode slot c k).toNat 0 := by
  simp only [findSome_range_iff, tupleRunCheck_eq_none, tupleRunCheck_eq_some]

end

/-- Settles O25: the three checks of `validate` stand one behind the other, and each reports its own first failure. -/
theorem validationReportsTheFirstFailure : Obligations.ValidationReportsTheFirstFailure := by
  intro s slot c e
  rw [validate, Option.or_eq_some_iff, Option.or_eq_some_iff, Option.or_eq_none_iff, capacityCheck_eq_some,
    capacityCheck_eq_none, tableCheck_eq_some, tableCheck_eq_none, runCheck_eq_some]
  simp only [tableEntryCheck_eq_some, lengthsPass, or_assoc, and_assoc]

end Sys2Proof.Machine
end

section
/-! PROOFS. PACK and UNPACK that refuse (45_marshaller.md R170, R171): a used length beyond CAP, and a slot with a failing
channel. -/

namespace Sys2Proof.Machine
open Sys2Proof

/-- PACK into an existing slot completes its commit if the used lengths are within CAP, and raises what their check
reports if not. -/
theorem exec_pack_of_slot {s : State} {slot : Half} (c : Chan) (hs : slot.toNat < s.params.nSlot) :
    exec (.pack slot (Chan.field c)) s =
      .next (complete slot (withCheck s (capacityCheck s.params c (s.head c).tlen (s.head c).ndist)
        (commitPack slot.toNat c s))) := by
  change execPack slot (Chan.field c) s = _
  rw [execPack, withChannel_field, withSlot_of_legal _ hs]

/-- PACK raises what the check of the used lengths reports, and changes no data. -/
theorem exec_pack_of_check {s : State} {slot : Half} {c : Chan} {pos lo hi : Nat} (hs : slot.toNat < s.params.nSlot)
    (he : capacityCheck s.params c (s.head c).tlen (s.head c).ndist = some (failure .capacity c pos lo hi)) :
    ∃ t, exec (.pack slot (Chan.field c)) s = .next t ∧ sameData s t ∧
      completedErr s t (dataRecord .capacity slot c (BitVec.ofNat 16 pos) (BitVec.ofNat 32 lo) (BitVec.ofNat 32 hi)) := by
  have hexec := exec_pack_of_slot c hs
  rw [he, withCheck_some] at hexec
  exact ⟨_, hexec, sameData_raise s slot _, completedErr_data s slot _ c rfl rfl⟩

/-- Settles O22: the check of the used lengths looks at the tuple array first. -/
theorem packRefusesLengthsBeyondCap : Obligations.PackRefusesLengthsBeyondCap := by
  intro s slot c _ hs
  rw [← BitVec.ofNat_toNat, ← BitVec.ofNat_toNat]
  exact ⟨fun htlen => exec_pack_of_check hs (capacityCheck_eq_some.2 (.inl ⟨htlen, rfl⟩)),
    fun htlen hndist => exec_pack_of_check hs (capacityCheck_eq_some.2 (.inr ⟨htlen, hndist, rfl⟩))⟩

/-- UNPACK of an existing slot completes its check and commit. -/
theorem exec_unpack_of_slot {s : State} {slot : Half} (hs : slot.toNat < s.params.nSlot) :
    exec (.unpack slot) s = .next (complete slot (unpackSlot slot.toNat s)) := by
  change execUnpack slot s = _
  rw [execUnpack, withSlot_of_legal _ hs]

theorem unpackSlot_errs (slot : Nat) (s : State) :
    (unpackSlot slot s).errs = Chan.all.filterMap fun d => validate slot d s := rfl

/-- A slot with a failing channel writes nothing. -/
theorem unpackSlot_after_of_invalid {slot : Nat} {s : State} (h : ¬∀ c, validate slot c s = none) :
    (unpackSlot slot s).after = s :=
  if_neg fun hnil => h (validateAll_eq_nil.1 hnil)

theorem unpackSlot_of_valid {slot : Nat} {s : State} (h : ∀ c, validate slot c s = none) :
    unpackSlot slot s = commit (commitUnpack slot s) := by
  have hnil := validateAll_eq_nil.2 h
  rw [unpackSlot, hnil, if_pos rfl, commit]

/-- Settles O23: the errors are those of the failing channels in order, and with one there is no commit. -/
theorem unpackRejectsAnInvalidSlotWhole : Obligations.UnpackRejectsAnInvalidSlotWhole := by
  intro s slot c e _ hs he hlow
  have hafter : (unpackSlot slot.toNat s).after = s :=
    unpackSlot_after_of_invalid fun hall => by
      rw [hall c] at he
      cases he
  have hsame := sameReads_complete slot (unpackSlot slot.toNat s)
  rw [hafter] at hsame
  exact ⟨_, exec_unpack_of_slot hs, ⟨hsame.bytes, hsame.enc⟩,
    completedErr_lowest slot (onlyData_unpackSlot slot.toNat s) (unpackSlot_errs slot.toNat s) (fun _ _ => validate_error)
      he hlow⟩

end Sys2Proof.Machine
end

section
/-! PROOFS. PACK (45_marshaller.md R170): the bytes it stores, field by field, and what a reader of the slot then
finds, in this state or in one whose slot reads the same. -/

namespace Sys2Proof.Machine
open Sys2Proof

/-! ### Zero bytes and bytes read as fields -/

/-- A zero byte stored is read back, if nothing stored later touches it. -/
theorem State.byte_store_zeroCells (s : State) (xs ys : List Host.Cell) {a n b : Nat} (h1 : a ≤ b) (h2 : b < a + n)
    (h : b ∉ cellAddrs ys) : (s.store (xs ++ (zeroCells a n ++ ys))).byte b = 0 := by
  induction n generalizing a xs with
  | zero => omega
  | succ n ih =>
    rw [zeroCells, List.cons_append]
    rcases Nat.eq_or_lt_of_le h1 with rfl | hlt
    · refine State.byte_store_of_last s xs _ a 0 fun hm => ?_
      rw [cellAddrs_append, List.mem_append, mem_cellAddrs_zeroCells] at hm
      exact hm.elim (fun hm => by omega) h
    · have hrest := ih (xs ++ [(a, 0)]) hlt (by omega)
      rwa [List.append_assoc, List.singleton_append] at hrest

theorem State.readLE_eq_zero {s : State} {a n : Nat} (h : ∀ b, a ≤ b → b < a + n → s.byte b = 0) : s.readLE a n = 0 := by
  induction n generalizing a with
  | zero => rfl
  | succ n ih =>
    rw [State.readLE, h a le_rfl (by omega), ih fun b h1 h2 => h b (by omega) (by omega)]
    rfl

/-- A u16 stored is read back, if its number fits. -/
theorem State.half_eq_of_readLE_toNat {s : State} {a : Nat} {v : Half} (h : s.readLE a 2 = v.toNat % 256 ^ 2) :
    s.half a = v := by
  rw [State.half_eq_of_readLE h, BitVec.ofNat_toNat, BitVec.setWidth_eq]

/-! ### Offsets in a channel section (20_memory.md R73) -/

theorem secAddr_add (p : Params) (slot : Nat) (c : Chan) (off : Nat) :
    secAddr p slot c off = secAddr p slot c 0 + off := by
  rw [secAddr_eq, secAddr_eq, Nat.add_zero]

/-- The offset lies in a used field of a section with these used lengths. -/
def usedOffset (p : Params) (e : EncHead) (x : Nat) : Prop :=
  x < 4 + 4 * e.tlen.toNat ∨ (tcOff p ≤ x ∧ x < tcOff p + 2 * e.ndist.toNat) ∨
    (tvOff p ≤ x ∧ x < tvOff p + coefBytes p * e.ndist.toNat)

/-- An element below `n` ends within the first `n` elements' bytes. -/
theorem coefBytes_mul_add_le (p : Params) {k n : Nat} (hk : k < n) :
    coefBytes p * k + coefBytes p ≤ coefBytes p * n := by
  rw [← Nat.mul_succ]
  exact Nat.mul_le_mul_left _ hk

/-! ### The fields PACK stores -/

/-- The bytes PACK stores for tuple k. -/
def packTupleCells (slot : Nat) (c : Chan) (s : State) (k : Nat) : List Host.Cell :=
  leCells (secAddr s.params slot c (4 + 4 * k)) 2 (s.tupCode c k).toNat ++
    leCells (secAddr s.params slot c (6 + 4 * k)) 2 (s.tupRun c k).toNat

/-- The bytes PACK stores for table entry k. -/
def packTableCells (slot : Nat) (c : Chan) (s : State) (k : Nat) : List Host.Cell :=
  leCells (secAddr s.params slot c (tcOff s.params + 2 * k)) 2 k ++
    leCells (secAddr s.params slot c (tvOff s.params + coefBytes s.params * k)) (coefBytes s.params) (s.inv c k).toNat

theorem packFieldCells_eq (slot : Nat) (c : Chan) (s : State) :
    packFieldCells slot c s = leCells (secAddr s.params slot c 0) 2 (s.head c).tlen.toNat ++
      (leCells (secAddr s.params slot c 2) 2 (s.head c).ndist.toNat ++
        ((List.range (s.head c).tlen.toNat).flatMap (packTupleCells slot c s) ++
          (List.range (s.head c).ndist.toNat).flatMap (packTableCells slot c s))) := rfl

theorem mem_packTupleCells {slot : Nat} {c : Chan} {s : State} {k b : Nat} :
    b ∈ cellAddrs (packTupleCells slot c s k) ↔
      secAddr s.params slot c 0 + (4 + 4 * k) ≤ b ∧ b < secAddr s.params slot c 0 + (8 + 4 * k) := by
  rw [packTupleCells, cellAddrs_append, List.mem_append, mem_cellAddrs_leCells, mem_cellAddrs_leCells, secAddr_add,
    secAddr_add (off := 6 + 4 * k)]
  omega

theorem mem_packTableCells {slot : Nat} {c : Chan} {s : State} {k b : Nat} :
    b ∈ cellAddrs (packTableCells slot c s k) ↔
      (secAddr s.params slot c 0 + (tcOff s.params + 2 * k) ≤ b ∧
        b < secAddr s.params slot c 0 + (tcOff s.params + 2 * k) + 2) ∨
      (secAddr s.params slot c 0 + (tvOff s.params + coefBytes s.params * k) ≤ b ∧
        b < secAddr s.params slot c 0 + (tvOff s.params + coefBytes s.params * k) + coefBytes s.params) := by
  rw [packTableCells, cellAddrs_append, List.mem_append, mem_cellAddrs_leCells, mem_cellAddrs_leCells, secAddr_add,
    secAddr_add (off := tvOff s.params + coefBytes s.params * k)]

/-- PACK stores a field at used offsets only. -/
theorem usedOffset_of_mem_packFieldCells {slot : Nat} {c : Chan} {s : State} {x : Nat}
    (h : secAddr s.params slot c 0 + x ∈ cellAddrs (packFieldCells slot c s)) : usedOffset s.params (s.head c) x := by
  rw [packFieldCells_eq] at h
  simp only [cellAddrs_append, List.mem_append, mem_cellAddrs_flatMap, List.mem_range, mem_cellAddrs_leCells,
    mem_packTupleCells, mem_packTableCells, secAddr_add s.params slot c 2] at h
  unfold usedOffset
  rcases h with h | h | ⟨k, hk, h⟩ | ⟨k, hk, h⟩
  · omega
  · omega
  · omega
  · have := coefBytes_mul_add_le s.params hk
    omega

/-! ### What PACK leaves in the channel section -/

section
variable {slot k : Nat} {c : Chan} {s : State}

theorem not_mem_packTupleCells_of_lt {n b : Nat} (h : b < secAddr s.params slot c 0 + 4) :
    b ∉ cellAddrs ((List.range n).flatMap (packTupleCells slot c s)) := fun hm => by
  obtain ⟨k, _, hm⟩ := mem_cellAddrs_flatMap.1 hm
  rw [mem_packTupleCells] at hm
  omega

/-- The table's bytes lie behind the lengths and the tuples. -/
theorem not_mem_packTableCells_of_lt {n b : Nat} (h : b < secAddr s.params slot c 0 + tcOff s.params) :
    b ∉ cellAddrs ((List.range n).flatMap (packTableCells slot c s)) := fun hm => by
  obtain ⟨htc, htv, _⟩ := section_bounds s.params
  obtain ⟨k, _, hm⟩ := mem_cellAddrs_flatMap.1 hm
  rw [mem_packTableCells] at hm
  omega

/-- PACK's stores, one after another: the DC section, zeros, the fields. -/
theorem commitPack_eq (slot : Nat) (c : Chan) (s : State) :
    commitPack slot c s =
      ((s.store (packDcCells slot s)).store (zeroCells (secAddr s.params slot c 0) (chBytes s.params))).store
        (packFieldCells slot c s) := by
  rw [commitPack, packCells, State.store_append, State.store_append]

theorem trTupLen_commitPack : (commitPack slot c s).trTupLen slot c = (s.head c).tlen := by
  have hbounds := section_bounds s.params
  rw [commitPack_eq, packFieldCells_eq]
  refine State.half_eq_of_readLE_toNat (State.readLE_store _ [] _ _ 2 _ fun b h1 h2 => ?_)
  replace h2 : b < secAddr s.params slot c 0 + 2 := h2
  rw [cellAddrs_append, cellAddrs_append, List.mem_append, List.mem_append, mem_cellAddrs_leCells, secAddr_add]
  rintro (h | h | h)
  · omega
  · exact not_mem_packTupleCells_of_lt (by omega) h
  · exact not_mem_packTableCells_of_lt (by omega) h

theorem trTabLen_commitPack : (commitPack slot c s).trTabLen slot c = (s.head c).ndist := by
  have hbounds := section_bounds s.params
  rw [commitPack_eq, packFieldCells_eq]
  refine State.half_eq_of_readLE_toNat (State.readLE_store _ (leCells _ 2 _) _ _ 2 _ fun b h1 h2 => ?_)
  replace h2 : b < secAddr s.params slot c 2 + 2 := h2
  rw [secAddr_add] at h2
  rw [cellAddrs_append, List.mem_append]
  rintro (h | h)
  · exact not_mem_packTupleCells_of_lt (by omega) h
  · exact not_mem_packTableCells_of_lt (by omega) h

/-- A field of a used tuple is read back: the tuples behind it and the table do not touch it. -/
theorem readLE_commitPack_tuple (ht : (s.head c).tlen.toNat ≤ cap s.params) (hk : k < (s.head c).tlen.toNat)
    {pre post : List Host.Cell} {x n v : Nat}
    (hf : packTupleCells slot c s k = pre ++ (leCells (secAddr s.params slot c x) n v ++ post)) (hx : x + n ≤ 8 + 4 * k)
    (hpost : ∀ b, secAddr s.params slot c x ≤ b → b < secAddr s.params slot c x + n → b ∉ cellAddrs post) :
    (commitPack slot c s).readLE (secAddr s.params slot c x) n = v % 256 ^ n := by
  have hbounds := section_bounds s.params
  rw [commitPack_eq, packFieldCells_eq, State.store_append, State.store_append]
  refine State.readLE_store_group _ [] _ (packTupleCells slot c s) hk pre post _ n v hf hpost
    (fun j hj _ b _ h2 hm => ?_) fun b _ h2 => ?_
  · rw [mem_packTupleCells] at hm
    rw [secAddr_add] at h2
    omega
  · rw [secAddr_add] at h2
    exact not_mem_packTableCells_of_lt (by omega)

/-- A field of a used table entry is read back, if no later entry touches it. -/
theorem readLE_commitPack_table (hk : k < (s.head c).ndist.toNat) {pre post : List Host.Cell} {x n v : Nat}
    (hf : packTableCells slot c s k = pre ++ (leCells (secAddr s.params slot c x) n v ++ post))
    (hpost : ∀ b, secAddr s.params slot c x ≤ b → b < secAddr s.params slot c x + n → b ∉ cellAddrs post)
    (hlater : ∀ j, k < j → j < (s.head c).ndist.toNat → ∀ b, secAddr s.params slot c x ≤ b →
      b < secAddr s.params slot c x + n → b ∉ cellAddrs (packTableCells slot c s j)) :
    (commitPack slot c s).readLE (secAddr s.params slot c x) n = v % 256 ^ n := by
  rw [commitPack_eq, packFieldCells_eq, State.store_append, State.store_append]
  exact State.readLE_store_last_group _ _ (packTableCells slot c s) hk pre post _ n v hf hpost hlater

/-- A byte of the section that is in no used field is 0. -/
theorem byte_commitPack_unused {x : Nat} (hx : x < chBytes s.params) (hu : ¬usedOffset s.params (s.head c) x) :
    (commitPack slot c s).byte (secAddr s.params slot c x) = 0 := by
  rw [secAddr_add]
  exact State.byte_store_zeroCells s _ _ (by omega) (by omega) fun hm => hu (usedOffset_of_mem_packFieldCells hm)

theorem readLE_commitPack_unused {x n : Nat} (hx : x + n ≤ chBytes s.params)
    (hu : ∀ y, x ≤ y → y < x + n → ¬usedOffset s.params (s.head c) y) :
    (commitPack slot c s).readLE (secAddr s.params slot c x) n = 0 := by
  refine State.readLE_eq_zero fun b h1 h2 => ?_
  rw [secAddr_add] at h1 h2
  have hb := byte_commitPack_unused (slot := slot) (x := b - secAddr s.params slot c 0) (by omega)
    (hu _ (by omega) (by omega))
  rwa [secAddr_add, Nat.add_sub_cancel' (by omega)] at hb

theorem half_commitPack_unused {x : Nat} (hx : x + 2 ≤ chBytes s.params)
    (hu : ∀ y, x ≤ y → y < x + 2 → ¬usedOffset s.params (s.head c) y) :
    (commitPack slot c s).half (secAddr s.params slot c x) = 0 := by
  rw [State.half, readLE_commitPack_unused hx hu]
  rfl

/-! The fields of each entry of the section: 0 where it is not used (R170). -/

theorem trTupCode_commitPack (ht : (s.head c).tlen.toNat ≤ cap s.params) (hk : k < cap s.params) :
    (commitPack slot c s).trTupCode slot c k = if k < (s.head c).tlen.toNat then s.tupCode c k else 0 := by
  have hbounds := section_bounds s.params
  split_ifs with hlt
  · refine State.half_eq_of_readLE_toNat (readLE_commitPack_tuple ht hlt (pre := []) rfl (by omega) fun b _ h2 => ?_)
    rw [secAddr_add] at h2
    rw [mem_cellAddrs_leCells, secAddr_add]
    omega
  · refine half_commitPack_unused (by omega) fun y h1 h2 => ?_
    unfold usedOffset
    omega

theorem trTupRun_commitPack (ht : (s.head c).tlen.toNat ≤ cap s.params) (hk : k < cap s.params) :
    (commitPack slot c s).trTupRun slot c k = if k < (s.head c).tlen.toNat then s.tupRun c k else 0 := by
  have hbounds := section_bounds s.params
  split_ifs with hlt
  · refine State.half_eq_of_readLE_toNat (readLE_commitPack_tuple ht hlt 
      (pre := leCells (secAddr s.params slot c (4 + 4 * k)) 2 (s.tupCode c k).toNat) (post := []) ?_ (by omega) (by simp))
    rw [List.append_nil]
    rfl
  · refine half_commitPack_unused (by omega) fun y h1 h2 => ?_
    unfold usedOffset
    omega

theorem trTabCode_commitPack (ht : (s.head c).tlen.toNat ≤ cap s.params) (hk : k < cap s.params) :
    ((commitPack slot c s).trTabCode slot c k).toNat = if k < (s.head c).ndist.toNat then k else 0 := by
  have hbounds := section_bounds s.params
  split_ifs with hlt
  · have hread : (commitPack slot c s).readLE (secAddr s.params slot c (tcOff s.params + 2 * k)) 2 = k % 256 ^ 2 := by
      refine readLE_commitPack_table hlt (pre := []) rfl (fun b _ h2 hm => ?_) fun j hj _ b _ h2 hm => ?_
      · rw [mem_cellAddrs_leCells, secAddr_add] at hm
        rw [secAddr_add] at h2
        omega
      · rw [mem_packTableCells] at hm
        rw [secAddr_add] at h2
        omega
    have hlt' := (s.head c).ndist.isLt
    exact (State.half_toNat _ _).trans (hread.trans (Nat.mod_eq_of_lt (by omega)))
  · refine congrArg BitVec.toNat (half_commitPack_unused (x := tcOff s.params + 2 * k) (by omega) fun y h1 h2 => ?_)
    unfold usedOffset
    omega

theorem trTabVal_commitPack (ht : (s.head c).tlen.toNat ≤ cap s.params) (hn : (s.head c).ndist.toNat ≤ cap s.params)
    (hk : k < cap s.params) :
    (commitPack slot c s).trTabVal slot c k = if k < (s.head c).ndist.toNat then s.inv c k else 0 := by
  have hbounds := section_bounds s.params
  split_ifs with hlt
  · have hread : (commitPack slot c s).readLE
        (secAddr s.params slot c (tvOff s.params + coefBytes s.params * k)) (coefBytes s.params) =
          (s.inv c k).toNat % 256 ^ coefBytes s.params := by
      refine readLE_commitPack_table hlt
        (pre := leCells (secAddr s.params slot c (tcOff s.params + 2 * k)) 2 k) (post := []) ?_ (by simp)
        fun j hj hj' b h1 h2 hm => ?_
      · rw [List.append_nil]
        rfl
      · have hvals := coefBytes_mul_add_le s.params hj
        rw [mem_packTableCells] at hm
        rw [secAddr_add] at h1 h2
        omega
    exact State.coef_eq_of_readLE (s.coef_lt _) hread
  · have hcap := coefBytes_mul_add_le s.params hk
    have hunused := Nat.mul_le_mul_left (coefBytes s.params) (not_lt.1 hlt)
    have hread := readLE_commitPack_unused (slot := slot) (c := c) (s := s) (n := coefBytes s.params)
      (x := tvOff s.params + coefBytes s.params * k) (by omega) fun y h1 h2 => by
        unfold usedOffset
        omega
    exact congrArg (BitVec.ofNat 64) hread

end

/-! ### What PACK leaves in the DC section -/

/-- The bytes of one group among those of several: what is before, the group, and what other groups store after it. -/
theorem exists_flatMap_split {α : Type} {l : List α} (hl : l.Nodup) {x : α} (hx : x ∈ l) (f : α → List Host.Cell) :
    ∃ pre post, l.flatMap f = pre ++ (f x ++ post) ∧ ∀ b ∈ cellAddrs post, ∃ y, x ≠ y ∧ b ∈ cellAddrs (f y) := by
  obtain ⟨before, after, rfl⟩ := List.append_of_mem hx
  refine ⟨before.flatMap f, after.flatMap f, by rw [List.flatMap_append, List.flatMap_cons], fun b hb => ?_⟩
  obtain ⟨y, hy, hb⟩ := mem_cellAddrs_flatMap.1 hb
  refine ⟨y, ?_, hb⟩
  rintro rfl
  exact (List.nodup_cons.1 hl.of_append_right).1 hy

theorem trDcAddr_apart (p : Params) (slot : Nat) {c d : Chan} (h : c ≠ d) :
    trDcAddr p slot c + coefBytes p ≤ trDcAddr p slot d ∨ trDcAddr p slot d + coefBytes p ≤ trDcAddr p slot c := by
  rw [trDcAddr_eq, trDcAddr_eq]
  rcases Nat.lt_or_gt_of_ne fun he => h (Chan.idx_inj he) with hlt | hlt
  · have := coefBytes_mul_add_le p hlt
    omega
  · have := coefBytes_mul_add_le p hlt
    omega

/-- The bytes PACK stores for the DC value of one channel. -/
def packDcValueCells (slot : Nat) (s : State) (d : Chan) : List Host.Cell :=
  leCells (trDcAddr s.params slot d) (coefBytes s.params) (s.head d).dc.toNat

theorem packDcCells_eq (slot : Nat) (s : State) :
    packDcCells slot s =
      zeroCells (trAddr s.params slot 0) (dcBytes s.params) ++ Chan.all.flatMap (packDcValueCells slot s) := rfl

section
variable {slot : Nat} {c : Chan} {s : State}

/-- The bytes PACK stores behind the DC section are those of the channel section. -/
theorem mem_packSectionCells (ht : (s.head c).tlen.toNat ≤ cap s.params) (hn : (s.head c).ndist.toNat ≤ cap s.params)
    {b : Nat}
    (h : b ∈ cellAddrs (zeroCells (secAddr s.params slot c 0) (chBytes s.params) ++ packFieldCells slot c s)) :
    secAddr s.params slot c 0 ≤ b ∧ b < secAddr s.params slot c 0 + chBytes s.params := by
  rw [cellAddrs_append, List.mem_append] at h
  exact h.elim mem_cellAddrs_zeroCells.1 (mem_packFieldCells ht hn)

/-- Every channel's DC value is read back: neither the other channels' values nor the channel section touch it. -/
theorem trDc_commitPack (ht : (s.head c).tlen.toNat ≤ cap s.params) (hn : (s.head c).ndist.toNat ≤ cap s.params)
    (d : Chan) (hdc : (s.head d).dc.toNat < 2 ^ coefW s.params) :
    (commitPack slot c s).trDc slot d = (s.head d).dc := by
  have hbounds := section_bounds s.params
  have hin := trDc_in_slot s.params slot d
  have hsec := sec_in_slot s.params slot c
  obtain ⟨pre, post, hsplit, hpost⟩ := exists_flatMap_split Chan.nodup_all (Chan.mem_all d) (packDcValueCells slot s)
  have hread := State.readLE_store s (zeroCells (trAddr s.params slot 0) (dcBytes s.params) ++ pre)
    (post ++ (zeroCells (secAddr s.params slot c 0) (chBytes s.params) ++ packFieldCells slot c s))
    (trDcAddr s.params slot d) (coefBytes s.params) (s.head d).dc.toNat fun b h1 h2 hm => by
      rw [cellAddrs_append, List.mem_append] at hm
      rcases hm with hm | hm
      · obtain ⟨e, hde, hm⟩ := hpost b hm
        have := mem_cellAddrs_leCells.1 hm
        have := trDcAddr_apart s.params slot hde
        omega
      · have := mem_packSectionCells ht hn hm
        omega
  have hcells : packCells slot c s = zeroCells (trAddr s.params slot 0) (dcBytes s.params) ++ pre ++
      (leCells (trDcAddr s.params slot d) (coefBytes s.params) (s.head d).dc.toNat ++ (post ++
        (zeroCells (secAddr s.params slot c 0) (chBytes s.params) ++ packFieldCells slot c s))) := by
    rw [packCells, packDcCells_eq, hsplit, packDcValueCells]
    simp only [List.append_assoc]
  rw [← hcells] at hread
  exact State.coef_eq_of_readLE hdc hread

/-- The padding behind the DC values is 0. -/
theorem byte_commitPack_dcPadding (ht : (s.head c).tlen.toNat ≤ cap s.params)
    (hn : (s.head c).ndist.toNat ≤ cap s.params) {j : Nat} (h1 : 3 * coefBytes s.params ≤ j) (h2 : j < dcBytes s.params) :
    (commitPack slot c s).byte (trAddr s.params slot j) = 0 := by
  have hsec := sec_in_slot s.params slot c
  have haddr : trAddr s.params slot j = trAddr s.params slot 0 + j := by rw [← trAddr_add, Nat.zero_add]
  rw [haddr, commitPack, packCells, packDcCells_eq, List.append_assoc]
  refine State.byte_store_zeroCells s [] _ (by omega) (by omega) fun hm => ?_
  rw [cellAddrs_append, List.mem_append] at hm
  rcases hm with hm | hm
  · obtain ⟨d, _, hm⟩ := mem_cellAddrs_flatMap.1 hm
    have := mem_cellAddrs_leCells.1 hm
    have := trDc_in_slot s.params slot d
    omega
  · have := mem_packSectionCells ht hn hm
    omega

end

/-! ### Slots that read the same -/

/-- The section of channel c in a slot of `t` has the fields of that in the same slot of `s`. -/
structure SameSection (slot : Nat) (c : Chan) (s t : State) : Prop where
  tupLen : t.trTupLen slot c = s.trTupLen slot c
  tabLen : t.trTabLen slot c = s.trTabLen slot c
  tupCode : ∀ k, k < cap s.params → t.trTupCode slot c k = s.trTupCode slot c k
  tupRun : ∀ k, k < cap s.params → t.trTupRun slot c k = s.trTupRun slot c k
  tabCode : ∀ k, k < cap s.params → t.trTabCode slot c k = s.trTabCode slot c k
  tabVal : ∀ k, k < cap s.params → t.trTabVal slot c k = s.trTabVal slot c k

/-- The fields lie in the bytes of the section. -/
theorem sameSection_of_bytes {slot : Nat} {c : Chan} {s t : State} (hp : t.params = s.params)
    (hb : ∀ a, secAddr s.params slot c 0 ≤ a → a < secAddr s.params slot c 0 + chBytes s.params →
      t.byte a = s.byte a) : SameSection slot c s t := by
  have hbounds := section_bounds s.params
  have hhalf : ∀ off, off + 2 ≤ chBytes s.params →
      t.half (secAddr t.params slot c off) = s.half (secAddr s.params slot c off) := fun off hoff => by
    rw [hp, secAddr_add]
    exact State.half_congr fun b h1 h2 => hb b (by omega) (by omega)
  refine ⟨hhalf 0 (by omega), hhalf 2 (by omega), fun k hk => hhalf _ (by omega), fun k hk => hhalf _ (by omega),
    fun k hk => ?_, fun k hk => ?_⟩
  · have htc : tcOff t.params = tcOff s.params := by rw [hp]
    rw [State.trTabCode, htc, hhalf _ (by omega), State.trTabCode]
  · have hval := coefBytes_mul_add_le s.params hk
    unfold State.trTabVal
    rw [hp, secAddr_add]
    exact State.coef_congr hp fun b h1 h2 => hb b (by omega) (by omega)

theorem sameSlot.sameSection {slot : Nat} {s t : State} (h : sameSlot slot s t) (c : Chan) : SameSection slot c s t := by
  obtain ⟨hp, hb⟩ := h
  have hsec := sec_in_slot s.params slot c
  exact sameSection_of_bytes hp fun a h1 h2 => hb a (by omega) (by omega)

theorem sameSlot.trDc {slot : Nat} {s t : State} (h : sameSlot slot s t) (c : Chan) : t.trDc slot c = s.trDc slot c := by
  obtain ⟨hp, hb⟩ := h
  have hbounds := section_bounds s.params
  have hin := trDc_in_slot s.params slot c
  unfold State.trDc
  rw [hp]
  exact State.coef_congr hp fun b h1 h2 => hb b (by omega) (by omega)

theorem SameReads.sameSlot {s t : State} (h : SameReads s t) (slot : Nat) : sameSlot slot s t :=
  ⟨h.params, fun a _ _ => h.bytes a⟩

/-! ### PACK -/

/-- With lengths within CAP, PACK into an existing slot completes its commit. -/
theorem exec_pack_of_fits {s : State} {slot : Half} {c : Chan} (hs : slot.toNat < s.params.nSlot)
    (ht : (s.head c).tlen.toNat ≤ cap s.params) (hn : (s.head c).ndist.toNat ≤ cap s.params) :
    exec (.pack slot (Chan.field c)) s = .next (complete slot (commit (commitPack slot.toNat c s))) := by
  rw [exec_pack_of_slot c hs, capacityCheck_eq_none.2 ⟨ht, hn⟩, withCheck_none]

/-- Settles O13: PACK completes its commit, whose fields, zeros and untouched bytes are those above. -/
theorem packWritesTheSection : Obligations.PackWritesTheSection := by
  intro s slot c _ hs hdc ht hn
  have hsame := sameReads_complete_commit slot (commitPack slot.toNat c s)
  have hslot := hsame.sameSlot slot.toNat
  obtain ⟨htupLen, htabLen, htupCode, htupRun, htabCode, htabVal⟩ := hslot.sameSection c
  have hbounds := section_bounds s.params
  refine ⟨_, exec_pack_of_fits hs ht hn, completedOk_commit slot (onlyData_commitPack slot.toNat c s), hsame.enc,
    fun d => (hslot.trDc d).trans (trDc_commitPack ht hn d (hdc d)), htupLen.trans trTupLen_commitPack,
    htabLen.trans trTabLen_commitPack, fun k hk => ⟨?_, ?_, ?_, ?_⟩, fun j h1 h2 => ?_, fun j hj => ?_, fun a h1 h2 => ?_⟩
  · exact (htupCode k hk).trans (trTupCode_commitPack ht hk)
  · exact (htupRun k hk).trans (trTupRun_commitPack ht hk)
  · exact (congrArg BitVec.toNat (htabCode k hk)).trans (trTabCode_commitPack ht hk)
  · exact (htabVal k hk).trans (trTabVal_commitPack ht hn hk)
  · exact (hsame.bytes _).trans (byte_commitPack_dcPadding ht hn h1 h2)
  · have htab := Nat.mul_le_mul_left (coefBytes s.params) hn
    refine (hsame.bytes _).trans (byte_commitPack_unused (by omega) ?_)
    unfold usedOffset
    omega
  · exact (hsame.bytes a).trans (byte_commitPack ht hn h1 h2)

end Sys2Proof.Machine
end

section
/-! PROOFS. UNPACK of a valid slot (45_marshaller.md R171): each channel is loaded from its own section into its own
sub-window of ENC, so the channels do not disturb each other. -/

namespace Sys2Proof.Machine
open Sys2Proof

/-! ### One channel -/

/-- Channel c of `t` is loaded from its section in a slot of `s`: the table is placed by code. -/
structure LoadsSection (slot : Nat) (c : Chan) (s t : State) : Prop where
  head : t.head c = { dc := s.trDc slot c, tlen := s.trTupLen slot c, ndist := s.trTabLen slot c }
  tupCode : ∀ k, k < (s.trTupLen slot c).toNat → t.tupCode c k = s.trTupCode slot c k
  tupRun : ∀ k, k < (s.trTupLen slot c).toNat → t.tupRun c k = s.trTupRun slot c k
  inv : ∀ k, k < (s.trTabLen slot c).toNat → t.inv c (s.trTabCode slot c k).toNat = s.trTabVal slot c k

section
variable {s : State} {slot : Nat} {c : Chan}

/-- UNPACK of a valid section: TUP holds each tuple's code (45_marshaller.md R171). -/
theorem tupCode_unpackChannel (hl : legalBuild s.params = true) (hv : validate slot c s = none) {k : Nat}
    (hk : k < (s.trTupLen slot c).toNat) : (unpackChannel slot c s).tupCode c k = s.trTupCode slot c k := by
  obtain ⟨⟨htup, htab⟩, hentry, _⟩ := validate_eq_none.1 hv
  have hk' := tupAddr_bounds (c := c) hl (hk.trans_le htup)
  have hread : (s.store (unpackCells slot c s)).readLE (tupAddr c k) 2 = (s.trTupCode slot c k).toNat % 256 ^ 2 := by
    rw [unpackCells_eq]
    refine State.readLE_store_group s [] _ (unpackTupleCells slot c s) hk [] _ _ 2 _ rfl (fun b _ h2 hm => ?_)
      (fun j hj _ b _ h2 hm => ?_) fun b h1 h2 hm => ?_
    · have := mem_cellAddrs_leCells.1 hm
      omega
    · rw [mem_unpackTupleCells] at hm
      unfold tupAddr at *
      omega
    · obtain ⟨j, hj, hm⟩ := mem_cellAddrs_flatMap.1 hm
      have := invAddr_bounds (c := c) hl ((hentry j (List.mem_range.1 hj)).1.trans_le htab)
      rw [mem_unpackTableCells] at hm
      omega
  rw [unpackChannel, State.tupCode_setHead]
  exact State.half_eq_of_readLE_toNat hread

theorem loadsSection_unpackChannel (hl : legalBuild s.params = true) (hv : validate slot c s = none) :
    LoadsSection slot c s (unpackChannel slot c s) :=
  ⟨(head_unpackChannel s slot c c).trans (if_pos rfl), fun _ => tupCode_unpackChannel hl hv,
    fun _ => tupRun_unpackChannel hl hv, fun _ => inv_unpackChannel hv⟩

/-- What a valid section loads stays loaded where the Encoded Channel stays. -/
theorem LoadsSection.of_sameEncodedChannel {t u : State} (hv : validate slot c s = none) (h : LoadsSection slot c s t)
    (hsame : SameEncodedChannel c t u) : LoadsSection slot c s u := by
  obtain ⟨_, hentry, _⟩ := validate_eq_none.1 hv
  obtain ⟨hhead, hcode, hrun, hinv⟩ := h
  obtain ⟨hhead', hcode', hrun', hinv'⟩ := hsame
  rw [hhead] at hhead' hcode' hrun' hinv'
  exact ⟨hhead', fun k hk => (hcode' k hk).trans (hcode k hk), fun k hk => (hrun' k hk).trans (hrun k hk),
    fun k hk => (hinv' _ (hentry k hk).1).trans (hinv k hk)⟩

/-- What is loaded from a valid section depends on the slot's bytes alone. -/
theorem LoadsSection.of_sameSlot {s' t : State} (hv : validate slot c s = none) (hsame : sameSlot slot s s')
    (h : LoadsSection slot c s' t) : LoadsSection slot c s t := by
  obtain ⟨⟨htup, htab⟩, _⟩ := validate_eq_none.1 hv
  obtain ⟨htupLen, htabLen, htupCode, htupRun, htabCode, htabVal⟩ := hsame.sameSection c
  obtain ⟨hhead, hcode, hrun, hinv⟩ := h
  rw [htupLen, htabLen, hsame.trDc] at hhead
  rw [htupLen] at hcode hrun
  rw [htabLen] at hinv
  refine ⟨hhead, fun k hk => ?_, fun k hk => ?_, fun k hk => ?_⟩
  · rw [hcode k hk, htupCode k (hk.trans_le htup)]
  · rw [hrun k hk, htupRun k (hk.trans_le htup)]
  · rw [← htabCode k (hk.trans_le htab), hinv k hk, htabVal k (hk.trans_le htab)]

/-- UNPACK of a valid section keeps the slots: TR lies above ENC. -/
theorem sameSlot_unpackChannel (hl : legalBuild s.params = true) (hv : validate slot c s = none) :
    sameSlot slot s (unpackChannel slot c s) := by
  have hbase := encBase_bounds c
  refine ⟨(onlyData_unpackChannel slot c s).params, fun a ha _ => byte_unpackChannel_outside_enc hl hv fun hin => ?_⟩
  unfold trAddr at ha
  omega

theorem SameChannel.trans {t u : State} (h : SameChannel c s t) (h' : SameChannel c t u) : SameChannel c s u :=
  ⟨h'.params.trans h.params, h'.head.trans h.head, fun a h1 h2 => (h'.bytes a h1 h2).trans (h.bytes a h1 h2)⟩

/-- UNPACK of a valid section keeps every other channel. -/
theorem sameChannel_unpackChannel (hl : legalBuild s.params = true) (hv : validate slot c s = none) {d : Chan}
    (hd : d ≠ c) : SameChannel d s (unpackChannel slot c s) := by
  refine sameChannel_setHead_store hd _ fun a ha => ?_
  have hcap := cap_lt hl
  have hbytes := coefBytes_mul_nMax_le hl
  have hinv : coefBytes s.params * cap s.params ≤ coefBytes s.params * s.params.nMax :=
    Nat.mul_le_mul_left _ (by omega)
  have := mem_unpackCells_bounds hl hv ha
  omega

/-- The bytes that UNPACK may store for channel c: the used tuples and the used table. -/
def unpackTouches (slot : Nat) (c : Chan) (s : State) (a : Nat) : Prop :=
  (tupAddr c 0 ≤ a ∧ a < tupAddr c 0 + 4 * (s.trTupLen slot c).toNat) ∨
    (invAddr s.params c 0 ≤ a ∧ a < invAddr s.params c 0 + (s.trTabLen slot c).toNat * coefBytes s.params)

theorem byte_unpackChannel_of_valid (hv : validate slot c s = none) {a : Nat} (ha : ¬unpackTouches slot c s a) :
    (unpackChannel slot c s).byte a = s.byte a := by
  obtain ⟨_, hentry, _⟩ := validate_eq_none.1 hv
  refine byte_unpackChannel (fun k hk h => ha (.inl ?_)) fun k hk h =>
    ha (.inr ((invAddr_in _ _ _ _).1 ⟨_, (hentry k hk).1, h⟩))
  unfold tupAddr at *
  omega

end

/-! ### The channels, one after another -/

/-- UNPACK's commits of several channels, in the order of the list. -/
def unpackChannels (slot : Nat) : List Chan → State → State
  | [], s => s
  | c :: cs, s => unpackChannels slot cs (unpackChannel slot c s)

/-- UNPACK's commit is that of all channels (R171). -/
theorem commitUnpack_eq (slot : Nat) (s : State) : commitUnpack slot s = unpackChannels slot Chan.all s := rfl

/-- A slot of a legal build whose sections are all valid. -/
structure SlotValid (slot : Nat) (s : State) : Prop where
  legal : legalBuild s.params = true
  valid : ∀ c, validate slot c s = none

section
variable {s : State} {slot : Nat} {c : Chan}

theorem SlotValid.unpackChannel (h : SlotValid slot s) (c : Chan) : SlotValid slot (unpackChannel slot c s) :=
  ⟨by rw [(onlyData_unpackChannel slot c s).params]; exact h.legal,
    fun d => (validate_unpackChannel h.legal (h.valid c) d).trans (h.valid d)⟩

/-- A channel that the list does not name is kept. -/
theorem sameChannel_unpackChannels {cs : List Chan} (hc : c ∉ cs) (h : SlotValid slot s) :
    SameChannel c s (unpackChannels slot cs s) := by
  induction cs generalizing s with
  | nil => exact ⟨rfl, rfl, fun _ _ _ => rfl⟩
  | cons d cs ih =>
    rw [List.mem_cons, not_or] at hc
    exact (sameChannel_unpackChannel h.legal (h.valid d) hc.1).trans (ih hc.2 (h.unpackChannel d))

/-- Each channel of the list is loaded: its own turn loads it, and the ones after it keep it. -/
theorem loadsSection_unpackChannels {cs : List Chan} (hcs : cs.Nodup) (hc : c ∈ cs) (h : SlotValid slot s) :
    LoadsSection slot c s (unpackChannels slot cs s) := by
  induction cs generalizing s with
  | nil => exact absurd hc List.not_mem_nil
  | cons d cs ih =>
    obtain ⟨hd, hcs⟩ := List.nodup_cons.1 hcs
    rw [unpackChannels]
    rcases List.mem_cons.1 hc with heq | hc
    · subst heq
      have hok := channelOk_unpackChannel h.legal (h.valid c)
      have hkeep := sameChannel_unpackChannels hd (h.unpackChannel c)
      exact (loadsSection_unpackChannel h.legal (h.valid c)).of_sameEncodedChannel (h.valid c)
        (hkeep.sameEncodedChannel (h.unpackChannel c).legal hok.tlen_le hok.ndist_le)
    · exact (ih hcs hc (h.unpackChannel d)).of_sameSlot (h.valid c) (sameSlot_unpackChannel h.legal (h.valid d))

/-- A byte that no channel of the list may store is as before. -/
theorem byte_unpackChannels {cs : List Chan} {a : Nat} (h : SlotValid slot s) (ha : ∀ c ∈ cs, ¬unpackTouches slot c s a) :
    (unpackChannels slot cs s).byte a = s.byte a := by
  induction cs generalizing s with
  | nil => rfl
  | cons d cs ih =>
    have hslot := sameSlot_unpackChannel h.legal (h.valid d)
    have hrest : ∀ c ∈ cs, ¬unpackTouches slot c (unpackChannel slot d s) a := fun c hc => by
      obtain ⟨htupLen, htabLen, _⟩ := hslot.sameSection c
      obtain ⟨hp, _⟩ := hslot
      rw [unpackTouches, htupLen, htabLen, hp]
      exact ha c (List.mem_cons_of_mem _ hc)
    exact (ih (h.unpackChannel d) hrest).trans (byte_unpackChannel_of_valid (h.valid d) (ha d List.mem_cons_self))

end

/-! ### UNPACK -/

/-- UNPACK of an existing valid slot completes its commit. -/
theorem exec_unpack_of_valid {s : State} {slot : Half} (hs : slot.toNat < s.params.nSlot)
    (hv : ∀ c, validate slot.toNat c s = none) :
    exec (.unpack slot) s = .next (complete slot (commit (commitUnpack slot.toNat s))) := by
  rw [exec_unpack_of_slot hs, unpackSlot_of_valid hv]

/-- UNPACK of an existing valid slot leaves every channel loaded. -/
theorem loadsSection_of_unpack {s : State} {slot : Half} (h : SlotValid slot.toNat s) (c : Chan) :
    LoadsSection slot.toNat c s (complete slot (commit (commitUnpack slot.toNat s))) := by
  rw [commitUnpack_eq]
  exact (loadsSection_unpackChannels Chan.nodup_all (Chan.mem_all c) h).of_sameEncodedChannel (h.valid c)
    ((sameReads_complete_commit slot _).sameEncodedChannel c)

/-- Settles O14: every channel is loaded, later channels keep it, and all stores lie in the used parts. -/
theorem unpackLoadsAValidSlot : Obligations.UnpackLoadsAValidSlot := by
  intro s slot ⟨hl, _⟩ hs hv
  have hvalid : SlotValid slot.toNat s := ⟨hl, hv⟩
  refine ⟨_, exec_unpack_of_valid hs hv, completedOk_commit slot (onlyData_commitUnpack slot.toNat s), fun c => ?_,
    fun a ha => ?_⟩
  · obtain ⟨hhead, hcode, htupRun, hinv⟩ := loadsSection_of_unpack hvalid c
    exact ⟨hhead, fun k hk => ⟨hcode k hk, htupRun k hk⟩, hinv⟩
  · rw [State.byte_complete, commit_after, commitUnpack_eq]
    exact byte_unpackChannels hvalid fun c _ => not_or.2 (ha c)

end Sys2Proof.Machine
end

section
/-! PROOFS. UNPACK after the three PACKs of a slot (45_marshaller.md R174): each PACK leaves its channel's section and keeps
the sections packed before it, and a slot that holds an Encoded Block is valid and loads that block. -/

namespace Sys2Proof.Machine
open Sys2Proof

/-! ### A section that holds an Encoded Channel -/

/-- The section of channel c in a slot of `t` holds the lengths, the used tuples and the used table of channel c of `s`, the
table in the order of its codes. -/
structure SectionHolds (slot : Nat) (c : Chan) (s t : State) : Prop where
  tupLen : t.trTupLen slot c = (s.head c).tlen
  tabLen : t.trTabLen slot c = (s.head c).ndist
  tupCode : ∀ k, k < (s.head c).tlen.toNat → t.trTupCode slot c k = s.tupCode c k
  tupRun : ∀ k, k < (s.head c).tlen.toNat → t.trTupRun slot c k = s.tupRun c k
  tabCode : ∀ k, k < (s.head c).ndist.toNat → (t.trTabCode slot c k).toNat = k
  tabVal : ∀ k, k < (s.head c).ndist.toNat → t.trTabVal slot c k = s.inv c k

section
variable {s t u : State} {slot : Nat} {c : Chan}

/-- PACK leaves its channel's section. -/
theorem sectionHolds_commitPack (ht : (s.head c).tlen.toNat ≤ cap s.params) (hn : (s.head c).ndist.toNat ≤ cap s.params) :
    SectionHolds slot c s (commitPack slot c s) :=
  ⟨trTupLen_commitPack, trTabLen_commitPack,
    fun _ hk => (trTupCode_commitPack ht (hk.trans_le ht)).trans (if_pos hk),
    fun _ hk => (trTupRun_commitPack ht (hk.trans_le ht)).trans (if_pos hk),
    fun _ hk => (trTabCode_commitPack ht (hk.trans_le hn)).trans (if_pos hk),
    fun _ hk => (trTabVal_commitPack ht hn (hk.trans_le hn)).trans (if_pos hk)⟩

/-- The section holds any equal Encoded Channel. -/
theorem SectionHolds.of_sameEncodedChannel (h : SectionHolds slot c t u) (hsame : SameEncodedChannel c s t) :
    SectionHolds slot c s u := by
  obtain ⟨hhead, hcode', hrun', hinv'⟩ := hsame
  obtain ⟨htupLen, htabLen, hcode, hrun, htabCode, hval⟩ := h
  rw [hhead] at htupLen htabLen hcode hrun htabCode hval
  exact ⟨htupLen, htabLen, fun k hk => (hcode k hk).trans (hcode' k hk), fun k hk => (hrun k hk).trans (hrun' k hk),
    htabCode, fun k hk => (hval k hk).trans (hinv' k hk)⟩

/-- It stays held where the section's fields stay. -/
theorem SectionHolds.of_sameSection (h : SectionHolds slot c s t) (hsame : SameSection slot c t u)
    (ht : (s.head c).tlen.toNat ≤ cap t.params) (hn : (s.head c).ndist.toNat ≤ cap t.params) :
    SectionHolds slot c s u := by
  obtain ⟨htupLen', htabLen', hcode', hrun', htabCode', hval'⟩ := hsame
  obtain ⟨htupLen, htabLen, hcode, hrun, htabCode, hval⟩ := h
  exact ⟨htupLen'.trans htupLen, htabLen'.trans htabLen, fun k hk => (hcode' k (hk.trans_le ht)).trans (hcode k hk),
    fun k hk => (hrun' k (hk.trans_le ht)).trans (hrun k hk),
    fun k hk => (congrArg BitVec.toNat (htabCode' k (hk.trans_le hn))).trans (htabCode k hk),
    fun k hk => (hval' k (hk.trans_le hn)).trans (hval k hk)⟩

/-- PACK of another channel keeps the section: it writes the DC section and its own (R170). -/
theorem sameSection_commitPack_of_ne {d : Chan} (hd : c ≠ d) (ht : (s.head d).tlen.toNat ≤ cap s.params)
    (hn : (s.head d).ndist.toNat ≤ cap s.params) : SameSection slot c s (commitPack slot d s) := by
  have hin := sec_in_slot s.params slot c
  have hapart := sec_apart s.params slot hd
  exact sameSection_of_bytes rfl fun a h1 h2 => byte_commitPack ht hn (by omega) (by omega)

/-- A section that holds a channel within the invariants is valid: its codes are the indices (R172, R173). -/
theorem SectionHolds.validate_eq_none (h : SectionHolds slot c s t) (hp : t.params = s.params) (hok : ChannelOk c s) :
    validate slot c t = none := by
  obtain ⟨hndist, htlen, hdistinct, hruns, _⟩ := hok
  obtain ⟨htupLen, htabLen, _, hrun, htabCode, hval⟩ := h
  rw [Machine.validate_eq_none, lengthsPass, htupLen, htabLen, hp]
  refine ⟨⟨htlen, hndist⟩, fun k hk => ⟨by rwa [htabCode k hk], fun j hj => ⟨fun he => ?_, ?_⟩⟩, fun k hk => ?_⟩
  · have hcodes := congrArg BitVec.toNat he
    rw [htabCode j (hj.trans hk), htabCode k hk] at hcodes
    omega
  · rw [hval j (hj.trans hk), hval k hk]
    exact hdistinct j k hj hk
  · rw [hrun k hk]
    exact hruns k hk

/-- What is loaded from a section that holds an Encoded Channel is that channel. -/
theorem SectionHolds.sameEncodedChannel (h : SectionHolds slot c s t) (hdc : t.trDc slot c = (s.head c).dc)
    (hload : LoadsSection slot c t u) : SameEncodedChannel c s u := by
  obtain ⟨htupLen, htabLen, hcode, hrun, htabCode, hval⟩ := h
  obtain ⟨hhead, hcode', hrun', hinv⟩ := hload
  rw [hdc, htupLen, htabLen] at hhead
  rw [htupLen] at hcode' hrun'
  rw [htabLen] at hinv
  refine ⟨hhead, fun k hk => (hcode' k hk).trans (hcode k hk), fun k hk => (hrun' k hk).trans (hrun k hk), fun k hk => ?_⟩
  have hk' := hinv k hk
  rwa [htabCode k hk, hval k hk] at hk'

end

/-! ### One PACK after another -/

theorem SameEncodedChannel.refl (c : Chan) (s : State) : SameEncodedChannel c s s :=
  ⟨rfl, fun _ _ => rfl, fun _ _ => rfl, fun _ _ => rfl⟩

theorem sameEncodedBlock_iff {s t : State} : sameEncodedBlock s t ↔ ∀ c, SameEncodedChannel c s t := by
  constructor
  · intro h c
    obtain ⟨hhead, htuple, hinv⟩ := h c
    exact ⟨hhead, fun k hk => (htuple k hk).1, fun k hk => (htuple k hk).2, hinv⟩
  · intro h c
    obtain ⟨hhead, hcode, hrun, hinv⟩ := h c
    exact ⟨hhead, fun k hk => ⟨hcode k hk, hrun k hk⟩, hinv⟩

/-- An existing slot of a legal build, and an Encoded Block within the invariants I1 to I3 and with DC in width. -/
structure Packable (slot : Nat) (s : State) : Prop where
  legal : legalBuild s.params = true
  slot_lt : slot < s.params.nSlot
  channels : ∀ c, ChannelOk c s

theorem ChannelOk.of_sameEncodedChannel {s t : State} {c : Chan} (h : ChannelOk c s) (hp : t.params = s.params)
    (hsame : SameEncodedChannel c s t) : ChannelOk c t := by
  obtain ⟨hhead, _, hrun, hinv⟩ := hsame
  refine ⟨by rw [hhead, hp]; exact h.ndist_le, by rw [hhead, hp]; exact h.tlen_le, fun j k hj hk => ?_, fun k hk => ?_,
    by rw [hhead, hp]; exact h.dc_lt⟩
  · rw [hhead] at hk
    rw [hinv j (hj.trans hk), hinv k hk]
    exact h.distinct j k hj hk
  · rw [hhead] at hk
    rw [hrun k hk]
    exact h.runs k hk

/-- The sections of the listed channels in a slot of `t`, of the build of `s`, hold the Encoded Block of `s`. -/
structure SlotHolds (slot : Nat) (cs : List Chan) (s t : State) : Prop where
  params : t.params = s.params
  sections : ∀ c ∈ cs, SectionHolds slot c s t

theorem slotHolds_nil (slot : Nat) (s : State) : SlotHolds slot [] s s := ⟨rfl, by simp⟩

section
variable {s t u : State} {cs : List Chan}

theorem Packable.of_sameEncodedBlock {slot : Nat} (h : Packable slot s) (hp : t.params = s.params)
    (hblock : ∀ c, SameEncodedChannel c s t) : Packable slot t :=
  ⟨by rw [hp]; exact h.legal, by rw [hp]; exact h.slot_lt, fun c => (h.channels c).of_sameEncodedChannel hp (hblock c)⟩

theorem SlotHolds.of_sameSlot {slot : Nat} (h : SlotHolds slot cs s t) (hs : Packable slot s) (hsame : sameSlot slot t u) :
    SlotHolds slot cs s u := by
  obtain ⟨hp, hsec⟩ := h
  have hp' : u.params = t.params := hsame.1
  refine ⟨hp'.trans hp, fun c hc => (hsec c hc).of_sameSection (hsame.sameSection c) ?_ ?_⟩
  · rw [hp]
    exact (hs.channels c).tlen_le
  · rw [hp]
    exact (hs.channels c).ndist_le

/-- PACK of one more channel, from an equal Encoded Block, adds its section and keeps the others. -/
theorem SlotHolds.commitPack {slot : Nat} (h : SlotHolds slot cs s t) (hs : Packable slot s)
    (hblock : ∀ c, SameEncodedChannel c s t) (c : Chan) : SlotHolds slot (c :: cs) s (commitPack slot c t) := by
  obtain ⟨hp, hsec⟩ := h
  have hc := (hs.of_sameEncodedBlock hp hblock).channels c
  refine ⟨hp, fun d hd => ?_⟩
  by_cases hdc : d = c
  · subst hdc
    exact (sectionHolds_commitPack hc.tlen_le hc.ndist_le).of_sameEncodedChannel (hblock d)
  · refine (hsec d ((List.mem_cons.1 hd).resolve_left hdc)).of_sameSection
      (sameSection_commitPack_of_ne hdc hc.tlen_le hc.ndist_le) ?_ ?_
    · rw [hp]
      exact (hs.channels d).tlen_le
    · rw [hp]
      exact (hs.channels d).ndist_le

/-- PACK of one more channel raises no error, adds its section, keeps the others, and leaves every DC value. -/
theorem runCommand_pack {slot : Half} (h : SlotHolds slot.toNat cs s t) (hs : Packable slot.toNat s)
    (hblock : ∀ c, SameEncodedChannel c s t) (c : Chan) :
    ∃ u, runCommand (.pack slot (Chan.field c)) t = .next u ∧ u.statusErr = false ∧
      SlotHolds slot.toNat (c :: cs) s u ∧ ∀ d, u.trDc slot.toNat d = (s.head d).dc := by
  have haccept := sameReads_accept (encode (.pack slot (Chan.field c))) t
  generalize hw : accept (encode (.pack slot (Chan.field c))) t = a at haccept
  have hblock' : ∀ d, SameEncodedChannel d s a := fun d => (hblock d).trans (haccept.sameEncodedChannel d)
  have hholds : SlotHolds slot.toNat cs s a := h.of_sameSlot hs (haccept.sameSlot slot.toNat)
  have ha := hs.of_sameEncodedBlock hholds.params hblock'
  have hc := ha.channels c
  have hslot := (sameReads_complete_commit slot (commitPack slot.toNat c a)).sameSlot slot.toNat
  obtain ⟨_, _, _, hstatus, _⟩ := completedOk_commit slot (onlyData_commitPack slot.toNat c a)
  refine ⟨_, ?_, ?_, (hholds.commitPack hs hblock' c).of_sameSlot hs hslot, fun d => ?_⟩
  · rw [runCommand, hw]
    exact exec_pack_of_fits ha.slot_lt hc.tlen_le hc.ndist_le
  · rw [hstatus, ← hw]
    rfl
  · rw [hslot.trDc, trDc_commitPack hc.tlen_le hc.ndist_le d (ha.channels d).dc_lt, (hblock' d).head]

/-- UNPACK of a slot that holds an Encoded Block raises no error and gives the block back. -/
theorem runCommand_unpack {slot : Half} (h : SlotHolds slot.toNat cs s t) (hs : Packable slot.toNat s)
    (hall : ∀ c, c ∈ cs) (hdc : ∀ c, t.trDc slot.toNat c = (s.head c).dc) :
    ∃ u, runCommand (.unpack slot) t = .next u ∧ u.statusErr = false ∧ ∀ c, SameEncodedChannel c s u := by
  have hslot := (sameReads_accept (encode (.unpack slot)) t).sameSlot slot.toNat
  generalize hw : accept (encode (.unpack slot)) t = a at hslot
  obtain ⟨hp, hsec⟩ : SlotHolds slot.toNat cs s a := h.of_sameSlot hs hslot
  have hvalid : SlotValid slot.toNat a :=
    ⟨by rw [hp]; exact hs.legal, fun c => (hsec c (hall c)).validate_eq_none hp (hs.channels c)⟩
  obtain ⟨_, _, _, hstatus, _⟩ := completedOk_commit slot (onlyData_commitUnpack slot.toNat a)
  refine ⟨_, ?_, ?_, fun c =>
    (hsec c (hall c)).sameEncodedChannel ((hslot.trDc c).trans (hdc c)) (loadsSection_of_unpack hvalid c)⟩
  · rw [runCommand, hw]
    exact exec_unpack_of_valid (by rw [hp]; exact hs.slot_lt) hvalid.valid
  · rw [hstatus, ← hw]
    rfl

end

/-- Settles O38: each PACK adds its section to the slot, the last one leaves every DC value, and UNPACK loads what the
slot holds. -/
theorem unpackAfterPackGivesTheEncodedBlock : Obligations.UnpackAfterPackGivesTheEncodedBlock := by
  intro s₀ s₁ s₂ v slot c₀ c₁ c₂ hl hlen htab hruns hdc hslot hperm
  have hs : Packable slot.toNat s₀ :=
    ⟨hl, hslot, fun c => ⟨(hlen c).1, (hlen c).2, htab c, hruns c, hdc c⟩⟩
  have hall : ∀ c, c ∈ [c₂, c₁, c₀] := fun c => by
    have hmem : c ∈ [c₀, c₁, c₂] := hperm.mem_iff.2 (Chan.mem_all c)
    exact List.mem_reverse.2 hmem
  obtain ⟨t₀, hrun₀, hstatus₀, hholds₀, _⟩ := runCommand_pack (slotHolds_nil _ s₀) hs
    (fun c => SameEncodedChannel.refl c s₀) c₀
  refine ⟨t₀, hrun₀, hstatus₀, fun hslot₁ hblock₁ => ?_⟩
  obtain ⟨t₁, hrun₁, hstatus₁, hholds₁, _⟩ :=
    runCommand_pack (hholds₀.of_sameSlot hs hslot₁) hs (sameEncodedBlock_iff.1 hblock₁) c₁
  refine ⟨t₁, hrun₁, hstatus₁, fun hslot₂ hblock₂ => ?_⟩
  obtain ⟨t₂, hrun₂, hstatus₂, hholds₂, hdc₂⟩ :=
    runCommand_pack (hholds₁.of_sameSlot hs hslot₂) hs (sameEncodedBlock_iff.1 hblock₂) c₂
  refine ⟨t₂, hrun₂, hstatus₂, fun hslot₃ => ?_⟩
  obtain ⟨u, hrun, hstatus, hsame⟩ :=
    runCommand_unpack (hholds₂.of_sameSlot hs hslot₃) hs hall fun c => (hslot₃.trDc c).trans (hdc₂ c)
  exact ⟨u, hrun, hstatus, sameEncodedBlock_iff.2 hsame⟩

end Sys2Proof.Machine
end

section
/-! PROOFS. NOP (46_housekeeping.md R190): its execution commits the state as it is, so completion is all that happens. -/

namespace Sys2Proof.Machine
open Sys2Proof

/-- NOP completes the commit of nothing; neither LEN nor any channel is checked. -/
theorem exec_nop (tag : Half) (s : State) : exec (.nop tag) s = .next (complete tag (commit s)) := rfl

/-- Completing the commit of an unchanged state leaves every data state as it was. -/
theorem sameData_complete_commit (slot : Half) (s : State) : sameData s (complete slot (commit s)) := by
  have hsame := sameReads_complete_commit slot s
  exact ⟨hsame.bytes, hsame.enc⟩

/-- Settles O6: NOP is the completion of an unchanged state, which keeps all control state but BUSY and DONE and all data
state. -/
theorem nopOnlyCompletes : Obligations.NopOnlyCompletes := by
  intro s tag _
  have hcontrol : completedOk s (complete tag (commit s)) := completedOk_commit tag (onlyData.refl s)
  exact ⟨_, exec_nop tag s, hcontrol, sameData_complete_commit tag s⟩

end Sys2Proof.Machine
end

section
/-! PROOFS. Command-level errors (60_exceptions.md R205 to R208): a check that fails before any commit raises, and the
completion of what it raises records the error, with no channel in CHMASK, and changes no data state (R212). -/

namespace Sys2Proof.Machine
open Sys2Proof

/-- A command that raises a command-level error completes with its record and no change to the data state. -/
theorem exec_reports_of_raise {i : Instr} {s : State} {slot : Half} {e : CmdError} (hcause : e.cause.isData = false)
    (hpos : e.pos = 0) (hexec : exec i s = .next (complete slot (raise s e))) :
    ∃ t, exec i s = .next t ∧ sameData s t ∧ completedErr s t (commandRecord e.cause slot e.ch e.lo e.hi) :=
  ⟨_, hexec, sameData_raise s slot e, completedErr_command s slot e hcause hpos⟩

/-! ### CH = 3 (R206) -/

/-- A channel command checks its channel operand first. -/
theorem exec_eq_withChannel {i : Instr} {ch : BitVec 2} {tag : Half} (s : State)
    (hi : i ∈ [Instr.extract ch tag, .buildTable ch tag, .rleEncode ch tag, .rleDecode ch tag, .pack tag ch]) :
    ∃ k, exec i s = .next (complete tag (withChannel ch s k)) := by
  simp only [List.mem_cons, List.not_mem_nil, or_false] at hi
  rcases hi with rfl | rfl | rfl | rfl | rfl
  all_goals exact ⟨_, rfl⟩

/-- Settles O16: the channel check comes first, and with CH = 3 it raises BAD_CHANNEL. -/
theorem channelThreeRaisesBadChannel : Obligations.ChannelThreeRaisesBadChannel := by
  intro s tag _ i hi
  obtain ⟨k, hexec⟩ := exec_eq_withChannel s hi
  rw [withChannel_three] at hexec
  exact exec_reports_of_raise rfl rfl hexec

/-! ### LEN out of range (R207) -/

/-- With a command latched, the LEN check raises for the latched LEN. -/
theorem withLen_of_latch {s : State} {l : Latch} (hlatch : s.latch = some l)
    (hlen : ¬(1 ≤ l.len.toNat ∧ l.len.toNat ≤ s.params.nMax)) (ch : BitVec 2) (k : Nat → Execution) :
    withLen ch s k = raise s
      { cause := .badLen, ch := ch, pos := 0, lo := l.len.setWidth 32, hi := BitVec.ofNat 32 s.params.nMax } := by
  rw [← State.len_of_latch hlatch] at hlen
  rw [withLen_of_illegal k hlen, State.len_of_latch hlatch, BitVec.ofNat_toNat]

/-- A channel command on the block's data checks LEN once its channel is legal. -/
theorem exec_channel_eq_withLen {i : Instr} {c : Chan} {tag : Half} (s : State)
    (hi : i ∈ [Instr.extract (Chan.field c) tag, .buildTable (Chan.field c) tag, .rleEncode (Chan.field c) tag,
      .rleDecode (Chan.field c) tag]) :
    ∃ k, exec i s = .next (complete tag (withLen (Chan.field c) s k)) := by
  have hchannel : ∃ k : Chan → Nat → Execution,
      exec i s = .next (complete tag (withChannel (Chan.field c) s fun d => withLen (Chan.field c) s (k d))) := by
    simp only [List.mem_cons, List.not_mem_nil, or_false] at hi
    rcases hi with rfl | rfl | rfl | rfl
    all_goals exact ⟨fun _ _ => _, rfl⟩
  obtain ⟨k, hexec⟩ := hchannel
  exact ⟨k c, by rw [hexec, withChannel_field]⟩

/-- The block commands check LEN first, with 0 in their CH field. -/
theorem exec_block_eq_withLen {i : Instr} {tag : Half} (s : State)
    (hi : i ∈ [Instr.encodeBlock tag, .decodeBlock tag]) :
    ∃ k, exec i s = .next (complete tag (withLen 0 s k)) := by
  simp only [List.mem_cons, List.not_mem_nil, or_false] at hi
  rcases hi with rfl | rfl
  all_goals exact ⟨_, rfl⟩

/-- Settles O17: each of the six commands comes to its LEN check, which raises BAD_LEN. -/
theorem lenOutOfRangeRaisesBadLen : Obligations.LenOutOfRangeRaisesBadLen := by
  intro s l c tag _ hlatch hlen
  have hreport : ∀ (ch : BitVec 2) (i : Instr), (∃ k, exec i s = .next (complete tag (withLen ch s k))) →
      ∃ t, exec i s = .next t ∧ sameData s t ∧ completedErr s t
        (commandRecord .badLen tag ch (l.len.setWidth 32) (BitVec.ofNat 32 s.params.nMax)) := by
    rintro ch i ⟨k, hexec⟩
    rw [withLen_of_latch hlatch hlen] at hexec
    exact exec_reports_of_raise rfl rfl hexec
  exact ⟨fun i hi => hreport _ i (exec_channel_eq_withLen s hi),
    fun i hi => hreport 0 i (exec_block_eq_withLen s hi)⟩

/-! ### The slot index (R208) -/

theorem exec_pack_of_slot_ge {s : State} {slot : Half} (c : Chan) (hs : s.params.nSlot ≤ slot.toNat) :
    exec (.pack slot (Chan.field c)) s = .next (complete slot (raise s
      { cause := .slotRange, ch := Chan.field c, pos := 0, lo := slot.setWidth 32,
        hi := BitVec.ofNat 32 s.params.nSlot })) := by
  change execPack slot (Chan.field c) s = _
  rw [execPack, withChannel_field, withSlot_of_illegal _ hs]

theorem exec_unpack_of_slot_ge {s : State} {slot : Half} (hs : s.params.nSlot ≤ slot.toNat) :
    exec (.unpack slot) s = .next (complete slot (raise s
      { cause := .slotRange, ch := 0, pos := 0, lo := slot.setWidth 32, hi := BitVec.ofNat 32 s.params.nSlot })) := by
  change execUnpack slot s = _
  rw [execUnpack, withSlot_of_illegal _ hs]

/-- Settles O18: both commands check the slot before they read or write it. -/
theorem slotBeyondNslotRaisesSlotRange : Obligations.SlotBeyondNslotRaisesSlotRange := fun _ _ c _ hs =>
  ⟨exec_reports_of_raise rfl rfl (exec_pack_of_slot_ge c hs),
    exec_reports_of_raise rfl rfl (exec_unpack_of_slot_ge hs)⟩

/-! ### Illegal words (R205) -/

/-- The illegal words are those that do not decode (30_encoding.md R105). -/
theorem decode_refuses_iff_illegal {w : Word} : (∃ e, decode w = .error e) ↔ illegal w = true := by
  unfold decode
  split
  · next hrsv => simp [decodeOp_refuses, illegal, hrsv, ← BitVec.toNat_inj, or_assoc]
  · next hrsv => exact iff_of_true ⟨_, rfl⟩ (by rw [illegal, bne_iff_ne.2 hrsv, Bool.or_true, Bool.true_or])

theorem runWord_of_illegal {w : Word} (h : illegal w = true) (s : State) :
    runWord w s = .next (complete (slotField w) (raise s (badCmd w))) := by
  obtain ⟨e, he⟩ := decode_refuses_iff_illegal.2 h
  rw [runWord, he]

/-- Where the engine's turn comes while a command runs: as the next input, which is used up, with no input left, or with
a transaction held (log entry 5). -/
theorem step_eq_engineTurn {s : State} {es : List Event} (hl : legalBuild s.params = true) (hr : s.rstN = true)
    (hb : s.busy = true)
    (hturn : (s.held = none ∧ s.events = .engine :: es) ∨ (s.held = none ∧ s.events = [] ∧ es = []) ∨
      (s.held.isSome = true ∧ noReset s.events ∧ es = s.events)) :
    step s = engineTurn { s with events := es } := by
  rcases hturn with ⟨hh, hev⟩ | ⟨hh, hev, hes⟩ | ⟨hh, hno, rfl⟩
  · rw [step_eq_takeEvent hl hr hh, takeEvent_engine hev]
  · obtain rfl : es = s.events := hes.trans hev.symm
    rw [step_eq_takeEvent hl hr hh, takeEvent_nil hev]
  · obtain ⟨t, ht⟩ := Option.isSome_iff_exists.1 hh
    exact step_held_busy hl hr ht hno hb

/-- Settles O15: the step is the engine's turn, and on an illegal word that is the completion of BAD_CMD. -/
theorem illegalWordCompletesWithBadCmd : Obligations.IllegalWordCompletesWithBadCmd := by
  intro s l es hl hr hlatch hill hturn
  have hstep : step s =
      .next (complete (slotField l.cmd) (raise { s with events := es } (badCmd l.cmd))) := by
    rw [step_eq_engineTurn hl hr (State.busy_of_latch hlatch) hturn,
      engineTurn_of_latch (s := { s with events := es }) hlatch, runWord_of_illegal hill]
  exact ⟨_, hstep, sameData_raise { s with events := es } _ _, completedErr_command _ _ (badCmd l.cmd) rfl rfl⟩

end Sys2Proof.Machine
end

section
/-! PROOFS. The interrupt output (60_exceptions.md R218): `irq` is the level of the enabled pending events, and an
IRQ_EN write (10_state.md R36) moves it at once. -/

namespace Sys2Proof.Machine
open Sys2Proof

/-- With `rst_n` high, `irq` is high exactly when some event is enabled and pending. -/
theorem irq_iff {s : State} (hr : s.rstN = true) :
    s.irq = true ↔ ∃ i, i < 4 ∧ s.irqEn.getLsbD i = true ∧ s.irqStatus.getLsbD i = true := by
  simp only [State.irq, hr, Bool.true_and, bne_iff_ne, ne_eq, BitVec.ofNat_eq_ofNat, BitVec.zero_iff_eq_false,
    not_forall, Bool.not_eq_false, BitVec.getLsbD_and, Bool.and_eq_true]
  exact exists_congr fun i => (and_iff_right_of_imp fun ⟨hen, _⟩ => BitVec.lt_of_getLsbD hen).symm

/-- An IRQ_EN write keeps the low four bits of the word (R36). -/
theorem getLsbD_irqEn_csrWrite (s : State) (w : Word) {i : Nat} (hi : i < 4) :
    (csrWrite .irqEn w s).irqEn.getLsbD i = w.getLsbD i := by
  simp [csrWrite, hi]

/-- Settles O47: the IRQ_EN write stores the word's low bits, and `irq` follows the two registers. -/
theorem irqFollowsEnableAndStatus : Obligations.IrqFollowsEnableAndStatus := by
  intro s w es h
  have hstep := step_offered_csr_write (r := .irqEn) h rfl (by decide) (targetOf_csr (by decide) rfl) (by decide)
  obtain ⟨_, hr, _, _⟩ := h
  refine ⟨_, hstep, rfl, fun i hi => getLsbD_irqEn_csrWrite { s with events := es } w hi, ?_⟩
  rw [irq_iff (s := (csrWrite .irqEn w { s with events := es }).answer 0) hr]
  refine exists_congr fun i => and_congr_right fun hi => ?_
  rw [State.answer_irqEn, getLsbD_irqEn_csrWrite _ w hi]
  rfl

end Sys2Proof.Machine
end

section
/-! PROOFS. RLEC never halts (60_exceptions.md R200): every turn of a legal build answers a next state, of the same
build. -/

namespace Sys2Proof.Machine
open Sys2Proof

/-- The engine's turn completes the running command, or does nothing. -/
theorem engineTurn_answers (s : State) : ∃ t, engineTurn s = .next t := by
  cases hlatch : s.latch with
  | none => exact ⟨s, by rw [engineTurn, hlatch]⟩
  | some l =>
    obtain ⟨slot, x, hrun, _⟩ := runWord_completes l.cmd s
    exact ⟨_, (engineTurn_of_latch hlatch).trans hrun⟩

theorem takeEvent_answers (s : State) : ∃ t, takeEvent s = .next t := by
  unfold takeEvent
  split
  case h_1 | h_2 => exact engineTurn_answers _
  case h_3 | h_5 | h_6 => exact ⟨_, rfl⟩
  case h_4 =>
    split
    · exact ⟨_, rfl⟩
    · exact engineTurn_answers _

theorem heldTurn_answers (x : Txn) (s : State) : ∃ t, heldTurn x s = .next t := by
  unfold heldTurn
  split
  · exact ⟨_, rfl⟩
  · split
    · exact engineTurn_answers s
    · exact ⟨_, rfl⟩

theorem turn_answers (s : State) : ∃ t, turn s = .next t := by
  unfold turn
  split
  · split
    · exact heldTurn_answers _ s
    · exact takeEvent_answers s
  · exact ⟨_, rfl⟩

/-- No turn changes the build. -/
theorem turn_params {s t : State} (h : turn s = .next t) : t.params = s.params := by
  rcases turn_cases h with ⟨l, es, _, _, hrun⟩ | ⟨x, es, _, _, _, _, rfl⟩ | ⟨x, es, _, _, _, rfl⟩ |
    ⟨x, _, _, _, rfl⟩ | ⟨es, _, rfl⟩ | ⟨es, _, rfl⟩ | ⟨es, rfl⟩
  · obtain ⟨slot, x, hx, honly⟩ := runWord_completes l.cmd { s with events := es }
    rw [hrun, Host.Outcome.next.injEq] at hx
    rw [hx, complete_params, honly.params]
  · rfl
  · exact (perform_keeps x { s with events := es }).1
  · exact (perform_keeps x { s with held := none }).1
  · rfl
  · rfl
  · rfl

/-- Settles O56: on a legal build the step is a turn, and every turn answers a state of the same build. -/
theorem everyStepHasANextState : Obligations.EveryStepHasANextState := by
  intro s hl
  obtain ⟨t, ht⟩ := turn_answers s
  exact ⟨t, (step_of_legal hl).trans ht, turn_params ht⟩

end Sys2Proof.Machine
end

section
/-! PROOFS. Reset (70_reset_and_hazards.md R230 to R236): the values a reset leaves, the soft reset at once and behind a
running command, the edges of `rst_n`, and what a decode and PACK do right after a hard reset. -/

namespace Sys2Proof.Machine
open Sys2Proof

/-! ### The reset values (R231, R233) -/

/-- The CFG.LEN of a reset is N_MAX: it fits the register on a legal build. -/
theorem nMax_half_toNat {p : Params} (h : legalBuild p = true) : (BitVec.ofNat 16 p.nMax).toNat = p.nMax := by
  obtain ⟨_, hn, _⟩ := (legalBuild_iff p).1 h
  rw [BitVec.toNat_ofNat]
  exact Nat.mod_eq_of_lt (by omega)

theorem head_of_enc_empty {s : State} (h : s.enc = { y := EncHead.empty, cr := EncHead.empty, cb := EncHead.empty })
    (c : Chan) : s.head c = EncHead.empty := by
  rw [State.head, h]
  cases c <;> rfl

theorem status_eq_zero {s : State} (hlatch : s.latch = none) (herr : s.statusErr = false) : s.status = 0 := by
  rw [State.status, State.busy_eq_false.2 hlatch, herr]
  rfl

theorem irq_of_rstN_low {s : State} (h : s.rstN = false) : s.irq = false := by
  rw [State.irq, h, Bool.false_and]

/-- With every interrupt disabled, no pending event raises `irq`. -/
theorem irq_of_disabled {s : State} (h : s.irqEn = 0) : s.irq = false := by
  simp [State.irq, h]

theorem head_afterHardReset (p : Params) (r : Nat) (es : List Event) (c : Chan) :
    (State.afterHardReset p r es).head c = EncHead.empty := head_of_enc_empty rfl c

/-- Memory lists nothing after a hard reset, so each byte reads as its free value (R232). -/
theorem byte_afterHardReset (p : Params) (r : Nat) (es : List Event) (a : Nat) :
    (State.afterHardReset p r es).byte a = Config.powerUpByte r a := rfl

/-- Settles O53: the registers are the constants of `State.afterHardReset`, and the heads are empty. -/
theorem resetValues : Obligations.ResetValues := by
  refine ⟨rfl, fun p r es hl => ?_⟩
  refine ⟨rfl, rfl, rfl, rfl, status_eq_zero rfl rfl, rfl, rfl, rfl, rfl, irq_of_disabled rfl, nMax_half_toNat hl,
    rfl, fun c => ?_⟩
  rw [head_afterHardReset]
  exact ⟨rfl, rfl, rfl⟩

/-! ### Soft reset (R233, R234) -/

/-- A CTRL write with SRST = 1, once performed, is the soft reset. -/
theorem perform_srst {w : Word} (s : State) (hw : w.getLsbD 0 = true) :
    perform (.write 0x010 w 0xF) s = (softReset s).answer 0 := by
  have hreset : csrWrite .ctrl w s = softReset s := if_pos hw
  rw [perform_write rfl, hostWrite_csr (targetOf_csr (r := .ctrl) (by decide) rfl) (by decide), hreset]

theorem requestsSrst_write {w : Word} (hw : w.getLsbD 0 = true) : Txn.requestsSrst (.write 0x010 w 0xF) = true := by
  simp [Txn.requestsSrst, Txn.misformed, Txn.addr, Txn.strobes, srstBit, hw]

theorem heldWhileBusy_srst (p : Params) {w : Word} (hw : w.getLsbD 0 = true) :
    heldWhileBusy p (.write 0x010 w 0xF) = true := by
  rw [heldWhileBusy, requestsSrst_write hw, Bool.or_true]

/-- Settles O50: an idle engine's port performs the write, and the soft reset keeps the memories. -/
theorem softResetClearsRegistersOnly : Obligations.SoftResetClearsRegistersOnly := by
  intro s w es h hidle hw
  have hstep : step s = .next ((softReset { s with events := es }).answer 0) := by
    rw [step_offered_not_held h (by simp [hidle]), perform_srst _ hw]
  obtain ⟨hl, _⟩ := h
  exact ⟨_, hstep, rfl, rfl, rfl, nMax_half_toNat hl, status_eq_zero rfl rfl, rfl, rfl, rfl, rfl, irq_of_disabled rfl,
    head_of_enc_empty rfl, rfl⟩

/-- With a transaction held and no fall of `rst_n` next, the step completes the running command, which keeps what the
port holds and the input behind it. -/
theorem step_held_completes {s : State} {t : Txn} {l : Latch} (hl : legalBuild s.params = true) (hr : s.rstN = true)
    (hh : s.held = some t) (hno : noReset s.events) (hlatch : s.latch = some l) :
    ∃ u, step s = .next u ∧ runWord l.cmd s = .next u ∧ u.busy = false ∧ sameControl s u := by
  obtain ⟨slot, x, hrun, hx⟩ := runWord_completes l.cmd s
  have hstep : step s = .next (complete slot x) := by
    rw [step_held_busy hl hr hh hno (State.busy_of_latch hlatch), engineTurn_of_latch hlatch, hrun]
  exact ⟨_, hstep, hrun, State.busy_eq_false.2 (complete_latch slot x), sameControl_complete slot hx⟩

/-- Settles O51: the write is held, the next step completes the command, and the idle engine's step performs the
write. -/
theorem softResetWaitsForCompletion : Obligations.SoftResetWaitsForCompletion := by
  intro s w es l h hlatch hw hno
  have hheld := step_offered_held h (State.busy_of_latch hlatch) (heldWhileBusy_srst s.params hw)
  obtain ⟨hl, hr, _, _⟩ := h
  obtain ⟨u, hstep, hrun, hidle, hp, hrst, _, _, _, hh, _, hev, _⟩ := step_held_completes
    (s := { s with held := some (.write 0x010 w 0xF), events := es }) hl hr rfl hno hlatch
  refine ⟨_, u, hheld, requestsSrst_write hw, hstep, hidle, hrun, ?_⟩
  obtain ⟨_, hperform⟩ := accessesAreHeldUntilCompletion
  rw [hperform u _ (hp ▸ hl) (hrst.trans hr) hh hidle (hev ▸ hno), perform_srst _ hw]

/-! ### Hard reset (R230) -/

/-- The fall of `rst_n` comes before everything else, a held transaction too. -/
theorem step_rstFall {s : State} {es : List Event} (hl : legalBuild s.params = true) (hr : s.rstN = true)
    (hev : s.events = .rstFall :: es) : step s = .next (resetFall { s with events := es }) := by
  rw [step_of_legal hl, turn, if_pos hr]
  split
  · rw [heldTurn, hev]
  · rw [takeEvent, hev]

/-- While `rst_n` is low, a step is the reset's turn. -/
theorem step_rstN_low {s : State} (hl : legalBuild s.params = true) (hr : s.rstN = false) :
    step s = .next (resetTurn s) := by
  rw [step_of_legal hl, turn, if_neg (by simp [hr])]

theorem resetTurn_nil {s : State} (h : s.events = []) : resetTurn s = s := by
  rw [resetTurn, h]

theorem resetTurn_rise {s : State} {es : List Event} (h : s.events = .rstRise :: es) :
    resetTurn s = resetRise { s with events := es } := by
  rw [resetTurn, h]

/-- Any other input is lost. -/
theorem resetTurn_lost {s : State} {e : Event} {es : List Event} (h : s.events = e :: es) (he : e ≠ .rstRise) :
    resetTurn s = { s with events := es } := by
  cases e with
  | rstRise => exact absurd rfl he
  | host t | engine | sameCycle t first | rstFall => rw [resetTurn, h]

/-- Settles O52: the fall drops the latch and what is held, every step until the rise is the reset's turn, and the rise
leaves `State.afterHardReset`. -/
theorem hardResetGivesTheResetState : Obligations.HardResetGivesTheResetState := by
  refine ⟨fun s es hl hr hev => ?_, fun s e es hl hr hev he => ?_, fun s hl hr hev => ?_, fun s es hl hr hev => ?_⟩
  · exact ⟨_, step_rstFall hl hr hev, rfl, rfl, rfl, rfl, irq_of_rstN_low rfl, rfl, rfl⟩
  · exact ⟨irq_of_rstN_low hr, by rw [step_rstN_low hl hr, resetTurn_lost hev he]⟩
  · exact ⟨irq_of_rstN_low hr, by rw [step_rstN_low hl hr, resetTurn_nil hev]⟩
  · have hstep : step s = .next (resetRise { s with events := es }) := by
      rw [step_rstN_low hl hr, resetTurn_rise hev]
    exact ⟨_, hstep, rfl, rfl, rfl, nMax_half_toNat hl, status_eq_zero rfl rfl, rfl, rfl, rfl, rfl, rfl, rfl,
      irq_of_disabled rfl, head_afterHardReset _ _ _, byte_afterHardReset _ _ _⟩

/-! ### RLE_DECODE of an empty channel (R236) -/

/-- A channel without tuples has no runs to sum. -/
theorem totalRun_of_tlen_zero {s : State} {c : Chan} (h : (s.head c).tlen = 0) : totalRun c s = 0 := by
  rw [totalRun, h]
  rfl

/-- A channel without tuples fails the length check unless LEN is 1. -/
theorem decodeCheck_of_tlen_zero {s : State} {c : Chan} {n : Nat} (h : (s.head c).tlen = 0) (hn : 2 ≤ n) :
    decodeCheck c n s = some
      { cause := .lengthMismatch, ch := Chan.field c, pos := 0, lo := 0, hi := BitVec.ofNat 32 (n - 1) } := by
  have hsum := totalRun_of_tlen_zero h
  have hcodes : ∀ k, k < (s.head c).tlen.toNat → (s.tupCode c k).toNat < (s.head c).ndist.toNat := fun k hk => by
    rw [h] at hk
    exact absurd hk (Nat.not_lt_zero k)
  rw [decodeCheck_eq_lengthMismatch hcodes (by omega), h, hsum]
  rfl

/-- RLE_DECODE of a channel without tuples, with LEN above 1, records the length mismatch and stores nothing. -/
theorem exec_rleDecode_of_tlen_zero {s : State} {n : Nat} {c : Chan} (tag : Half) (h : runningWithLen s n)
    (hn : 2 ≤ n) (hz : (s.head c).tlen = 0) :
    ∃ t, exec (.rleDecode (Chan.field c) tag) s = .next t ∧
      t.err = dataRecord .lengthMismatch tag c 0 0 (BitVec.ofNat 32 (n - 1)) ∧ t.mem = s.mem := by
  have hcheck := decodeCheck_of_tlen_zero hz hn
  obtain ⟨hcause, hch⟩ := decodeCheck_error hcheck
  obtain ⟨_, _, _, _, herr⟩ := completedErr_data s tag _ c hcause hch
  refine ⟨_, ?_, herr, complete_mem _ _⟩
  change execRleDecode (Chan.field c) tag s = _
  rw [execRleDecode, withChannel_field, withLen_of_running h, hcheck, withCheck_some]

/-- The command accepted right after a hard reset runs with LEN = N_MAX. -/
theorem runningWithLen_afterHardReset {p : Params} (w : Word) (r : Nat) (es : List Event) (h : legalBuild p = true) :
    runningWithLen (accept w (State.afterHardReset p r es)) p.nMax := by
  obtain ⟨hmin, _⟩ := (legalBuild_iff p).1 h
  exact ⟨h, ⟨_, rfl, nMax_half_toNat h⟩, by omega, le_rfl⟩

/-! ### PACK of an empty Encoded Block (R236) -/

/-- Bytes that are all 0 read as 0 once stored, in whatever order they overlap. -/
theorem State.byte_store_of_zero {s : State} {cs : List Host.Cell} {b : Nat} (hz : ∀ cell ∈ cs, cell.2 = 0)
    (hb : b ∈ cellAddrs cs) : (s.store cs).byte b = 0 := by
  induction cs generalizing s with
  | nil => cases hb
  | cons cell cs ih =>
    obtain ⟨a, v⟩ := cell
    obtain ⟨rfl, hrest⟩ := List.forall_mem_cons.1 hz
    by_cases hmem : b ∈ cellAddrs cs
    · exact ih (s := s.store [(a, 0)]) hrest hmem
    · obtain rfl : b = a := (List.mem_cons.1 hb).resolve_right hmem
      exact State.byte_store_of_last s [] cs b 0 hmem

theorem zeroCells_zero {a n : Nat} : ∀ cell ∈ zeroCells a n, cell.2 = 0 := by
  induction n generalizing a with
  | zero => exact List.forall_mem_nil _
  | succ n ih => exact List.forall_mem_cons.2 ⟨rfl, ih⟩

/-- The bytes of the number 0 are all 0. -/
theorem leCells_zero {a n : Nat} : ∀ cell ∈ leCells a n 0, cell.2 = 0 := by
  induction n generalizing a with
  | zero => exact List.forall_mem_nil _
  | succ n ih => exact List.forall_mem_cons.2 ⟨rfl, ih⟩

theorem packDcCells_zero {s : State} (slot : Nat) (h : ∀ d, s.head d = EncHead.empty) :
    ∀ cell ∈ packDcCells slot s, cell.2 = 0 := fun cell hcell => by
  rcases List.mem_append.1 hcell with hpad | hval
  · exact zeroCells_zero cell hpad
  · obtain ⟨d, _, hval⟩ := List.mem_flatMap.1 hval
    rw [h d] at hval
    exact leCells_zero cell hval

/-- An empty channel's section has its two lengths, both 0, and no entry. -/
theorem packFieldCells_of_empty {s : State} (slot : Nat) {c : Chan} (h : s.head c = EncHead.empty) :
    packFieldCells slot c s = leCells (secAddr s.params slot c 0) 2 0 ++ leCells (secAddr s.params slot c 2) 2 0 := by
  rw [packFieldCells_eq, h]
  rfl

/-- PACK of an empty Encoded Block stores nothing but zeros. -/
theorem packCells_zero {s : State} (slot : Nat) (c : Chan) (h : ∀ d, s.head d = EncHead.empty) :
    ∀ cell ∈ packCells slot c s, cell.2 = 0 := fun cell hcell => by
  rw [packCells, packFieldCells_of_empty slot (h c)] at hcell
  simp only [List.mem_append] at hcell
  rcases hcell with hdc | hpad | htlen | hndist
  · exact packDcCells_zero slot h cell hdc
  · exact zeroCells_zero cell hpad
  · exact leCells_zero cell htlen
  · exact leCells_zero cell hndist

/-- PACK stores every byte of the DC section. -/
theorem dcSection_mem_packCells (s : State) (slot : Nat) (c : Chan) {j : Nat} (hj : j < dcBytes s.params) :
    trAddr s.params slot j ∈ cellAddrs (packCells slot c s) := by
  have haddr : trAddr s.params slot j = trAddr s.params slot 0 + j := by rw [← trAddr_add, Nat.zero_add]
  rw [packCells, packDcCells, List.append_assoc, cellAddrs_append, List.mem_append, mem_cellAddrs_zeroCells]
  omega

/-- PACK stores every byte of the channel section. -/
theorem section_mem_packCells (s : State) (slot : Nat) (c : Chan) {j : Nat} (hj : j < chBytes s.params) :
    secAddr s.params slot c j ∈ cellAddrs (packCells slot c s) := by
  have haddr := secAddr_add s.params slot c j
  simp only [packCells, cellAddrs_append, List.mem_append, mem_cellAddrs_zeroCells]
  omega

/-- PACK of an empty Encoded Block completes without error and leaves the DC section and its channel's section all
zeros. -/
theorem exec_pack_of_empty {s : State} {slot : Half} (c : Chan) (hs : slot.toNat < s.params.nSlot)
    (h : ∀ d, s.head d = EncHead.empty) :
    ∃ t, exec (.pack slot (Chan.field c)) s = .next t ∧ completedOk s t ∧
      (∀ j, j < dcBytes s.params → t.byte (trAddr s.params slot.toNat j) = 0) ∧
      ∀ j, j < chBytes s.params → t.byte (secAddr s.params slot.toNat c j) = 0 := by
  have htlen : (s.head c).tlen.toNat ≤ cap s.params := by
    rw [h c]
    exact Nat.zero_le _
  have hndist : (s.head c).ndist.toNat ≤ cap s.params := by
    rw [h c]
    exact Nat.zero_le _
  have hzero : ∀ b ∈ cellAddrs (packCells slot.toNat c s), (commitPack slot.toNat c s).byte b = 0 :=
    fun _ hb => State.byte_store_of_zero (packCells_zero slot.toNat c h) hb
  refine ⟨_, exec_pack_of_fits hs htlen hndist, completedOk_commit slot (onlyData_commitPack _ c s), fun j hj => ?_,
    fun j hj => ?_⟩
  · exact (State.byte_complete _ _ _).trans (hzero _ (dcSection_mem_packCells s _ c hj))
  · exact (State.byte_complete _ _ _).trans (hzero _ (section_mem_packCells s _ c hj))

/-- Settles O54: every channel is empty after the reset, so the decode's length check fails and PACK stores zeros. -/
theorem decodeAndPackRightAfterReset : Obligations.DecodeAndPackRightAfterReset := by
  intro p r c slot tag hl hslot
  obtain ⟨hmin, _⟩ := (legalBuild_iff p).1 hl
  have hempty : ∀ w d, (accept w (State.afterHardReset p r [])).head d = EncHead.empty :=
    fun _ => head_afterHardReset p r []
  refine ⟨exec_rleDecode_of_tlen_zero tag (runningWithLen_afterHardReset _ r [] hl) hmin ?_, ?_⟩
  · rw [hempty]
    rfl
  · obtain ⟨t, hexec, ⟨_, _, _, herr, _⟩, hbytes⟩ :=
      exec_pack_of_empty c hslot (hempty (encode (.pack slot (Chan.field c))))
    exact ⟨t, hexec, herr, hbytes⟩

end Sys2Proof.Machine
end
